-- ==== Sys2Proof/Word.lean ====
section
/-!
DEFINITION. The word types of the block: 32-bit registers and addresses, 8-bit bytes, 16-bit units (00_scope.md R8).
-/

namespace Sys2Proof

/-- A block register, an operand or a bus datum: 32 bits (R8). -/
abbrev Word := BitVec 32

/-- The addressable unit of host memory (R60). -/
abbrev Byte := BitVec 8

/-- A logical select-line identifier as a command word carries it: the 8-bit field CSID (R96). -/
abbrev Csid := BitVec 8

/-- The name of a software context that performs accesses (R6, D31). Which names are callers is the parameter
`Params.callers`. DESIGN CHOICE (log 6): the names are numbers. Safe. -/
abbrev Caller := Nat

end Sys2Proof
end

