-- ==== Sys2Proof/Config.lean ====
section
/-!
DEFINITION. The implementation parameters of 00_scope.md R7 and the admission predicate of 20_memory.md R61 as plain data,
the constants the spec fixes, and the free draws of the environment.
-/

namespace Sys2Proof

/-- Backend variant `BACKEND` (R3, R7). -/
inductive Backend where
  | standard
  | usart
  deriving DecidableEq, Repr

/-- Chip-select scheme `CS_SCHEME` (R3, R7). -/
inductive CsScheme where
  | decoder
  | direct
  deriving DecidableEq, Repr

/-- Direction of a host-memory access, the `dir` of `Admit` (R61). -/
inductive Dir where
  | read
  | write
  deriving DecidableEq, Repr

/-- One record of the admission predicate: accesses in direction `dir`, of `size` bytes or, with no size given, of any, are
accepted that lie within the `len` bytes from `lo` on. A list of such records can spell any predicate on (address, size,
direction) (DESIGN CHOICE, log 4). Safe. -/
structure AdmitRange where
  dir : Dir
  size : Option Nat
  lo : Nat
  len : Nat
  deriving DecidableEq, Repr

/-- The parameters of R7, `Admit` of R61 and the finite set `Caller` of R6 and D31, as a list without repeats. They are arguments of the model (R281): State holds them as a constant field,
so that a statement over every state holds for every value of them (DESIGN CHOICE, log 1). -/
structure Params where
  backend : Backend
  csScheme : CsScheme
  ncs : Nat
  ndirect : Nat
  word16 : Bool
  dmaPresent : Bool
  ndma : Nat
  hsTx : Word
  hsRx : Word
  tdrAddr : Word
  rdrAddr : Word
  sysclk : Nat
  divMax : Nat
  tlimit : Nat
  base : Nat
  admission : List AdmitRange
  callers : List Caller
  deriving DecidableEq, Repr

/-- The ranges R7 gives the parameters, and the callers as a set. That the window ends inside the 32-bit space of R60 is DEDUCED
(log 29), and so is that there is a caller at all (log 6). -/
def Params.wf (p : Params) : Bool :=
  decide (p.backend = .usart → p.csScheme = .direct)
    && decide (1 ≤ p.ncs ∧ p.ncs ≤ 32)
    && decide (1 ≤ p.ndirect ∧ p.ndirect ≤ 8)
    && decide (p.dmaPresent = true → 1 ≤ p.ndma ∧ p.ndma < 2 ^ 32)
    && decide (1 ≤ p.sysclk ∧ p.sysclk < 2 ^ 32)
    && decide (1 ≤ p.divMax ∧ p.divMax ≤ 65535)
    && decide (1 ≤ p.tlimit ∧ p.tlimit < 2 ^ 32)
    && decide (p.base % 0x40 = 0 ∧ p.base + 0x40 ≤ 2 ^ 32)
    && decide (p.callers ≠ [] ∧ p.callers.Nodup)

namespace Config

/-- Size of the register window in bytes (R20). -/
def windowSize : Nat := 0x40

/-- One past the last host-memory address (R60). -/
def addressSpace : Nat := 2 ^ 32

/-- Filler unit of a byte transfer, `FILL8` (R7). -/
def fill8 : BitVec 8 := 0xFF#8

/-- Filler unit of a 16-bit transfer, `FILL16` (R7, C2). -/
def fill16 : BitVec 16 := 0xFFFF#16

/-- The value of the constant register `FILL` (R26). -/
def fillWord : Word := 0x000000FF#32

/-- Offset of `FILL` in the window (R20). -/
def fillOffset : Nat := 0x1C

/-- `PCS_NONE`, the all-deasserted chip-select pattern (R28). -/
def pcsNone : BitVec 8 := 0xFF#8

/-- What a byte of host memory that State does not list reads as.
The spec gives host memory as an argument of the model (R281): DESIGN CHOICE (log 3). Unsafe for claims about reset memory. -/
def unlistedByte : Byte := 0x00#8

/-- A readiness sample of the PHY when State lists no coming answer: a draw under no law (R70, U8; log 5). Safe. -/
opaque freeSample : Nat → Bool

/-- A received unit of the PHY when State lists no coming unit: a draw under no law (R69, U8; log 5). Safe. -/
opaque freeUnit : Nat → BitVec 16

/-- The parameters of State.reset: the example configuration of 95_test_vectors.md, which the spec says no source gives
(DESIGN CHOICE, log 1; its callers A and B are 1 and 2, log 6; HS_TX, HS_RX, TDR_ADDR and RDR_ADDR, which the example leaves out, log 2). Unsafe for claims about
State.reset alone. -/
def platform : Params where
  backend := .standard
  csScheme := .decoder
  ncs := 8
  ndirect := 4
  word16 := true
  dmaPresent := true
  ndma := 4
  hsTx := 1#32
  hsRx := 2#32
  tdrAddr := 0x4000900C#32
  rdrAddr := 0x40009008#32
  sysclk := 84000000
  divMax := 255
  tlimit := 15000
  base := 0x40008000
  admission := [⟨.read, none, 0x20000000, 0x10000⟩, ⟨.write, none, 0x20000000, 0x10000⟩]
  callers := [1, 2]

end Config

end Sys2Proof
end

