-- ==== Sys2Proof/Syntax.lean ====
section
/-!
DEFINITION. The instructions of the block: one constructor per row of spec/opcode_table.json.
Command words carry the fields of 30_encoding.md R96; a write access carries the 32-bit value written (R91).
-/

namespace Sys2Proof

/-- Host accesses (R92) and command words (R99). -/
inductive Instr where
  /-- INIT (R151): requested word width in bits. -/
  | init (wbits : BitVec 8)
  /-- CONFIGURE (R156): select-line identifier, SPI mode, 16-bit width flag. -/
  | configure (csid : Csid) (mode : BitVec 2) (w16 : Bool)
  /-- SELECT (R170). -/
  | select (csid : Csid)
  /-- DESELECT (R172). -/
  | deselect (csid : Csid)
  /-- XFER8 (R192): transmit buffer given, receive buffer given. -/
  | xfer8 (txv rxv : Bool)
  /-- XFER16 (R194). -/
  | xfer16 (txv rxv : Bool)
  /-- DMATX (R221): source buffer given. -/
  | dmatx (txv : Bool)
  /-- DMARX (R222). -/
  | dmarx
  /-- ACQUIRE (R120): 32-bit read of LOCK. -/
  | acquire
  /-- RELEASE (R123): 32-bit write of LOCK; the value is ignored. -/
  | release (v : Word)
  /-- WR_CMD (R135): issues the command word. -/
  | wrCmd (w : Word)
  /-- WR_ARG0 (R133). -/
  | wrArg0 (v : Word)
  /-- WR_ARG1 (R133). -/
  | wrArg1 (v : Word)
  /-- WR_ARG2 (R133). -/
  | wrArg2 (v : Word)
  /-- WR_RO on RESULT (R134); in this row and the next ten the value is ignored. -/
  | wrRoResult (v : Word)
  /-- WR_RO on DONE (R134). -/
  | wrRoDone (v : Word)
  /-- WR_RO on STATUS (R134). -/
  | wrRoStatus (v : Word)
  /-- WR_RO on FILL (R134). -/
  | wrRoFill (v : Word)
  /-- WR_RO on CTRL (R134). -/
  | wrRoCtrl (v : Word)
  /-- WR_RO on DIV (R134). -/
  | wrRoDiv (v : Word)
  /-- WR_RO on CSLINES (R134). -/
  | wrRoCslines (v : Word)
  /-- WR_RSVD at offset 0x30 (R134). -/
  | wrRsvd30 (v : Word)
  /-- WR_RSVD at offset 0x34 (R134). -/
  | wrRsvd34 (v : Word)
  /-- WR_RSVD at offset 0x38 (R134). -/
  | wrRsvd38 (v : Word)
  /-- WR_RSVD at offset 0x3C (R134). -/
  | wrRsvd3C (v : Word)
  /-- RD_CMD (R139). -/
  | rdCmd
  /-- RD_ARG0 (R140). -/
  | rdArg0
  /-- RD_ARG1 (R140). -/
  | rdArg1
  /-- RD_ARG2 (R140). -/
  | rdArg2
  /-- RD_RESULT (R141). -/
  | rdResult
  /-- RD_DONE (R142). -/
  | rdDone
  /-- RD_STATUS (R143). -/
  | rdStatus
  /-- RD_FILL (R144): 32-bit read. -/
  | rdFill
  /-- RD_CTRL (R145). -/
  | rdCtrl
  /-- RD_DIV (R146). -/
  | rdDiv
  /-- RD_CSLINES (R147). -/
  | rdCslines
  /-- RDB_FILL (R144): 8-bit read. -/
  | rdbFill
  /-- RD_RSVD at offset 0x30 (R148). -/
  | rdRsvd30
  /-- RD_RSVD at offset 0x34 (R148). -/
  | rdRsvd34
  /-- RD_RSVD at offset 0x38 (R148). -/
  | rdRsvd38
  /-- RD_RSVD at offset 0x3C (R148). -/
  | rdRsvd3C
  deriving DecidableEq, Repr

end Sys2Proof
end

