-- ==== Sys2Proof/Machine/State.lean ====
section
/-!
DEFINITION. The state of the block and its world (10_state.md, 20_memory.md), the reasons a step can stop, and the state
after reset (70_reset_and_hazards.md R280).
-/

namespace Sys2Proof.Machine

/-- The model's faults: the kinds of R246. A kind is first recorded in `State.faultMark` (R247) by the access or command that
raises it; every step of a state that carries the mark then answers the fault. All are safe: they stop a run whose hardware
behaviour the spec leaves undefined. -/
inductive Fault where
  /-- Raised by a window access of a form outside R92 (R130). Safe. -/
  | badAccess
  /-- Raised by a write to CMD or ARG0..2 by a caller that is not the owner (R251). Safe. -/
  | misuseLock
  /-- Raised by a command in a session state its row of R252 does not allow. Safe. -/
  | misuseOrder
  /-- Raised by CONFIGURE with baud 0 or a divisor above DIV_MAX (R156). Safe. -/
  | misuseDivisor
  /-- Raised by XFER8 under CTRL.W16 = 1 and XFER16 under CTRL.W16 = 0 (R193). Safe. -/
  | misuseWidth
  /-- Raised by a transfer or DMA buffer that wraps, is misaligned or overlaps the window (R193, R223). Safe. -/
  | misuseBuffer
  /-- Raised by DMA arming with CTRL.W16 = 1 or length 0 (R223). Safe. -/
  | misuseDma
  /-- Raised by a block access to host memory that Admit refuses (R61). Safe. -/
  | busErr
  /-- Answered by XFER8, XFER16 and DESELECT when PHASE names a micro-step the command does not have. No run reaches it: the
  invariant of Safety.lean rules it out (DESIGN CHOICE, log 21). Safe. -/
  | foreignPhase
  deriving DecidableEq, Repr

/-- Why a step has no meaning. -/
inductive Refusal where
  /-- Raised by exec for an instruction with no meaning yet. Safe. -/
  | notModelled (mnemonic : String)
  /-- Raised by a caller's own access to an address outside the window that Admit does not accept: "this spec says nothing
  of them" (R130; log 19). Safe. -/
  | outsideMemory
  /-- Raised by a caller's own access outside the window whose width is no whole number of bytes, of which host memory has no
  unit (R60): "this spec says nothing of them" (R130; log 19). Safe. -/
  | notWholeBytes
  /-- Raised by a turn of a context that is no caller: the agents are the callers of the parameter `Caller` (R6, D31), so no run
  of the spec's world has such an access (log 6). Safe. -/
  | noSuchCaller
  deriving DecidableEq, Repr

/-- The refusal mark's kinds (R249). -/
inductive RefusalMark where
  /-- `EXTDMA`: a DMA transfer was armed (R224). -/
  | extDma
  deriving DecidableEq, Repr

/-- `SESSION` (R36). -/
inductive Session where
  | unconfigured
  | configured
  | selected
  | error
  | deselected
  deriving DecidableEq, Repr

/-- `PHASE`: the micro-step the block does next (R40). -/
inductive Phase where
  | idle
  | pollTx
  | emit
  | pollRx
  | recv
  | pollDrain
  | finishDeselect
  deriving DecidableEq, Repr

/-- A PHY readiness condition (R70). -/
inductive Cond where
  | txRdy
  | rxRdy
  | txEmpty
  deriving DecidableEq, Repr

/-- A transfer unit: one byte or one 16-bit word (R8, R68). -/
inductive TUnit where
  | u8 (v : BitVec 8)
  | u16 (v : BitVec 16)
  deriving DecidableEq, Repr

/-- The `dir` of a DMA configuration (R220). -/
inductive DmaDir where
  | memToPer
  | perToMem
  deriving DecidableEq, Repr

/-- An event of the trace (R75): the PHY port (R68 to R71), the platform port (R72), the select lines (R73), the DMA port
(R74). -/
inductive Event where
  | poll (c : Cond) (b : Bool)
  | tx (v : TUnit) (last : Bool)
  | rx (v : TUnit)
  | platformInit
  | resetAll
  | resetTxrx
  | apply (ctrl div : Word)
  | lastXfer
  | cs (line : Nat) (level : Bool)
  | dmaDisable (ch : Word)
  | dmaConfig (ch hs : Word) (dir : DmaDir)
  | dmaDesc (ch src : Word) (srcIncr : Bool) (dst : Word) (dstIncr : Bool) (len : Word)
  | dmaEnable (ch : Word)
  deriving DecidableEq, Repr

/-- A caller's bus access at a host address: to the window (R130) or to host memory (R132).
R92 speaks of "widths other than 8 and 32 bits (for example 16-bit accesses)" and does not say which a bus can have:
`width` is any number of bits, so that every such access can be stated (DESIGN CHOICE, log 31). Safe. -/
structure BusAccess where
  caller : Caller
  write : Bool
  /-- In bits. -/
  width : Nat
  addr : Nat
  /-- The value written, as an unsigned number; the access carries its low `width` bits. -/
  data : Nat
  deriving DecidableEq, Repr

/-- Which agent moves next (R77, R132; DESIGN CHOICE, log 7). -/
inductive Turn where
  /-- The block makes a micro-step, if a command runs. -/
  | block
  /-- A caller performs an access, or is held and the block moves. -/
  | bus (a : BusAccess)
  deriving DecidableEq, Repr

/-- A completed access and the data a read returned (R91, R138; DESIGN CHOICE, log 16). -/
inductive Reply where
  | written (c : Caller)
  /-- An 8-bit window read. -/
  | byte (c : Caller) (v : BitVec 8)
  /-- A 32-bit window read. -/
  | word (c : Caller) (v : Word)
  /-- A caller's own load from host memory, the byte at the lowest address first (log 19). -/
  | loaded (c : Caller) (vs : List Byte)
  deriving DecidableEq, Repr

/-- The state. -/
structure State where
  /-- The parameters of R7, Admit of R61 and the callers of R6: no step changes them. -/
  params : Params
  /-- `CMD` (R21). -/
  cmd : Word
  /-- `ARG0` (R22). -/
  arg0 : Word
  /-- `ARG1` (R22). -/
  arg1 : Word
  /-- `ARG2` (R22). -/
  arg2 : Word
  /-- `RESULT` (R23). -/
  result : Word
  /-- `DONE` (R24). -/
  done : Word
  /-- `CTRL` (R27). -/
  ctrl : Word
  /-- `DIV` (R29). -/
  div : Word
  /-- `CSLINES` (R30). -/
  cslines : Word
  /-- `LOCK`, the BusLock (R31). -/
  lock : Bool
  /-- `INITED` (R32). -/
  inited : Bool
  /-- `OWNER` (R35). -/
  owner : Option Caller
  /-- `SESSION` (R36). -/
  session : Session
  /-- `CFG_ID` (R37). -/
  cfgId : Option Csid
  /-- `SEL_ID` (R38). -/
  selId : Option Csid
  /-- `FAULT` (R39). -/
  faultMark : Option Fault
  /-- `REFUSED` (R39). -/
  refusedMark : Option RefusalMark
  /-- `BUSY` (R40). -/
  busy : Bool
  /-- `ISSUER` (R40). While BUSY is 0 the spec leaves it any value (U23); the model keeps the last one (DESIGN CHOICE, log 8). -/
  issuer : Caller
  /-- `OPW` (R40). -/
  opw : Word
  /-- `OPA0` (R40). -/
  opa0 : Word
  /-- `OPA1` (R40). -/
  opa1 : Word
  /-- `OPA2` (R40). -/
  opa2 : Word
  /-- `PHASE` (R40). -/
  phase : Phase
  /-- `I` (R40). -/
  i : Word
  /-- `P` (R40). While no wait is current the spec leaves it open; what the model holds there is log 30 (DESIGN CHOICE). -/
  p : Nat
  /-- `drained` of R172, from the last drain poll to FINISH_DESELECT (DEDUCED, log 9). -/
  drained : Bool
  /-- Host memory `M` (R61): the listed bytes, in the canonical form `Memory.wf`. -/
  mem : List Host.Cell
  /-- The trace, oldest event first (R75). -/
  trace : List Event
  /-- The coming turns of the agents (log 7). -/
  turns : List Turn
  /-- The caller of the access performed in this step, an input of the step (R131). -/
  caller : Caller
  /-- The PHY's coming answers to readiness samples (R70; log 5). -/
  samples : List Bool
  /-- The PHY's coming received units (R69; log 5). -/
  units : List (BitVec 16)
  /-- How many free draws were taken (log 5). -/
  draws : Nat
  /-- Completed accesses, oldest first (log 16). -/
  replies : List Reply
  deriving DecidableEq, Repr

namespace State

/-- The reset state for given parameters and host memory (R280, R281). ISSUER, which the spec leaves open, and the model's own
`caller` are the first caller (log 8). -/
def resetWith (params : Params) (mem : List Host.Cell) : State where
  params := params
  cmd := 0x00000000#32
  arg0 := 0x00000000#32
  arg1 := 0x00000000#32
  arg2 := 0x00000000#32
  result := 0x00000000#32
  done := 0x00000000#32
  ctrl := 0x0000FF00#32
  div := 0x00000000#32
  cslines := BitVec.ofNat 32 (2 ^ params.ncs - 1)
  lock := false
  inited := false
  owner := none
  session := .unconfigured
  cfgId := none
  selId := none
  faultMark := none
  refusedMark := none
  busy := false
  issuer := params.callers.headD 0
  opw := 0x00000000#32
  opa0 := 0x00000000#32
  opa1 := 0x00000000#32
  opa2 := 0x00000000#32
  phase := .idle
  i := 0x00000000#32
  p := 0
  drained := false
  mem := mem
  trace := []
  turns := []
  caller := params.callers.headD 0
  samples := []
  units := []
  draws := 0
  replies := []

/-- The machine right after reset: the example parameters, no byte of host memory listed (log 1, log 3). -/
def reset : State := resetWith Config.platform []

end State

end Sys2Proof.Machine
end

