-- ==== Sys2Proof/Machine/Ops.lean ====
section
/-!
DEFINITION. The named operations: host memory (20_memory.md R60 to R63), the PHY, platform, line and DMA ports (R68 to R75),
replies, and the ends of an access or command (41_command_port.md R137, R138; 60_exceptions.md R247, R249).
-/

namespace Sys2Proof.Machine

/-! ### Host memory -/

/-- One byte of host memory (R61); an unlisted address reads as `Config.unlistedByte`. -/
def Memory.read : List Host.Cell → Nat → Byte
  | [], _ => Config.unlistedByte
  | (k, v) :: rest, a => if k = a then v else Memory.read rest a

/-- Write one byte, keeping the canonical form. -/
def Memory.write : List Host.Cell → Nat → Byte → List Host.Cell
  | [], a, b => if b = Config.unlistedByte then [] else [(a, b)]
  | (k, v) :: rest, a, b =>
    if a < k then (if b = Config.unlistedByte then (k, v) :: rest else (a, b) :: (k, v) :: rest)
    else if a = k then (if b = Config.unlistedByte then rest else (a, b) :: rest)
    else (k, v) :: Memory.write rest a b

/-- Addresses strictly rising from `lo` on, and no entry equal to what an unlisted address reads as. -/
def Memory.wfFrom : Nat → List Host.Cell → Bool
  | _, [] => true
  | lo, (k, v) :: rest => decide (lo ≤ k) && decide (v ≠ Config.unlistedByte) && Memory.wfFrom (k + 1) rest

/-- The canonical form of host memory. -/
def Memory.wf (m : List Host.Cell) : Bool := Memory.wfFrom 0 m

/-- The record accepts an access: its direction, its size if it has one, and every byte in its range (log 4). -/
def AdmitRange.accepts (r : AdmitRange) (addr n : Nat) (dir : Dir) : Bool :=
  decide (r.dir = dir ∧ (r.size = none ∨ r.size = some n) ∧ r.lo ≤ addr ∧ addr + n ≤ r.lo + r.len)

/-- `Admit(addr, n, dir)` (R61), never past the end of the address space (R60). -/
def admits (p : Params) (addr n : Nat) (dir : Dir) : Bool :=
  decide (addr + n ≤ Config.addressSpace) && p.admission.any fun r => AdmitRange.accepts r addr n dir

/-- Two bytes of host memory, the byte at the higher address in bits 15..8 (R62, R64). -/
def Memory.read2 (m : List Host.Cell) (a : Nat) : BitVec 16 :=
  Memory.read m (a + 1) ++ Memory.read m a

/-- Write two bytes, the low byte at the lower address (R63, R64). -/
def Memory.write2 (m : List Host.Cell) (a : Nat) (v : BitVec 16) : List Host.Cell :=
  Memory.write (Memory.write m a (v.extractLsb' 0 8)) (a + 1) (v.extractLsb' 8 8)

/-- `n` bytes of host memory from an address on, the lowest address first: a caller's own load (log 19). -/
def Memory.readBytes (m : List Host.Cell) (a : Nat) : Nat → List Byte
  | 0 => []
  | n + 1 => Memory.read m a :: Memory.readBytes m (a + 1) n

/-- Write the low `n` bytes of a number, the low byte at the lowest address (R64): a caller's own store (log 19). -/
def Memory.writeBytes (m : List Host.Cell) (a : Nat) : Nat → Nat → List Host.Cell
  | 0, _ => m
  | n + 1, v => Memory.writeBytes (Memory.write m a (BitVec.ofNat 8 v)) (a + 1) n (v / 256)

/-! ### Trace and replies -/

/-- Append an event to the trace (R75). -/
def record (e : Event) (s : State) : State := { s with trace := s.trace ++ [e] }

/-- Append a completed access (log 16). -/
def reply (r : Reply) (s : State) : State := { s with replies := s.replies ++ [r] }

/-! ### The PHY's draws -/

/-- The next readiness answer: the next listed one, else a free draw (R70; log 5). -/
def nextSample (s : State) : Bool :=
  match s.samples with
  | b :: _ => b
  | [] => Config.freeSample s.draws

/-- The state once that answer was taken. -/
def dropSample (s : State) : State :=
  match s.samples with
  | _ :: rest => { s with samples := rest }
  | [] => { s with draws := s.draws + 1 }

/-- The next received unit: the next listed one, else a free draw (R69; log 5). -/
def nextUnit (s : State) : BitVec 16 :=
  match s.units with
  | v :: _ => v
  | [] => Config.freeUnit s.draws

/-- The state once that unit was taken. -/
def dropUnit (s : State) : State :=
  match s.units with
  | _ :: rest => { s with units := rest }
  | [] => { s with draws := s.draws + 1 }

/-! ### Exceptional ends -/

/-- `raise FAULT(kind)` (R247): the mark, and nothing of the access or command that raised it. -/
def raise (k : Fault) (s : State) : State := { s with faultMark := some k }

/-- `mark REFUSED(kind)` (R249). -/
def markRefused (k : RefusalMark) (s : State) : State := { s with refusedMark := some k }

/-- End of a command (R138): PHASE and BUSY, and the issuer's CMD write completes. ISSUER keeps the caller whose command
ended: R40 and U23 leave it any value while BUSY is 0, and no rule reads it (DESIGN CHOICE, log 8). -/
def endCommand (s : State) : State :=
  reply (.written s.issuer) { s with phase := .idle, busy := false }

/-- A command's end with `RESULT <- r` (R23, R138). -/
def finish (r : Word) (s : State) : State := endCommand { s with result := r }

/-! ### Select lines and the DMA port -/

/-- `v` with bit `n` set to `b`. -/
def setBit (v : Word) (n : Nat) (b : Bool) : Word :=
  if b then v ||| (1#32 <<< n) else v &&& ~~~(1#32 <<< n)

/-- `DriveCS(n, l)` (R173). -/
def driveCS (n : Nat) (level : Bool) (s : State) : State :=
  record (.cs n level) { s with cslines := setBit s.cslines n level }

/-- `PhyEvent(APPLY(CTRL, DIV))` (R71). -/
def phyApply (s : State) : State := record (.apply s.ctrl s.div) s

/-- `Arm` (R220). -/
def arm (ch hs : Word) (dir : DmaDir) (src : Word) (srcIncr : Bool) (dst : Word) (dstIncr : Bool) (len : Word)
    (s : State) : State :=
  record (.dmaEnable ch)
    (record (.dmaDesc ch src srcIncr dst dstIncr len)
      (record (.dmaConfig ch hs dir)
        (record (.dmaDisable ch) s)))

end Sys2Proof.Machine
end

