-- ==== Sys2Proof/Machine/Flags.lean ====
section
/-!
DEFINITION. The register fields software reads: RESULT (10_state.md R23), STATUS (R25) and CTRL (R27, R28), and the values
the commands compute for them.
-/

namespace Sys2Proof.Machine

/-! ### RESULT -/

/-- `CODE = OK` (R241). -/
def resultOk : Word := 0x00000000#32

/-- `CODE = ILLEGAL` (R137, R241). -/
def resultIllegal : Word := 0x00000002#32

/-- `CODE = TIMEOUT` with `TPHASE` (R23): 1 transmit-ready, 2 receive-ready, 3 transmit-empty. -/
def resultTimeout (tphase : BitVec 2) : Word := (tphase.zeroExtend 32 <<< 4) ||| 1#32

/-- `RESULT` of INIT: `{23'b0, (w = 16), 8'b0}` (R151). -/
def resultInit (w16map : Bool) : Word := (BitVec.ofBool w16map).zeroExtend 32 <<< 8

/-! ### STATUS -/

/-- `{30'b0, INITED, LOCK}` (R25, R143). -/
def statusView (s : State) : Word :=
  ((BitVec.ofBool s.inited).zeroExtend 32 <<< 1) ||| (BitVec.ofBool s.lock).zeroExtend 32

/-! ### CTRL -/

/-- `CTRL.ENABLED` (R27). -/
def ctrlEnabled (c : Word) : Bool := c.getLsbD 0

/-- `CTRL.MSTR` (R27). -/
def ctrlMstr (c : Word) : Bool := c.getLsbD 1

/-- `CTRL.MODFDIS` (R27). -/
def ctrlModfdis (c : Word) : Bool := c.getLsbD 2

/-- `CTRL.LLB` (R27). -/
def ctrlLlb (c : Word) : Bool := c.getLsbD 3

/-- `CTRL.W16` (R27). -/
def ctrlW16 (c : Word) : Bool := c.getLsbD 4

/-- `CTRL.CPOL` (R27). -/
def ctrlCpol (c : Word) : Bool := c.getLsbD 5

/-- `CTRL.NCPHA` (R27). -/
def ctrlNcpha (c : Word) : Bool := c.getLsbD 6

/-- `CTRL.PCS` (R27). -/
def ctrlPcs (c : Word) : BitVec 8 := c.extractLsb' 8 8

/-- `CTRL.PCS <- v`. -/
def setPcs (c : Word) (v : BitVec 8) : Word := (c &&& 0xFFFF00FF#32) ||| (v.zeroExtend 32 <<< 8)

/-- The chip-select pattern of a direct identifier: `0xFF XOR (1 << id)` (R28). -/
def pcsPattern (id : Csid) : BitVec 8 := 0xFF#8 ^^^ (1#8 <<< id.toNat)

/-- The `CTRL` writes of the first INIT, in order (R151). -/
def ctrlInit (c : Word) : Word :=
  let c := setBit c 0 false
  let c := setBit c 4 false
  let c := setBit c 5 false
  let c := setBit c 6 false
  let c := setBit c 1 true
  let c := setBit c 2 true
  let c := setBit c 3 false
  setPcs c Config.pcsNone

/-- The `CTRL` writes of CONFIGURE, in order (R156). -/
def ctrlConfigure (c : Word) (mode : BitVec 2) (w16 : Bool) : Word :=
  let c := setBit c 0 false
  let c := setBit c 1 true
  let c := setBit c 4 w16
  let c := setBit c 5 (mode.getLsbD 1)
  let c := setBit c 6 (!mode.getLsbD 0)
  setBit c 0 true

end Sys2Proof.Machine
end

