-- ==== Sys2Proof/Machine/Operands.lean ====
section
/-!
DEFINITION. Operand forms and the checks made on them: width mapping and divisor (42_setup.md R150, R155), transfer units and
buffers (44_transfer.md R191, R193), DMA buffers (45_dma.md R223), the session table (60_exceptions.md R252), and the
dispatch of a command in the order of 41_command_port.md R136.
-/

namespace Sys2Proof.Machine

/-! ### Setup operands -/

/-- `map_width` (R150). -/
def mapWidth (b : BitVec 8) : Nat := if b = 16#8 then 16 else 8

/-- `ceil_div(a, b)` for `b >= 1` (R9). -/
def ceilDiv (a b : Nat) : Nat := (a + b - 1) / b

/-- `divisor(b)` for `b >= 1` (R155). -/
def divisor (p : Params) (baud : Word) : Nat := ceilDiv p.sysclk baud.toNat

/-- The divisor is legal (R155): baud at least 1 and a divisor in `1 .. DIV_MAX`. -/
def divisorLegal (p : Params) (baud : Word) : Bool :=
  decide (1 ≤ baud.toNat ∧ divisor p baud ≤ p.divMax)

/-! ### Transfer units -/

/-- `sz` of R191: bytes per unit. -/
def unitSize (wide : Bool) : Nat := if wide then 2 else 1

/-- Bytes of a unit. -/
def TUnit.bytes : TUnit → Nat
  | .u8 _ => 1
  | .u16 _ => 2

/-- `FILL_w` of R191. -/
def filler (wide : Bool) : TUnit := if wide then .u16 Config.fill16 else .u8 Config.fill8

/-- A drawn unit cut to its width (R69). -/
def cutUnit (wide : Bool) (v : BitVec 16) : TUnit := if wide then .u16 v else .u8 (v.extractLsb' 0 8)

/-- The unit of `unitSize wide` bytes at an address (R62). -/
def readUnit (wide : Bool) (m : List Host.Cell) (a : Nat) : TUnit :=
  if wide then .u16 (Memory.read2 m a) else .u8 (Memory.read m a)

/-- Store a unit at an address (R63). -/
def writeUnit (m : List Host.Cell) (a : Nat) : TUnit → List Host.Cell
  | .u8 v => Memory.write m a v
  | .u16 v => Memory.write2 m a v

/-- The address of unit `I` of a buffer, in unbounded integers (R9, R195). -/
def unitAddr (wide : Bool) (buffer i : Word) : Nat := buffer.toNat + unitSize wide * i.toNat

/-! ### Buffer checks -/

/-- `[a, a+len)` and the window `[BASE, BASE + 0x40)` are disjoint (R193, R223). -/
def clearOfWindow (p : Params) (a len : Nat) : Bool :=
  decide (a + len ≤ p.base ∨ p.base + Config.windowSize ≤ a)

/-- Check 2 of R193 for one buffer of `n >= 1` units. -/
def bufferLegal (p : Params) (wide : Bool) (a n : Nat) : Bool :=
  decide (a + unitSize wide * n ≤ Config.addressSpace)
    && (!wide || decide (a % 2 = 0))
    && clearOfWindow p a (unitSize wide * n)

/-- The operand checks of XFER8 and XFER16, in order (R193). -/
def xferFault (wide txv rxv : Bool) (s : State) : Option Fault :=
  if ctrlW16 s.ctrl != wide then some .misuseWidth
  else if s.opa2 = 0#32 then none
  else if txv && !bufferLegal s.params wide s.opa0.toNat s.opa2.toNat then some .misuseBuffer
  else if rxv && !bufferLegal s.params wide s.opa1.toNat s.opa2.toNat then some .misuseBuffer
  else none

/-- `DmaChecks`, in order (R223); `given` says that OPA0 holds a buffer. -/
def dmaFault (given : Bool) (s : State) : Option Fault :=
  if ctrlW16 s.ctrl then some .misuseDma
  else if s.opa2 = 0#32 then some .misuseDma
  else if given && !(decide (s.opa0.toNat + s.opa2.toNat ≤ Config.addressSpace)
      && clearOfWindow s.params s.opa0.toNat s.opa2.toNat) then some .misuseBuffer
  else none

/-! ### Dispatch -/

/-- What dispatch decides of a decoded command (R136). -/
inductive Verdict where
  /-- Operand out of range: the word is illegal (R136 step 2, R137). -/
  | illegal
  /-- The contract monitor or an operand check raises (R136 step 3). -/
  | fault (k : Fault)
  /-- The command is performed (R136 step 4). -/
  | go
  deriving DecidableEq, Repr

/-- The order of R253 below the lock: range, session, operands. -/
def verdictOf (inRange sessionOk : Bool) (operands : Option Fault) : Verdict :=
  if !inRange then .illegal
  else if !sessionOk then .fault .misuseOrder
  else match operands with
    | some k => .fault k
    | none => .go

/-- INIT is always allowed (R252). -/
def verdictInit : Verdict := verdictOf true true none

/-- CONFIGURE: range, session row, divisor (R136, R252, R156). -/
def verdictConfigure (csid : Csid) (s : State) : Verdict :=
  verdictOf (decide (csid.toNat < s.params.ncs))
    (s.inited && decide (s.session = .unconfigured ∨ s.session = .configured ∨ s.session = .deselected))
    (if divisorLegal s.params s.opa0 then none else some .misuseDivisor)

/-- SELECT: range and session row (R136, R252). -/
def verdictSelect (csid : Csid) (s : State) : Verdict :=
  verdictOf (decide (csid.toNat < s.params.ncs))
    (decide ((s.session = .configured ∨ s.session = .deselected) ∧ s.cfgId = some csid)) none

/-- DESELECT: range and session row (R136, R252). -/
def verdictDeselect (csid : Csid) (s : State) : Verdict :=
  verdictOf (decide (csid.toNat < s.params.ncs))
    (decide ((s.session = .selected ∨ s.session = .error) ∧ s.selId = some csid)) none

/-- XFER8 and XFER16: presence of XFER16, session row and operand checks (R99, R252, R193). -/
def verdictXfer (wide txv rxv : Bool) (s : State) : Verdict :=
  verdictOf (!wide || s.params.word16) (decide (s.session = .selected)) (xferFault wide txv rxv s)

/-- DMATX and DMARX: presence, channel range, session row, operand checks (R99, R136, R252, R223). -/
def verdictDma (given : Bool) (s : State) : Verdict :=
  verdictOf (s.params.dmaPresent && decide (s.opa1.toNat < s.params.ndma)) (decide (s.session = .selected)) (dmaFault given s)

/-- The dispatch decision for a decoded command; a host access is no command and has no check here. -/
def verdict (i : Instr) (s : State) : Verdict :=
  match i with
  | .init _ => verdictInit
  | .configure c _ _ => verdictConfigure c s
  | .select c => verdictSelect c s
  | .deselect c => verdictDeselect c s
  | .xfer8 t r => verdictXfer false t r s
  | .xfer16 t r => verdictXfer true t r s
  | .dmatx t => verdictDma t s
  | .dmarx => verdictDma true s
  | .acquire | .release _ | .wrCmd _ | .wrArg0 _ | .wrArg1 _ | .wrArg2 _ => .go
  | .wrRoResult _ | .wrRoDone _ | .wrRoStatus _ | .wrRoFill _ | .wrRoCtrl _ | .wrRoDiv _ | .wrRoCslines _ => .go
  | .wrRsvd30 _ | .wrRsvd34 _ | .wrRsvd38 _ | .wrRsvd3C _ => .go
  | .rdCmd | .rdArg0 | .rdArg1 | .rdArg2 | .rdResult | .rdDone | .rdStatus | .rdFill => .go
  | .rdCtrl | .rdDiv | .rdCslines | .rdbFill => .go
  | .rdRsvd30 | .rdRsvd34 | .rdRsvd38 | .rdRsvd3C => .go

/-- The start of a transfer: `DONE <- 0`, `I <- 0`, and the first wait's `P <- 0` (R195, R190; log 12, log 30). -/
def beginXfer (s : State) : State := { s with done := 0#32, i := 0#32, p := 0, phase := .pollTx }

/-- The start of DESELECT: its drain wait's `P <- 0` (R172, R190; log 12, log 30). -/
def beginDeselect (s : State) : State := { s with p := 0, phase := .pollDrain }

/-- PHASE set to the command's first micro-step; a one-step command has none and stays IDLE (R40, R41; log 12). -/
def begin (i : Instr) (s : State) : State :=
  match i with
  | .deselect _ => beginDeselect s
  | .xfer8 _ _ | .xfer16 _ _ => beginXfer s
  | .init _ | .configure _ _ _ | .select _ | .dmatx _ | .dmarx => s
  | .acquire | .release _ | .wrCmd _ | .wrArg0 _ | .wrArg1 _ | .wrArg2 _ => s
  | .wrRoResult _ | .wrRoDone _ | .wrRoStatus _ | .wrRoFill _ | .wrRoCtrl _ | .wrRoDiv _ | .wrRoCslines _ => s
  | .wrRsvd30 _ | .wrRsvd34 _ | .wrRsvd38 _ | .wrRsvd3C _ => s
  | .rdCmd | .rdArg0 | .rdArg1 | .rdArg2 | .rdResult | .rdDone | .rdStatus | .rdFill => s
  | .rdCtrl | .rdDiv | .rdCslines | .rdbFill => s
  | .rdRsvd30 | .rdRsvd34 | .rdRsvd38 | .rdRsvd3C => s

/-- Illegal command (R137). -/
def endIllegal (s : State) : State := finish resultIllegal s

/-- An outcome of the machine. -/
abbrev Out := Host.Outcome State Fault Refusal

/-- Perform `act` as dispatch decides (R136): ILLEGAL ends the command, a fault is raised, else the command is performed. -/
def guarded (v : Verdict) (s : State) (act : State → Out) : Out :=
  match v with
  | .illegal => .next (endIllegal s)
  | .fault k => .next (raise k s)
  | .go => act s

/-- `monitor_lock(c)` for the step's caller (R251), before `act`. -/
def owned (s : State) (act : State → Out) : Out :=
  if s.owner = some s.caller then act s else .next (raise .misuseLock s)

end Sys2Proof.Machine
end

