-- ==== Sys2Proof/Machine/Arbiter.lean ====
section
/-!
DEFINITION. The bus arbiter (40_arbiter.md): ACQUIRE and RELEASE.
-/

namespace Sys2Proof.Machine

/-- ACQUIRE (R120): test and set of the BusLock in one step; the read returns 1 or 0. -/
def execAcquire (s : State) : Out :=
  if s.lock then .next (reply (.word s.caller 0x00000000#32) s)
  else .next (reply (.word s.caller 0x00000001#32) { s with lock := true, owner := some s.caller })

/-- RELEASE (R123): unconditional; the value is ignored. -/
def execRelease (_v : Word) (s : State) : Out :=
  .next (reply (.written s.caller) { s with lock := false, owner := none })

end Sys2Proof.Machine
end

