-- ==== Sys2Proof/Machine/Dma.lean ====
section
/-!
DEFINITION. DMA arming (45_dma.md): DMATX and DMARX, one micro-step each (10_state.md R41).
-/

namespace Sys2Proof.Machine

/-- The end both arming commands share: RESULT, and the refusal mark as the command completes (R221, R222, R224). -/
def dmaArmed (s : State) : State := finish resultOk (markRefused .extDma s)

/-- DMATX (R221): a real source with incrementing addresses, or the FILL byte at a fixed address. -/
def execDmatx (txv : Bool) (s : State) : Out :=
  guarded (verdictDma txv s) s fun s =>
    if txv then
      .next (dmaArmed (arm s.opa1 s.params.hsTx .memToPer s.opa0 true s.params.tdrAddr false s.opa2 s))
    else
      .next (dmaArmed (arm s.opa1 s.params.hsTx .memToPer
        (BitVec.ofNat 32 (s.params.base + Config.fillOffset)) false s.params.tdrAddr false s.opa2 s))

/-- DMARX (R222). -/
def execDmarx (s : State) : Out :=
  guarded (verdictDma true s) s fun s =>
    .next (dmaArmed (arm s.opa1 s.params.hsRx .perToMem s.params.rdrAddr false s.opa0 true s.opa2 s))

end Sys2Proof.Machine
end

