-- ==== Sys2Proof/WellFormed.lean ====
section
/-!
DEFINITION. When an instruction is one that a block with given parameters has: its command is present (30_encoding.md R99)
and its identifier names a select line (R102). Field widths are carried by the types of the constructors.
-/

namespace Sys2Proof

/-- The command is present under the parameters (R99, "present when"). Host accesses always are (R92). -/
def Instr.present (p : Params) : Instr → Bool
  | .xfer16 _ _ => p.word16
  | .dmatx _ => p.dmaPresent
  | .dmarx => p.dmaPresent
  | .init _ | .configure _ _ _ | .select _ | .deselect _ | .xfer8 _ _ => true
  | .acquire | .release _ | .wrCmd _ | .wrArg0 _ | .wrArg1 _ | .wrArg2 _ => true
  | .wrRoResult _ | .wrRoDone _ | .wrRoStatus _ | .wrRoFill _ | .wrRoCtrl _ | .wrRoDiv _ | .wrRoCslines _ => true
  | .wrRsvd30 _ | .wrRsvd34 _ | .wrRsvd38 _ | .wrRsvd3C _ => true
  | .rdCmd | .rdArg0 | .rdArg1 | .rdArg2 | .rdResult | .rdDone | .rdStatus | .rdFill => true
  | .rdCtrl | .rdDiv | .rdCslines | .rdbFill => true
  | .rdRsvd30 | .rdRsvd34 | .rdRsvd38 | .rdRsvd3C => true

/-- The instruction's identifier field, where it has one, is in `0 .. NCS-1` (R102). -/
def Instr.csidInRange (p : Params) : Instr → Bool
  | .configure c _ _ => decide (c.toNat < p.ncs)
  | .select c => decide (c.toNat < p.ncs)
  | .deselect c => decide (c.toNat < p.ncs)
  | .init _ | .xfer8 _ _ | .xfer16 _ _ | .dmatx _ | .dmarx => true
  | .acquire | .release _ | .wrCmd _ | .wrArg0 _ | .wrArg1 _ | .wrArg2 _ => true
  | .wrRoResult _ | .wrRoDone _ | .wrRoStatus _ | .wrRoFill _ | .wrRoCtrl _ | .wrRoDiv _ | .wrRoCslines _ => true
  | .wrRsvd30 _ | .wrRsvd34 _ | .wrRsvd38 _ | .wrRsvd3C _ => true
  | .rdCmd | .rdArg0 | .rdArg1 | .rdArg2 | .rdResult | .rdDone | .rdStatus | .rdFill => true
  | .rdCtrl | .rdDiv | .rdCslines | .rdbFill => true
  | .rdRsvd30 | .rdRsvd34 | .rdRsvd38 | .rdRsvd3C => true

/-- Well-formed for a block with parameters `p`. -/
def Instr.wf (p : Params) (i : Instr) : Bool :=
  i.present p && i.csidInRange p

end Sys2Proof
end

