-- ==== Sys2Proof/Decode.lean ====
section
/-!
DEFINITION. Decoding and encoding (30_encoding.md): the access codes of host accesses (R91, R92) and command words
(R96 to R102). Decoding is total and rejects by name.
-/

namespace Sys2Proof

/-- Why bits spell no instruction. -/
inductive Reject where
  /-- An access code outside the table of R92. -/
  | noSuchAccess
  /-- A command word with a reserved OP (R101). -/
  | reservedOpcode
  /-- A command word with a non-zero bit outside its command's fields (R101). -/
  | reservedBits
  /-- The opcode of a command absent under the parameters (R101). -/
  | absentCommand
  deriving DecidableEq, Repr

/-- What a decoder answers. -/
inductive Decoded where
  | ok (i : Instr)
  | reject (r : Reject)
  deriving DecidableEq, Repr

/-- An instruction as bits: an 8-bit access code with the 32-bit value written (R91), or a 32-bit command word (R96). -/
inductive Encoded where
  | access (code : BitVec 8) (data : Word)
  | command (w : Word)
  deriving DecidableEq, Repr

/-- `OP` (R96). -/
def fieldOp (w : Word) : BitVec 4 := w.extractLsb' 0 4

/-- `MODE` (R96). -/
def fieldMode (w : Word) : BitVec 2 := w.extractLsb' 4 2

/-- `W16` (R96). -/
def fieldW16 (w : Word) : Bool := w.getLsbD 6

/-- `CSID` (R96). -/
def fieldCsid (w : Word) : Csid := w.extractLsb' 8 8

/-- `WBITS` (R96). -/
def fieldWbits (w : Word) : BitVec 8 := w.extractLsb' 16 8

/-- `TXV` (R96). -/
def fieldTxv (w : Word) : Bool := w.getLsbD 24

/-- `RXV` (R96). -/
def fieldRxv (w : Word) : Bool := w.getLsbD 25

/-- The commands of R99. -/
inductive Command where
  | init
  | configure
  | select
  | deselect
  | xfer8
  | xfer16
  | dmatx
  | dmarx
  deriving DecidableEq, Repr

/-- A row of R99's match and mask table. -/
structure CommandRow where
  command : Command
  mask : Word
  value : Word
  deriving DecidableEq, Repr

/-- The match and mask table of R99, in its order. -/
def commandRows : List CommandRow :=
  [⟨.init, 0xFF00FFFF#32, 0x00000001#32⟩,
   ⟨.configure, 0xFFFF008F#32, 0x00000002#32⟩,
   ⟨.select, 0xFFFF00FF#32, 0x00000003#32⟩,
   ⟨.deselect, 0xFFFF00FF#32, 0x00000004#32⟩,
   ⟨.xfer8, 0xFCFFFFFF#32, 0x00000005#32⟩,
   ⟨.xfer16, 0xFCFFFFFF#32, 0x00000006#32⟩,
   ⟨.dmatx, 0xFEFFFFFF#32, 0x00000007#32⟩,
   ⟨.dmarx, 0xFFFFFFFF#32, 0x00000008#32⟩]

/-- The word spells the row's command (R99). -/
def CommandRow.spells (r : CommandRow) (w : Word) : Bool := decide (w &&& r.mask = r.value)

/-- The instruction of a command, its fields taken from the word (R97, R102). -/
def Command.instr (w : Word) : Command → Instr
  | .init => .init (fieldWbits w)
  | .configure => .configure (fieldCsid w) (fieldMode w) (fieldW16 w)
  | .select => .select (fieldCsid w)
  | .deselect => .deselect (fieldCsid w)
  | .xfer8 => .xfer8 (fieldTxv w) (fieldRxv w)
  | .xfer16 => .xfer16 (fieldTxv w) (fieldRxv w)
  | .dmatx => .dmatx (fieldTxv w)
  | .dmarx => .dmarx

/-- Decoding a command word: the first row of R99 that the word spells, presence aside (R100, R102); a word on no row has a
reserved OP, or a defined one with bits outside the command's fields (R101). -/
def decodeCommand (w : Word) : Decoded :=
  match commandRows.find? fun r => r.spells w with
  | some r => .ok (r.command.instr w)
  | none =>
    if 1 ≤ (fieldOp w).toNat ∧ (fieldOp w).toNat ≤ 8 then .reject .reservedBits
    else .reject .reservedOpcode

/-- `decode(w)` of R100: only commands present under the parameters are found; every other word is RESERVED (R101). -/
def decodeCommandFor (p : Params) (w : Word) : Decoded :=
  match decodeCommand w with
  | .ok i => if i.present p then .ok i else .reject .absentCommand
  | .reject r => .reject r

/-- Decoding a host access from its access code and the value written (R91, R92). A read carries no data. -/
def decodeAccess (code : BitVec 8) (data : Word) : Decoded :=
  match code.toNat with
  | 0x6C => .ok .acquire
  | 0xEC => .ok (.release data)
  | 0xC0 => .ok (.wrCmd data)
  | 0xC4 => .ok (.wrArg0 data)
  | 0xC8 => .ok (.wrArg1 data)
  | 0xCC => .ok (.wrArg2 data)
  | 0xD0 => .ok (.wrRoResult data)
  | 0xD4 => .ok (.wrRoDone data)
  | 0xD8 => .ok (.wrRoStatus data)
  | 0xDC => .ok (.wrRoFill data)
  | 0xE0 => .ok (.wrRoCtrl data)
  | 0xE4 => .ok (.wrRoDiv data)
  | 0xE8 => .ok (.wrRoCslines data)
  | 0xF0 => .ok (.wrRsvd30 data)
  | 0xF4 => .ok (.wrRsvd34 data)
  | 0xF8 => .ok (.wrRsvd38 data)
  | 0xFC => .ok (.wrRsvd3C data)
  | 0x40 => .ok .rdCmd
  | 0x44 => .ok .rdArg0
  | 0x48 => .ok .rdArg1
  | 0x4C => .ok .rdArg2
  | 0x50 => .ok .rdResult
  | 0x54 => .ok .rdDone
  | 0x58 => .ok .rdStatus
  | 0x5C => .ok .rdFill
  | 0x1C => .ok .rdbFill
  | 0x60 => .ok .rdCtrl
  | 0x64 => .ok .rdDiv
  | 0x68 => .ok .rdCslines
  | 0x70 => .ok .rdRsvd30
  | 0x74 => .ok .rdRsvd34
  | 0x78 => .ok .rdRsvd38
  | 0x7C => .ok .rdRsvd3C
  | _ => .reject .noSuchAccess

/-- Decoding either form of bits under the parameters. -/
def decode (p : Params) : Encoded → Decoded
  | .access code data => decodeAccess code data
  | .command w => decodeCommandFor p w

/-- Decoding either form with every option present, as spec/opcode_table.json lists the rows. -/
def decodeForm : Encoded → Decoded
  | .access code data => decodeAccess code data
  | .command w => decodeCommand w

/-- A command word assembled from its fields (R96), most significant first. -/
def assemble (op : BitVec 4) (mode : BitVec 2) (w16 : Bool) (csid wbits : BitVec 8) (txv rxv : Bool) : Word :=
  0#6 ++ BitVec.ofBool rxv ++ BitVec.ofBool txv ++ wbits ++ csid ++ 0#1 ++ BitVec.ofBool w16 ++ mode ++ op

/-- The bits of an instruction: R97 for command words, R92 for host accesses. -/
def encode : Instr → Encoded
  | .init wb => .command (assemble 1#4 0#2 false 0#8 wb false false)
  | .configure c m x => .command (assemble 2#4 m x c 0#8 false false)
  | .select c => .command (assemble 3#4 0#2 false c 0#8 false false)
  | .deselect c => .command (assemble 4#4 0#2 false c 0#8 false false)
  | .xfer8 t r => .command (assemble 5#4 0#2 false 0#8 0#8 t r)
  | .xfer16 t r => .command (assemble 6#4 0#2 false 0#8 0#8 t r)
  | .dmatx t => .command (assemble 7#4 0#2 false 0#8 0#8 t false)
  | .dmarx => .command (assemble 8#4 0#2 false 0#8 0#8 false false)
  | .acquire => .access 0x6C#8 0#32
  | .release v => .access 0xEC#8 v
  | .wrCmd w => .access 0xC0#8 w
  | .wrArg0 v => .access 0xC4#8 v
  | .wrArg1 v => .access 0xC8#8 v
  | .wrArg2 v => .access 0xCC#8 v
  | .wrRoResult v => .access 0xD0#8 v
  | .wrRoDone v => .access 0xD4#8 v
  | .wrRoStatus v => .access 0xD8#8 v
  | .wrRoFill v => .access 0xDC#8 v
  | .wrRoCtrl v => .access 0xE0#8 v
  | .wrRoDiv v => .access 0xE4#8 v
  | .wrRoCslines v => .access 0xE8#8 v
  | .wrRsvd30 v => .access 0xF0#8 v
  | .wrRsvd34 v => .access 0xF4#8 v
  | .wrRsvd38 v => .access 0xF8#8 v
  | .wrRsvd3C v => .access 0xFC#8 v
  | .rdCmd => .access 0x40#8 0#32
  | .rdArg0 => .access 0x44#8 0#32
  | .rdArg1 => .access 0x48#8 0#32
  | .rdArg2 => .access 0x4C#8 0#32
  | .rdResult => .access 0x50#8 0#32
  | .rdDone => .access 0x54#8 0#32
  | .rdStatus => .access 0x58#8 0#32
  | .rdFill => .access 0x5C#8 0#32
  | .rdCtrl => .access 0x60#8 0#32
  | .rdDiv => .access 0x64#8 0#32
  | .rdCslines => .access 0x68#8 0#32
  | .rdbFill => .access 0x1C#8 0#32
  | .rdRsvd30 => .access 0x70#8 0#32
  | .rdRsvd34 => .access 0x74#8 0#32
  | .rdRsvd38 => .access 0x78#8 0#32
  | .rdRsvd3C => .access 0x7C#8 0#32

/-- Bits numbered as spec/opcode_table.json numbers them: a row of more than 8 bits is a command word; a row of 8 bits is
an access code, and the bits above it are the value written. -/
def tableForm (nbits w : Nat) : Encoded :=
  if nbits ≤ 8 then .access (BitVec.ofNat 8 w) (BitVec.ofNat 32 (w / 2 ^ 8))
  else .command (BitVec.ofNat 32 w)

/-- The instruction this decoder reads from a row's bits. -/
def decodeTableWord (nbits w : Nat) : Option Instr :=
  match decodeForm (tableForm nbits w) with
  | .ok i => some i
  | .reject _ => none

end Sys2Proof
end

