-- ==== Sys2Proof/Machine/Port.lean ====
section
/-!
DEFINITION. Host accesses and the command port (41_command_port.md R133 to R148).
-/

namespace Sys2Proof.Machine

/-! ### Writes -/

/-- A completed write of the step's caller that changes nothing (R134). -/
def ignoredWrite (s : State) : Out := .next (reply (.written s.caller) s)

/-- WR_ARG0 (R133). -/
def execWrArg0 (v : Word) (s : State) : Out :=
  owned s fun s => .next (reply (.written s.caller) { s with arg0 := v })

/-- WR_ARG1 (R133). -/
def execWrArg1 (v : Word) (s : State) : Out :=
  owned s fun s => .next (reply (.written s.caller) { s with arg1 := v })

/-- WR_ARG2 (R133). -/
def execWrArg2 (v : Word) (s : State) : Out :=
  owned s fun s => .next (reply (.written s.caller) { s with arg2 := v })

/-- The latches of an accepted CMD write (R135). -/
def acceptCommand (w : Word) (s : State) : State :=
  { s with
    cmd := w
    opw := w
    opa0 := s.arg0
    opa1 := s.arg1
    opa2 := s.arg2
    issuer := s.caller
    busy := true }

/-- WR_CMD (R135, R136): acceptance and dispatch in one step. An illegal word stays latched and its one micro-step ends it
(R137, R303); a raised fault performs nothing of the access (R247; log 11). The write completes when the command ends. -/
def execWrCmd (w : Word) (s : State) : Out :=
  owned s fun s =>
    let t := acceptCommand w s
    match decodeCommandFor t.params t.opw with
    | .reject _ => .next t
    | .ok i =>
      match verdict i t with
      | .illegal => .next t
      | .fault k => .next (raise k s)
      | .go => .next (begin i t)

/-- WR_RO on RESULT (R134). -/
def execWrRoResult (_v : Word) (s : State) : Out := ignoredWrite s

/-- WR_RO on DONE (R134). -/
def execWrRoDone (_v : Word) (s : State) : Out := ignoredWrite s

/-- WR_RO on STATUS (R134). -/
def execWrRoStatus (_v : Word) (s : State) : Out := ignoredWrite s

/-- WR_RO on FILL (R134). -/
def execWrRoFill (_v : Word) (s : State) : Out := ignoredWrite s

/-- WR_RO on CTRL (R134). -/
def execWrRoCtrl (_v : Word) (s : State) : Out := ignoredWrite s

/-- WR_RO on DIV (R134). -/
def execWrRoDiv (_v : Word) (s : State) : Out := ignoredWrite s

/-- WR_RO on CSLINES (R134). -/
def execWrRoCslines (_v : Word) (s : State) : Out := ignoredWrite s

/-- WR_RSVD at 0x30 (R134). -/
def execWrRsvd30 (_v : Word) (s : State) : Out := ignoredWrite s

/-- WR_RSVD at 0x34 (R134). -/
def execWrRsvd34 (_v : Word) (s : State) : Out := ignoredWrite s

/-- WR_RSVD at 0x38 (R134). -/
def execWrRsvd38 (_v : Word) (s : State) : Out := ignoredWrite s

/-- WR_RSVD at 0x3C (R134). -/
def execWrRsvd3C (_v : Word) (s : State) : Out := ignoredWrite s

/-! ### Reads -/

/-- A completed 32-bit read of the step's caller. -/
def answered (v : Word) (s : State) : Out := .next (reply (.word s.caller v) s)

/-- RD_CMD (R139). -/
def execRdCmd (s : State) : Out := answered s.cmd s

/-- RD_ARG0 (R140). -/
def execRdArg0 (s : State) : Out := answered s.arg0 s

/-- RD_ARG1 (R140). -/
def execRdArg1 (s : State) : Out := answered s.arg1 s

/-- RD_ARG2 (R140). -/
def execRdArg2 (s : State) : Out := answered s.arg2 s

/-- RD_RESULT (R141). -/
def execRdResult (s : State) : Out := answered s.result s

/-- RD_DONE (R142). -/
def execRdDone (s : State) : Out := answered s.done s

/-- RD_STATUS (R143): does not acquire. -/
def execRdStatus (s : State) : Out := answered (statusView s) s

/-- RD_FILL (R144). -/
def execRdFill (s : State) : Out := answered Config.fillWord s

/-- RD_CTRL (R145). -/
def execRdCtrl (s : State) : Out := answered s.ctrl s

/-- RD_DIV (R146). -/
def execRdDiv (s : State) : Out := answered s.div s

/-- RD_CSLINES (R147). -/
def execRdCslines (s : State) : Out := answered s.cslines s

/-- RDB_FILL (R144, R64): the 8-bit read sees bits 7..0. -/
def execRdbFill (s : State) : Out := .next (reply (.byte s.caller (Config.fillWord.extractLsb' 0 8)) s)

/-- RD_RSVD at 0x30 (R148). -/
def execRdRsvd30 (s : State) : Out := answered 0x00000000#32 s

/-- RD_RSVD at 0x34 (R148). -/
def execRdRsvd34 (s : State) : Out := answered 0x00000000#32 s

/-- RD_RSVD at 0x38 (R148). -/
def execRdRsvd38 (s : State) : Out := answered 0x00000000#32 s

/-- RD_RSVD at 0x3C (R148). -/
def execRdRsvd3C (s : State) : Out := answered 0x00000000#32 s

end Sys2Proof.Machine
end

