-- ==== Sys2Proof/Machine/Setup.lean ====
section
/-!
DEFINITION. Initialisation and device setup (42_setup.md): INIT and CONFIGURE, one micro-step each (10_state.md R41).
-/

namespace Sys2Proof.Machine

/-- The work of the first INIT (R151): platform and controller reset, the neutral settings, the first-call flag. -/
def firstInit (s : State) : State :=
  let s := record .resetAll (record .platformInit s)
  let s := phyApply { s with ctrl := ctrlInit s.ctrl }
  { s with inited := true }

/-- INIT (R151): the first-call work once, the width mapping on every call. -/
def execInit (wbits : BitVec 8) (s : State) : Out :=
  guarded verdictInit s fun s =>
    .next (finish (resultInit (decide (mapWidth wbits = 16))) (if s.inited then s else firstInit s))

/-- CONFIGURE (R156). -/
def execConfigure (csid : Csid) (mode : BitVec 2) (w16 : Bool) (s : State) : Out :=
  guarded (verdictConfigure csid s) s fun s =>
    let s := record .resetTxrx s
    let s := { s with
      ctrl := ctrlConfigure s.ctrl mode w16
      div := BitVec.ofNat 32 (divisor s.params s.opa0) }
    let s := phyApply s
    .next (finish resultOk { s with session := .configured, cfgId := some csid })

end Sys2Proof.Machine
end

