-- ==== Sys2Proof/Machine/ChipSelect.lean ====
section
/-!
DEFINITION. The polled wait (44_transfer.md R190) and the chip-select sequencer (43_chip_select.md): SELECT and DESELECT.
-/

namespace Sys2Proof.Machine

/-- What one poll of a wait decides (R190). -/
inductive PollResult where
  /-- The condition was observed: the wait succeeds. -/
  | ready
  /-- `P = TLIMIT` polls without it: the wait fails. -/
  | exhausted
  /-- The wait goes on. -/
  | again
  deriving DecidableEq, Repr

/-- One poll's effect: the sample is taken and recorded, and `P <- P + 1` (R70, R190). -/
def pollEffect (c : Cond) (s : State) : State :=
  let b := nextSample s
  let s := record (.poll c b) (dropSample s)
  { s with p := s.p + 1 }

/-- One poll's decision (R190). -/
def pollResult (s : State) : PollResult :=
  if nextSample s then .ready
  else if s.p + 1 = s.params.tlimit then .exhausted
  else .again

/-- The identifier is served by the controller's pattern: decoder scheme, direct range (R170). -/
def usesPattern (p : Params) (csid : Csid) : Bool :=
  decide (p.csScheme = .decoder ∧ csid.toNat < p.ndirect)

/-- Assert the device's select (R170). -/
def assertSelect (csid : Csid) (s : State) : State :=
  if usesPattern s.params csid then phyApply { s with ctrl := setPcs s.ctrl (pcsPattern csid) }
  else driveCS csid.toNat false s

/-- SELECT (R170): one micro-step. -/
def execSelect (csid : Csid) (s : State) : Out :=
  guarded (verdictSelect csid s) s fun s =>
    .next (finish resultOk { assertSelect csid s with session := .selected, selId := some csid })

/-- The decoder-scheme actions of FINISH_DESELECT (R172). -/
def releasePattern (s : State) : State :=
  if s.params.csScheme = .decoder then
    let s := record .lastXfer s
    phyApply { s with ctrl := setPcs s.ctrl Config.pcsNone }
  else s

/-- FINISH_DESELECT (R172, R174): every deassertion, whatever the drain answered. -/
def finishDeselect (csid : Csid) (s : State) : State :=
  let s := driveCS csid.toNat true (releasePattern s)
  finish (if s.drained then resultOk else resultTimeout 3#2) { s with session := .deselected, selId := none }

/-- One POLL_DRAIN step (R172). -/
def pollDrainStep (s : State) : State :=
  match pollResult s with
  | .ready => { pollEffect .txEmpty s with drained := true, phase := .finishDeselect }
  | .exhausted => { pollEffect .txEmpty s with drained := false, phase := .finishDeselect }
  | .again => pollEffect .txEmpty s

/-- DESELECT (R172): dispatch from IDLE, then the micro-step that PHASE names. -/
def execDeselect (csid : Csid) (s : State) : Out :=
  match s.phase with
  | .idle => guarded (verdictDeselect csid s) s fun s => .next (beginDeselect s)
  | .pollDrain => .next (pollDrainStep s)
  | .finishDeselect => .next (finishDeselect csid s)
  | .pollTx => .fault .foreignPhase
  | .emit => .fault .foreignPhase
  | .pollRx => .fault .foreignPhase
  | .recv => .fault .foreignPhase

end Sys2Proof.Machine
end

