-- ==== Sys2Proof/Machine/Transfer.lean ====
section
/-!
DEFINITION. Synchronous word transfer (44_transfer.md): XFER8 and XFER16 over the shared loop `XferCore` (R195), one
micro-step a step (10_state.md R41).
-/

namespace Sys2Proof.Machine

/-- A transfer's end on a timeout (R195): RESULT, SESSION, end of command. -/
def xferTimeout (tphase : BitVec 2) (s : State) : State :=
  finish (resultTimeout tphase) { s with session := .error }

/-- The loop head and one POLL_TX step (R195): the final step once `I = n` (log 13). -/
def xferPollTx (s : State) : State :=
  if s.i.toNat < s.opa2.toNat then
    match pollResult s with
    | .ready => { pollEffect .txRdy s with phase := .emit }
    | .exhausted => xferTimeout 1#2 (pollEffect .txRdy s)
    | .again => pollEffect .txRdy s
  else finish resultOk s

/-- `PhyWrite(v, I + 1 = n)`, then the receive wait begins (R195, R68); its `P <- 0` (R190) is made in this step
(DESIGN CHOICE, log 30). -/
def emitUnit (v : TUnit) (s : State) : State :=
  let s := record (.tx v (decide (s.i.toNat + 1 = s.opa2.toNat))) s
  { s with phase := .pollRx, p := 0 }

/-- The EMIT step (R195): the transmit unit from memory, or the filler. -/
def xferEmit (wide txv : Bool) (s : State) : State :=
  if txv then
    if admits s.params (unitAddr wide s.opa0 s.i) (unitSize wide) .read then
      emitUnit (readUnit wide s.mem (unitAddr wide s.opa0 s.i)) s
    else raise .busErr s
  else emitUnit (filler wide) s

/-- One POLL_RX step (R195). -/
def xferPollRx (s : State) : State :=
  match pollResult s with
  | .ready => { pollEffect .rxRdy s with phase := .recv }
  | .exhausted => xferTimeout 2#2 (pollEffect .rxRdy s)
  | .again => pollEffect .rxRdy s

/-- `I <- I + 1; DONE <- I`, then the loop head (R195). The next wait's `P <- 0` (R190) is made in this step, also after the
last unit, where no wait follows and R42 leaves `P` open (DESIGN CHOICE, log 30). -/
def nextUnitIndex (s : State) : State :=
  { s with i := s.i + 1#32, done := s.i + 1#32, phase := .pollTx, p := 0 }

/-- `PhyRead()` (R69): the unit is taken and recorded. -/
def phyRead (wide : Bool) (s : State) : State :=
  record (.rx (cutUnit wide (nextUnit s))) (dropUnit s)

/-- The RECV step (R195): the received unit is stored, or discarded. A refused store raises after the read (R10; log 15). -/
def xferRecv (wide rxv : Bool) (s : State) : State :=
  let v := cutUnit wide (nextUnit s)
  let s := phyRead wide s
  if rxv then
    if admits s.params (unitAddr wide s.opa1 s.i) (unitSize wide) .write then
      nextUnitIndex { s with mem := writeUnit s.mem (unitAddr wide s.opa1 s.i) v }
    else raise .busErr s
  else nextUnitIndex s

/-- `XferCore` (R195): dispatch from IDLE, then the micro-step that PHASE names. -/
def xferStep (wide txv rxv : Bool) (s : State) : Out :=
  match s.phase with
  | .idle => guarded (verdictXfer wide txv rxv s) s fun s => .next (beginXfer s)
  | .pollTx => .next (xferPollTx s)
  | .emit => .next (xferEmit wide txv s)
  | .pollRx => .next (xferPollRx s)
  | .recv => .next (xferRecv wide rxv s)
  | .pollDrain => .fault .foreignPhase
  | .finishDeselect => .fault .foreignPhase

/-- XFER8 (R192). -/
def execXfer8 (txv rxv : Bool) (s : State) : Out := xferStep false txv rxv s

/-- XFER16 (R194). -/
def execXfer16 (txv rxv : Bool) (s : State) : Out := xferStep true txv rxv s

end Sys2Proof.Machine
end

