-- ==== Sys2Proof/Machine/Dispatch.lean ====
section
/-!
DEFINITION. One arm per instruction. A command's arm is performed for the word in OPW, one micro-step a call; a host access's
arm is performed for the caller of the step.
-/

namespace Sys2Proof.Machine

def exec (i : Instr) (s : State) : Host.Outcome State Fault Refusal :=
  match i with
  | .init b => Sys2Proof.Machine.execInit b s
  | .configure c m x => Sys2Proof.Machine.execConfigure c m x s
  | .select c => Sys2Proof.Machine.execSelect c s
  | .deselect c => Sys2Proof.Machine.execDeselect c s
  | .xfer8 t r => Sys2Proof.Machine.execXfer8 t r s
  | .xfer16 t r => Sys2Proof.Machine.execXfer16 t r s
  | .dmatx t => Sys2Proof.Machine.execDmatx t s
  | .dmarx => Sys2Proof.Machine.execDmarx s
  | .acquire => Sys2Proof.Machine.execAcquire s
  | .release v => Sys2Proof.Machine.execRelease v s
  | .wrCmd w => Sys2Proof.Machine.execWrCmd w s
  | .wrArg0 v => Sys2Proof.Machine.execWrArg0 v s
  | .wrArg1 v => Sys2Proof.Machine.execWrArg1 v s
  | .wrArg2 v => Sys2Proof.Machine.execWrArg2 v s
  | .wrRoResult v => Sys2Proof.Machine.execWrRoResult v s
  | .wrRoDone v => Sys2Proof.Machine.execWrRoDone v s
  | .wrRoStatus v => Sys2Proof.Machine.execWrRoStatus v s
  | .wrRoFill v => Sys2Proof.Machine.execWrRoFill v s
  | .wrRoCtrl v => Sys2Proof.Machine.execWrRoCtrl v s
  | .wrRoDiv v => Sys2Proof.Machine.execWrRoDiv v s
  | .wrRoCslines v => Sys2Proof.Machine.execWrRoCslines v s
  | .wrRsvd30 v => Sys2Proof.Machine.execWrRsvd30 v s
  | .wrRsvd34 v => Sys2Proof.Machine.execWrRsvd34 v s
  | .wrRsvd38 v => Sys2Proof.Machine.execWrRsvd38 v s
  | .wrRsvd3C v => Sys2Proof.Machine.execWrRsvd3C v s
  | .rdCmd => Sys2Proof.Machine.execRdCmd s
  | .rdArg0 => Sys2Proof.Machine.execRdArg0 s
  | .rdArg1 => Sys2Proof.Machine.execRdArg1 s
  | .rdArg2 => Sys2Proof.Machine.execRdArg2 s
  | .rdResult => Sys2Proof.Machine.execRdResult s
  | .rdDone => Sys2Proof.Machine.execRdDone s
  | .rdStatus => Sys2Proof.Machine.execRdStatus s
  | .rdFill => Sys2Proof.Machine.execRdFill s
  | .rdCtrl => Sys2Proof.Machine.execRdCtrl s
  | .rdDiv => Sys2Proof.Machine.execRdDiv s
  | .rdCslines => Sys2Proof.Machine.execRdCslines s
  | .rdbFill => Sys2Proof.Machine.execRdbFill s
  | .rdRsvd30 => Sys2Proof.Machine.execRdRsvd30 s
  | .rdRsvd34 => Sys2Proof.Machine.execRdRsvd34 s
  | .rdRsvd38 => Sys2Proof.Machine.execRdRsvd38 s
  | .rdRsvd3C => Sys2Proof.Machine.execRdRsvd3C s

end Sys2Proof.Machine
end

