-- ==== Sys2Proof/Machine/Fetch.lean ====
section
/-!
DEFINITION. How the next move comes about: the fault mark (60_exceptions.md R247), the schedule of agents (20_memory.md R77),
the form of a bus access (30_encoding.md R91, 41_command_port.md R130), the hold while busy (R132), the block's next
micro-step from OPW (10_state.md R40), and callers' own host-memory accesses (R132).
-/

namespace Sys2Proof.Machine

/-! ### Bus accesses -/

/-- Bytes a bus access touches, from its address on: its width rounded up to whole bytes, and at least the addressed one
(DESIGN CHOICE, log 31). Safe. -/
def BusAccess.bytes (a : BusAccess) : Nat := max 1 ((a.width + 7) / 8)

/-- The access is of those bytes and of no part of one. -/
def BusAccess.wholeBytes (a : BusAccess) : Bool := decide (a.width = 8 * a.bytes)

/-- The 32-bit value a window access writes (R91). -/
def BusAccess.word (a : BusAccess) : Word := BitVec.ofNat 32 a.data

/-- The access touches a byte of the window (R20; log 18). -/
def touchesWindow (p : Params) (a : BusAccess) : Bool :=
  decide (p.base < a.addr + a.bytes ∧ a.addr < p.base + Config.windowSize)

/-- The access code of a window access: bit 7 write, bit 6 32-bit, bits 5..0 offset (R91); accesses of any other width and
accesses that begin below the window have none (R92; log 18). -/
def accessCode (p : Params) (a : BusAccess) : Option (BitVec 8) :=
  if p.base ≤ a.addr ∧ a.addr < p.base + Config.windowSize then
    if a.width = 8 then some (BitVec.ofBool a.write ++ 0#1 ++ BitVec.ofNat 6 (a.addr - p.base))
    else if a.width = 32 then some (BitVec.ofBool a.write ++ 1#1 ++ BitVec.ofNat 6 (a.addr - p.base))
    else none
  else none

/-- The host access a window access spells, if any (R92). -/
def accessInstr (p : Params) (a : BusAccess) : Option Instr :=
  match accessCode p a with
  | none => none
  | some code =>
    match decodeAccess code a.word with
    | .ok i => some i
    | .reject _ => none

/-! ### What comes next -/

/-- The schedule moves on to `rest`. -/
def advance (rest : List Turn) (s : State) : State := { s with turns := rest }

/-- The schedule moves on to `rest` as a caller performs its access (R131). -/
def arrive (rest : List Turn) (c : Caller) (s : State) : State := { s with turns := rest, caller := c }

/-- Host memory replaced. -/
def putMem (m : List Host.Cell) (s : State) : State := { s with mem := m }

/-- What a step does next. -/
inductive Fetched where
  /-- Run an instruction. -/
  | run (i : Instr) (s : State)
  /-- Only the state changes. -/
  | moved (s : State)
  /-- The run has ended in a fault (R247). -/
  | stop (k : Fault)
  /-- The access has no meaning in the spec. -/
  | refuse (r : Refusal)
  deriving DecidableEq, Repr

/-- The block's next micro-step: the command that OPW spells, or an illegal word's end (R40, R136, R137). -/
def blockMove (s : State) : Fetched :=
  match decodeCommandFor s.params s.opw with
  | .ok i => .run i s
  | .reject _ => .moved (endIllegal s)

/-- The block moves if a command runs; otherwise it has no step (R132, R283). -/
def blockTurn (s : State) : Fetched := if s.busy then blockMove s else .moved s

/-- A caller's own host-memory access, of any whole number of bytes, in one instant (R60, R77, R132; log 19). -/
def callerMemory (a : BusAccess) (s : State) : Fetched :=
  if !a.wholeBytes then .refuse .notWholeBytes
  else if admits s.params a.addr a.bytes (if a.write then .write else .read) then
    if a.write then
      .moved (reply (.written a.caller) (putMem (Memory.writeBytes s.mem a.addr a.bytes a.data) s))
    else .moved (reply (.loaded a.caller (Memory.readBytes s.mem a.addr a.bytes)) s)
  else .refuse .outsideMemory

/-- A context's bus access at the head of the schedule; `rest` is the schedule after it. Only callers have steps (R6; log 6).
The issuer of a running command has no step (R132); a form outside R92 is decided before the hold (R253; log 17); a held
access stays and the block moves. -/
def busTurn (a : BusAccess) (rest : List Turn) (s : State) : Fetched :=
  if !decide (a.caller ∈ s.params.callers) then .refuse .noSuchCaller
  else if s.busy && decide (a.caller = s.issuer) then blockMove s
  else if touchesWindow s.params a then
    match accessInstr s.params a with
    | none => .moved (raise .badAccess (arrive rest a.caller s))
    | some i => if s.busy then blockMove s else .run i (arrive rest a.caller s)
  else callerMemory a (arrive rest a.caller s)

/-- The next move. With no turn listed the block goes on with its command, or nothing happens (log 7). -/
def fetch (s : State) : Fetched :=
  match s.faultMark with
  | some k => .stop k
  | none =>
    match s.turns with
    | [] => blockTurn s
    | .block :: rest => blockTurn (advance rest s)
    | .bus a :: rest => busTurn a rest s

/-! ### Placing an instruction -/

/-- The bus access that an access code names, by the state's own caller (R91). -/
def codeAccess (s : State) (code : BitVec 8) (data : Word) : BusAccess where
  caller := s.caller
  write := code.getLsbD 7
  width := if code.getLsbD 6 then 32 else 8
  addr := s.params.base + (code.extractLsb' 0 6).toNat
  data := data.toNat

/-- The state whose next step runs the given bits: a command word latched in OPW with the block busy and PHASE IDLE, or a
host access at the head of the schedule (log 7, log 27). -/
def placeNext (s : State) : Encoded → State
  | .command w => { s with faultMark := none, turns := .block :: s.turns, busy := true, phase := .idle, opw := w }
  | .access code data =>
    { s with faultMark := none, turns := .bus (codeAccess s code data) :: s.turns, busy := false, phase := .idle }

end Sys2Proof.Machine
end

