-- ==== Sys2Proof/Machine/Step.lean ====
section
/-!
DEFINITION. One step of the machine: the next move of the schedule, performed.
-/

namespace Sys2Proof.Machine

/-- One atomic step of one agent (10_state.md R41, 20_memory.md R77). -/
def step (s : State) : Host.Outcome State Fault Refusal :=
  match fetch s with
  | .run i t => exec i t
  | .moved t => .next t
  | .stop k => .fault k
  | .refuse r => .refused r

/-- `s` with the instruction whose table bits are `w` as the next step's (log 27). -/
def State.withFetchWord (s : State) (nbits w : Nat) : State := placeNext s (tableForm nbits w)

end Sys2Proof.Machine
end

