-- ==== Sys2Proof/Safety.lean ====
section
/-!
DEFINITION. What claims are stated in terms of: runs that a claim may be about (60_exceptions.md R248, R249), the invariant of
the machine, what the hardware has apart from the model-only state (R250), and the environment laws of 20_memory.md R76.
-/

namespace Sys2Proof.Machine

/-! ### Runs a claim may be about -/

/-- Neither mark is set: no fault ended the run (R247) and no DMA transfer was armed in it so far (R249). -/
def claimable (s : State) : Bool := decide (s.faultMark = none ∧ s.refusedMark = none)

/-- A run may end here with something claimed of it: no command runs (R138) and neither mark is set. "A state carrying the mark
is never final" (R249); the marks are never cleared, so a run that armed a DMA transfer or raised a fault at any point
reaches no final state from there on. Claims about how a run ends are made of its final states. -/
def final (s : State) : Bool := decide (s.busy = false) && claimable s

/-! ### The invariant -/

/-- The command of a transfer of a given width. -/
def xferInstr (wide txv rxv : Bool) : Instr := if wide then .xfer16 txv rxv else .xfer8 txv rxv

/-- A transfer is running: OPW spells it, its checks hold (R193, R252), and `DONE = I` (R24, R195). -/
def XferRunning (s : State) : Prop :=
  ∃ wide txv rxv, decodeCommandFor s.params s.opw = .ok (xferInstr wide txv rxv)
    ∧ xferFault wide txv rxv s = none ∧ s.session = .selected ∧ s.done = s.i

/-- A deselect is running: OPW spells it and its checks hold (R172, R252). -/
def DeselectRunning (s : State) : Prop :=
  ∃ id, decodeCommandFor s.params s.opw = .ok (.deselect id)
    ∧ (s.session = .selected ∨ s.session = .error) ∧ s.selId = some id

/-- What PHASE says of the running command (R40 to R42). -/
def PhaseOk (s : State) : Prop :=
  match s.phase with
  | .idle => True
  | .pollTx => XferRunning s ∧ s.i.toNat ≤ s.opa2.toNat ∧ s.p < s.params.tlimit
  | .emit => XferRunning s ∧ s.i.toNat < s.opa2.toNat
  | .pollRx => XferRunning s ∧ s.i.toNat < s.opa2.toNat ∧ s.p < s.params.tlimit
  | .recv => XferRunning s ∧ s.i.toNat < s.opa2.toNat
  | .pollDrain => DeselectRunning s ∧ s.p < s.params.tlimit
  | .finishDeselect => DeselectRunning s ∧ s.trace.getLast? = some (.poll .txEmpty s.drained)

/-- The chip-select pattern that goes with the selected device: its pattern on the decoder scheme in the direct range, else
`PCS_NONE` (R28, R170, R172). -/
def pcsOf (p : Params) (selId : Option Csid) : BitVec 8 :=
  match selId with
  | some id => if usesPattern p id then pcsPattern id else Config.pcsNone
  | none => Config.pcsNone

/-- Line `n` is the selected device's dedicated line (R170). -/
def lineAsserted (p : Params) (selId : Option Csid) (n : Nat) : Bool :=
  match selId with
  | some id => decide (id.toNat = n) && !usesPattern p id
  | none => false

/-- The invariant that every step keeps. -/
structure Invariant (s : State) : Prop where
  /-- The parameters are in the ranges of R7. -/
  params : s.params.wf = true
  /-- Host memory is in canonical form. -/
  mem : Memory.wf s.mem = true
  /-- Host memory lies in the 32-bit address space (R60). -/
  memBound : ∀ c ∈ s.mem, c.1 < Config.addressSpace
  /-- `OWNER = none` if and only if `LOCK = 0` (R35). -/
  owner : s.owner = none ↔ s.lock = false
  /-- The owner is a caller (R6, R35). -/
  ownerCaller : ∀ c, s.owner = some c → c ∈ s.params.callers
  /-- The access of a step is a caller's (R6, R131). -/
  callerCaller : s.caller ∈ s.params.callers
  /-- A running command was issued by a caller (R6, R40). -/
  issuerCaller : s.busy = true → s.issuer ∈ s.params.callers
  /-- The reserved bits of CTRL and LLB read 0 (R27). -/
  ctrlReserved : s.ctrl &&& 0xFFFF0088#32 = 0#32
  /-- CTRL.PCS is the selected device's pattern (R27, R28). -/
  pcs : ctrlPcs s.ctrl = pcsOf s.params s.selId
  /-- A dedicated line is low exactly while its device is selected on it; bits from NCS on read 0 (R30). -/
  lines : ∀ n, s.cslines.getLsbD n = (decide (n < s.params.ncs) && !lineAsserted s.params s.selId n)
  /-- `DIV <= DIV_MAX` (R29). -/
  div : s.div.toNat ≤ s.params.divMax
  /-- RESULT holds a value of R241. -/
  result : s.result ∈ [0x000#32, 0x100#32, 0x11#32, 0x21#32, 0x31#32, 0x2#32]
  /-- No device was configured exactly in session UNCONFIGURED (R36, R37). -/
  unconfigured : s.cfgId = none ↔ s.session = .unconfigured
  /-- Once a device is configured: INIT has run, the controller is enabled, `1 <= DIV` (R29, R152, R252). -/
  configured : s.cfgId ≠ none → s.inited = true ∧ ctrlEnabled s.ctrl = true ∧ 1 ≤ s.div.toNat
  /-- A configured identifier is in range (R37). -/
  cfgRange : ∀ id, s.cfgId = some id → id.toNat < s.params.ncs
  /-- A device is selected exactly in sessions SELECTED and ERROR (R36, R38). -/
  selected : s.selId ≠ none ↔ (s.session = .selected ∨ s.session = .error)
  /-- The selected device is the configured one (R252). -/
  selCfg : s.selId ≠ none → s.selId = s.cfgId
  /-- `P` is in `0 .. TLIMIT` (R40). -/
  polls : s.p ≤ s.params.tlimit
  /-- PHASE is IDLE while no command runs (R40). -/
  idle : s.busy = false → s.phase = .idle
  /-- PHASE fits the running command. -/
  phase : PhaseOk s

/-! ### What the hardware has -/

/-- The state without the model-only registers of R35 to R39. -/
def hardware (s : State) : State :=
  { s with owner := none, session := .unconfigured, cfgId := none, selId := none, faultMark := none, refusedMark := none }

/-! ### Environment laws -/

/-- `NEVER(cond)` on a trace: every sample of the condition answered 0 (R76). -/
def neverReady (c : Cond) (tr : List Event) : Bool := !decide (Event.poll c true ∈ tr)

/-- `READY_WITHIN(k)` on a trace, after `n` failed polls of the current wait (R76). -/
def readyWithinFrom (k n : Nat) : List Event → Bool
  | [] => true
  | .poll _ false :: rest => decide (n + 1 < k) && readyWithinFrom k (n + 1) rest
  | _ :: rest => readyWithinFrom k 0 rest

/-- `READY_WITHIN(k)` on a trace (R76). -/
def readyWithin (k : Nat) (tr : List Event) : Bool := readyWithinFrom k 0 tr

/-- `LOOPBACK` on a trace, after a last `PhyWrite` of `last` (R76). -/
def loopbackFrom (last : Option TUnit) : List Event → Bool
  | [] => true
  | .tx v _ :: rest => loopbackFrom (some v) rest
  | .rx v :: rest => decide (last = some v) && loopbackFrom last rest
  | _ :: rest => loopbackFrom last rest

/-- `LOOPBACK` on a trace (R76). -/
def loopback (tr : List Event) : Bool := loopbackFrom none tr

end Sys2Proof.Machine
end

