-- ==== Sys2Proof/Certificates/Slice0/Obligations.lean ====
section
/-!
DEFINITION. The statements for the provers, from the numbered rules of spec/. Right-hand sides are written out from the rules
rather than with the model's own operations wherever a rule gives the value.
-/

open Sys2Proof Sys2Proof.Machine

namespace Sys2Proof.Claims

/-! ### Words of the statements -/

/-- A whole-state change that ends the running command with a result (R138): PHASE, BUSY, and the issuer's write completes.
That ISSUER stays is the model's choice (log 8), as the record of completed accesses is (log 16). -/
def ended (s : State) (result : Word) : State :=
  { s with result := result, phase := .idle, busy := false, replies := s.replies ++ [.written s.issuer] }

/-- The latches of an accepted CMD write (R135). -/
def latched (s : State) (w : Word) : State :=
  { s with cmd := w, opw := w, opa0 := s.arg0, opa1 := s.arg1, opa2 := s.arg2, issuer := s.caller, busy := true }

/-- One poll of a wait: its draw, its event and its count (R70, R190). -/
def polled (c : Cond) (s : State) : State :=
  { dropSample s with p := s.p + 1, trace := s.trace ++ [.poll c (nextSample s)] }

/-- A buffer of `len` bytes is inside the address space and clear of the window (R193, R223). -/
def fits (p : Params) (a len : Nat) : Prop :=
  a + len ≤ 2 ^ 32 ∧ (a + len ≤ p.base ∨ p.base + 0x40 ≤ a)

/-- A transfer buffer of `n >= 1` units passes check 2 of R193. -/
def xferFits (p : Params) (wide : Bool) (a n : Nat) : Prop :=
  fits p a (if wide then 2 * n else n) ∧ (wide = true → a % 2 = 0)

/-- The address of unit `k` of a buffer (R195). -/
def addrOf (wide : Bool) (a : Word) (k : Nat) : Nat := a.toNat + (if wide then 2 * k else k)

/-- The events a successful transfer adds: `last` of every `TX`, in order (R197). -/
def txMarks : List Event → List Bool
  | [] => []
  | .tx _ last :: rest => last :: txMarks rest
  | _ :: rest => txMarks rest

/-- The command's identifier is `>= NCS`, or its channel in OPA1 is `>= NDMA` (R136 step 2). -/
def outOfRange (i : Instr) (s : State) : Prop :=
  i.csidInRange s.params = false ∨ (((∃ t, i = .dmatx t) ∨ i = .dmarx) ∧ s.params.ndma ≤ s.opa1.toNat)

/-- The session row of R252 for a command. -/
def allowed (i : Instr) (s : State) : Prop :=
  match i with
  | .configure _ _ _ =>
    s.inited = true ∧ (s.session = .unconfigured ∨ s.session = .configured ∨ s.session = .deselected)
  | .select id => (s.session = .configured ∨ s.session = .deselected) ∧ s.cfgId = some id
  | .deselect id => (s.session = .selected ∨ s.session = .error) ∧ s.selId = some id
  | .xfer8 _ _ | .xfer16 _ _ | .dmatx _ | .dmarx => s.session = .selected
  | _ => True

/-- Check of CONFIGURE's baud rate (R155, R156, with the rounding of decision D13). -/
def divisorRaises (s : State) : Prop :=
  s.opa0 = 0#32 ∨ s.params.divMax < (s.params.sysclk + s.opa0.toNat - 1) / s.opa0.toNat

/-- Checks of a transfer's operands, in order (R193). -/
def transferRaises (wide txv rxv : Bool) (k : Fault) (s : State) : Prop :=
  (k = .misuseWidth ∧ s.ctrl.getLsbD 4 ≠ wide) ∨
  (k = .misuseBuffer ∧ s.ctrl.getLsbD 4 = wide ∧ s.opa2 ≠ 0#32 ∧
    ((txv = true ∧ ¬ xferFits s.params wide s.opa0.toNat s.opa2.toNat) ∨
      (rxv = true ∧ ¬ xferFits s.params wide s.opa1.toNat s.opa2.toNat)))

/-- Checks of a DMA arming's operands, in order (R223). -/
def dmaRaises (given : Bool) (k : Fault) (s : State) : Prop :=
  (k = .misuseDma ∧ (s.ctrl.getLsbD 4 = true ∨ s.opa2 = 0#32)) ∨
  (k = .misuseBuffer ∧ s.ctrl.getLsbD 4 = false ∧ s.opa2 ≠ 0#32 ∧ given = true ∧
    ¬ fits s.params s.opa0.toNat s.opa2.toNat)

/-- The operand checks of a command raise `k` (R156, R193, R223). -/
def operandsRaise (i : Instr) (k : Fault) (s : State) : Prop :=
  match i with
  | .configure _ _ _ => k = .misuseDivisor ∧ divisorRaises s
  | .xfer8 t r => transferRaises false t r k s
  | .xfer16 t r => transferRaises true t r k s
  | .dmatx t => dmaRaises t k s
  | .dmarx => dmaRaises true k s
  | _ => False

/-- The access has a form of R92: 32 bits at an offset that is a multiple of 4, or the 8-bit read at offset 0x1C. -/
def admittedForm (p : Params) (a : BusAccess) : Prop :=
  (a.width = 32 ∧ p.base ≤ a.addr ∧ a.addr < p.base + 0x40 ∧ (a.addr - p.base) % 4 = 0) ∨
  (a.width = 8 ∧ a.write = false ∧ a.addr = p.base + 0x1C)

/-- The eight commands (R99). -/
def isCommand (i : Instr) : Bool :=
  match encode i with
  | .command _ => true
  | .access _ _ => false

/-- The units received, in order (R69). -/
def rxUnits : List Event → List TUnit
  | [] => []
  | .rx v :: rest => v :: rxUnits rest
  | _ :: rest => rxUnits rest

/-- The transfer is at its first poll of unit 0, dispatched from its latched operands (R195), and no other agent moves. -/
structure Started (wide txv rxv : Bool) (s : State) : Prop where
  mem : Memory.wf s.mem = true
  fault : s.faultMark = none
  refused : s.refusedMark = none
  turns : s.turns = []
  busy : s.busy = true
  word : decodeCommandFor s.params s.opw = .ok (xferInstr wide txv rxv)
  phase : s.phase = .pollTx
  index : s.i = 0#32
  count : s.done = 0#32
  wait : s.p = 0

/-- Every access to host memory that the transfer will make is admitted (R61). -/
structure Admitted (wide txv rxv : Bool) (s : State) : Prop where
  transmit : txv = true → ∀ k < s.opa2.toNat, admits s.params (addrOf wide s.opa0 k) (unitSize wide) .read = true
  receive : rxv = true → ∀ k < s.opa2.toNat, admits s.params (addrOf wide s.opa1 k) (unitSize wide) .write = true

end Sys2Proof.Claims

open Sys2Proof.Claims

/-! ### Encoding -/

/-- Decoding an encoded instruction gives it back, with every field at every value, for every command present under the
parameters (R92, R96 to R102). -/
def Obligations.DecodeOfEncode : Prop :=
  ∀ (p : Params) (i : Instr), i.present p = true → decode p (encode i) = .ok i

/-- A command word that decodes to a command is that command's encoding: no word has two spellings (R96, R97). -/
def Obligations.EncodeOfDecodedCommand : Prop :=
  ∀ (w : Word) (i : Instr), decodeCommand w = .ok i → encode i = .command w

/-- The word of a command absent under the parameters is RESERVED (R99, R101). -/
def Obligations.AbsentCommandIsReserved : Prop :=
  ∀ (p : Params) (i : Instr), i.present p = false → decode p (encode i) = .reject .absentCommand

/-- R100, R99, R102: no word matches two rows of R99's match and mask table, and a command word decodes to a command exactly
when it is on that command's row, with the fields of R102. -/
def Obligations.NoWordMatchesTwoRows : Prop :=
  (∀ r ∈ commandRows, ∀ q ∈ commandRows, ∀ w : Word,
    w &&& r.mask = r.value → w &&& q.mask = q.value → r = q) ∧
  ∀ (w : Word) (i : Instr), decodeCommand w = .ok i ↔
    (w &&& 0xFF00FFFF#32 = 0x00000001#32 ∧ i = .init (w.extractLsb' 16 8)) ∨
    (w &&& 0xFFFF008F#32 = 0x00000002#32 ∧ i = .configure (w.extractLsb' 8 8) (w.extractLsb' 4 2) (w.getLsbD 6)) ∨
    (w &&& 0xFFFF00FF#32 = 0x00000003#32 ∧ i = .select (w.extractLsb' 8 8)) ∨
    (w &&& 0xFFFF00FF#32 = 0x00000004#32 ∧ i = .deselect (w.extractLsb' 8 8)) ∨
    (w &&& 0xFCFFFFFF#32 = 0x00000005#32 ∧ i = .xfer8 (w.getLsbD 24) (w.getLsbD 25)) ∨
    (w &&& 0xFCFFFFFF#32 = 0x00000006#32 ∧ i = .xfer16 (w.getLsbD 24) (w.getLsbD 25)) ∨
    (w &&& 0xFEFFFFFF#32 = 0x00000007#32 ∧ i = .dmatx (w.getLsbD 24)) ∨
    (w &&& 0xFFFFFFFF#32 = 0x00000008#32 ∧ i = .dmarx)

/-- The access codes that decode are the table of R92, whatever the data. -/
def Obligations.AccessCodesOfTable : Prop :=
  ∀ (code : BitVec 8) (data : Word),
    (∃ i, decodeAccess code data = .ok i) ↔
      code ∈ [0x6C#8, 0xEC#8, 0xC0#8, 0xC4#8, 0xC8#8, 0xCC#8] ++
        [0xD0#8, 0xD4#8, 0xD8#8, 0xDC#8, 0xE0#8, 0xE4#8, 0xE8#8] ++
        [0xF0#8, 0xF4#8, 0xF8#8, 0xFC#8] ++
        [0x40#8, 0x44#8, 0x48#8, 0x4C#8, 0x50#8, 0x54#8, 0x58#8, 0x5C#8, 0x1C#8] ++
        [0x60#8, 0x64#8, 0x68#8] ++ [0x70#8, 0x74#8, 0x78#8, 0x7C#8]

/-- R106: the encoding examples, and the reserved examples. -/
def Obligations.EncodingExamples : Prop :=
  decodeCommand 0x00080001#32 = .ok (.init 8#8) ∧
  decodeCommand 0x00100001#32 = .ok (.init 16#8) ∧
  decodeCommand 0x000C0001#32 = .ok (.init 12#8) ∧
  decodeCommand 0x00000102#32 = .ok (.configure 1#8 0#2 false) ∧
  decodeCommand 0x00000272#32 = .ok (.configure 2#8 3#2 true) ∧
  decodeCommand 0x00000012#32 = .ok (.configure 0#8 1#2 false) ∧
  decodeCommand 0x00000103#32 = .ok (.select 1#8) ∧
  decodeCommand 0x00000104#32 = .ok (.deselect 1#8) ∧
  decodeCommand 0x03000005#32 = .ok (.xfer8 true true) ∧
  decodeCommand 0x02000005#32 = .ok (.xfer8 false true) ∧
  decodeCommand 0x01000005#32 = .ok (.xfer8 true false) ∧
  decodeCommand 0x00000005#32 = .ok (.xfer8 false false) ∧
  decodeCommand 0x03000006#32 = .ok (.xfer16 true true) ∧
  decodeCommand 0x01000007#32 = .ok (.dmatx true) ∧
  decodeCommand 0x00000007#32 = .ok (.dmatx false) ∧
  decodeCommand 0x00000008#32 = .ok .dmarx ∧
  decodeCommand 0x00000000#32 = .reject .reservedOpcode ∧
  decodeCommand 0x00000009#32 = .reject .reservedOpcode ∧
  decodeCommand 0x00000085#32 = .reject .reservedBits ∧
  decodeCommand 0x04000005#32 = .reject .reservedBits ∧
  decodeCommand 0x00000183#32 = .reject .reservedBits ∧
  decodeCommand 0x01000008#32 = .reject .reservedBits

/-! ### The arbiter -/

/-- R120: ACQUIRE tests and sets in one step; with the lock held, by whomever, it answers 0 and changes nothing. -/
def Obligations.AcquireTestsAndSets : Prop :=
  ∀ s : State,
    (s.lock = false → exec .acquire s =
      .next { s with lock := true, owner := some s.caller, replies := s.replies ++ [.word s.caller 0x00000001#32] }) ∧
    (s.lock = true → exec .acquire s =
      .next { s with replies := s.replies ++ [.word s.caller 0x00000000#32] })

/-- R123, R124: RELEASE clears the lock from any state, whoever writes whatever value, and changes nothing else; a second
RELEASE leaves the state the first left, the record of completed accesses apart. -/
def Obligations.ReleaseClearsTheLock : Prop :=
  ∀ (s : State) (v w : Word),
    exec (.release v) s =
      .next { s with lock := false, owner := none, replies := s.replies ++ [.written s.caller] } ∧
    ∃ t u, exec (.release v) s = .next t ∧ exec (.release w) t = .next u ∧ { u with replies := t.replies } = t

/-- R122: after a RELEASE the next ACQUIRE, by any caller, returns 1. -/
def Obligations.AcquireAfterReleaseSucceeds : Prop :=
  ∀ (s : State) (v : Word) (c : Caller), ∃ t u,
    exec (.release v) s = .next t ∧ exec .acquire { t with caller := c } = .next u ∧
    u.lock = true ∧ u.owner = some c ∧ u.replies = t.replies ++ [.word c 0x00000001#32]

/-- R31, R34, R35: a step changes LOCK or OWNER only by performing an ACQUIRE or a RELEASE; a set lock is cleared only by a
RELEASE; a set lock's owner is never replaced, so between two RELEASEs at most one ACQUIRE succeeds. -/
def Obligations.LockMovesOnlyByArbiter : Prop :=
  ∀ s t : State, step s = .next t →
    ((t.lock ≠ s.lock ∨ t.owner ≠ s.owner) →
      ∃ i u, fetch s = .run i u ∧ (i = .acquire ∨ ∃ v, i = .release v)) ∧
    (s.lock = true → (t.lock = true ∧ t.owner = s.owner) ∨ ∃ v u, fetch s = .run (.release v) u)

/-! ### Host accesses -/

/-- R133: the owner's ARG write stores the value; another caller's raises MISUSE_LOCK and stores nothing. -/
def Obligations.ArgWrites : Prop :=
  ∀ (s : State) (v : Word),
    (s.owner = some s.caller →
      exec (.wrArg0 v) s = .next { s with arg0 := v, replies := s.replies ++ [.written s.caller] } ∧
      exec (.wrArg1 v) s = .next { s with arg1 := v, replies := s.replies ++ [.written s.caller] } ∧
      exec (.wrArg2 v) s = .next { s with arg2 := v, replies := s.replies ++ [.written s.caller] }) ∧
    (s.owner ≠ some s.caller →
      exec (.wrArg0 v) s = .next { s with faultMark := some .misuseLock } ∧
      exec (.wrArg1 v) s = .next { s with faultMark := some .misuseLock } ∧
      exec (.wrArg2 v) s = .next { s with faultMark := some .misuseLock })

/-- R134: a write to a read-only register or a reserved offset, by any caller, changes nothing. -/
def Obligations.IgnoredWrites : Prop :=
  ∀ (s : State) (v : Word),
    let t : State := { s with replies := s.replies ++ [.written s.caller] }
    exec (.wrRoResult v) s = .next t ∧ exec (.wrRoDone v) s = .next t ∧ exec (.wrRoStatus v) s = .next t ∧
    exec (.wrRoFill v) s = .next t ∧ exec (.wrRoCtrl v) s = .next t ∧ exec (.wrRoDiv v) s = .next t ∧
    exec (.wrRoCslines v) s = .next t ∧ exec (.wrRsvd30 v) s = .next t ∧ exec (.wrRsvd34 v) s = .next t ∧
    exec (.wrRsvd38 v) s = .next t ∧ exec (.wrRsvd3C v) s = .next t

/-- R139 to R148: each read returns its register and changes nothing. -/
def Obligations.ReadsAnswer : Prop :=
  ∀ s : State,
    let answer (v : Word) : State := { s with replies := s.replies ++ [.word s.caller v] }
    exec .rdCmd s = .next (answer s.cmd) ∧
    exec .rdArg0 s = .next (answer s.arg0) ∧
    exec .rdArg1 s = .next (answer s.arg1) ∧
    exec .rdArg2 s = .next (answer s.arg2) ∧
    exec .rdResult s = .next (answer s.result) ∧
    exec .rdDone s = .next (answer s.done) ∧
    exec .rdStatus s = .next (answer (BitVec.ofNat 32 (2 * s.inited.toNat + s.lock.toNat))) ∧
    exec .rdFill s = .next (answer 0x000000FF#32) ∧
    exec .rdbFill s = .next { s with replies := s.replies ++ [.byte s.caller 0xFF#8] } ∧
    exec .rdCtrl s = .next (answer s.ctrl) ∧
    exec .rdDiv s = .next (answer s.div) ∧
    exec .rdCslines s = .next (answer s.cslines) ∧
    exec .rdRsvd30 s = .next (answer 0x00000000#32) ∧
    exec .rdRsvd34 s = .next (answer 0x00000000#32) ∧
    exec .rdRsvd38 s = .next (answer 0x00000000#32) ∧
    exec .rdRsvd3C s = .next (answer 0x00000000#32)

/-- R135, R136: a CMD write by the owner of a present command that is in range (R136 step 2), allowed by its row of R252 and
none of whose operand checks raises (R156, R193, R223) latches the word, the operands and the issuer, and leaves the block busy
before the command's first micro-step. That a multi-step command's first assignments fall into this step is the model's
reading (log 12, log 30); the divisor is rounded up as D13 says. -/
def Obligations.CommandAccepted : Prop :=
  ∀ (s : State) (w : Word) (i : Instr), s.owner = some s.caller → decodeCommandFor s.params w = .ok i →
    ¬ outOfRange i (latched s w) → allowed i (latched s w) → (∀ k, ¬ operandsRaise i k (latched s w)) →
    ((∃ t r, i = .xfer8 t r ∨ i = .xfer16 t r) →
      exec (.wrCmd w) s = .next { latched s w with done := 0#32, i := 0#32, p := 0, phase := .pollTx }) ∧
    ((∃ id, i = .deselect id) → exec (.wrCmd w) s = .next { latched s w with p := 0, phase := .pollDrain }) ∧
    (((∃ b, i = .init b) ∨ (∃ c m x, i = .configure c m x) ∨ (∃ c, i = .select c) ∨ (∃ t, i = .dmatx t) ∨ i = .dmarx) →
      exec (.wrCmd w) s = .next (latched s w))

/-- R136 step 2, R137, R303: the owner's write of an illegal word (one that spells no present command, or whose identifier
or channel is out of range) is latched, and the next micro-step ends it with RESULT = 2 and changes nothing else. -/
def Obligations.IllegalWordEnds : Prop :=
  ∀ (s : State) (w : Word), s.owner = some s.caller → s.faultMark = none → s.phase = .idle → s.turns = [] →
    ((∃ r, decodeCommandFor s.params w = .reject r) ∨
      ∃ i, decodeCommandFor s.params w = .ok i ∧ outOfRange i (latched s w)) →
    exec (.wrCmd w) s = .next (latched s w) ∧
    step (latched s w) = .next (ended (latched s w) 0x00000002#32)

/-- R135, R136, R247, R251, R252, R253, R156, R193, R223: the marks a CMD write leaves. By a caller that is not the owner:
MISUSE_LOCK, whatever the word. By the owner, for a present command in range: MISUSE_ORDER if its row of R252 does not allow
it, and otherwise the mark of the operand check that raises. In each case nothing of the access is performed (that CMD itself
is not written is the model's reading, log 11); the divisor is rounded up as D13 says. -/
def Obligations.MisusedCommandWritePerformsNothing : Prop :=
  ∀ (s : State) (w : Word),
    (s.owner ≠ some s.caller → exec (.wrCmd w) s = .next { s with faultMark := some .misuseLock }) ∧
    (∀ i, s.owner = some s.caller → decodeCommandFor s.params w = .ok i → ¬ outOfRange i (latched s w) →
      (¬ allowed i (latched s w) → exec (.wrCmd w) s = .next { s with faultMark := some .misuseOrder }) ∧
      (∀ k, allowed i (latched s w) → operandsRaise i k (latched s w) →
        exec (.wrCmd w) s = .next { s with faultMark := some k }))

/-! ### Checks of the commands -/

/-- R252: a command in a session its row does not allow raises MISUSE_ORDER and performs nothing, whatever its operands. -/
def Obligations.WrongSessionRaises : Prop :=
  ∀ (s : State) (i : Instr), s.phase = .idle → isCommand i = true → i.present s.params = true → ¬ outOfRange i s →
    ¬ allowed i s → exec i s = .next { s with faultMark := some .misuseOrder }

/-- R136, R137, R253: a command whose identifier or channel is out of range ends as ILLEGAL in any session. -/
def Obligations.OutOfRangeIsIllegal : Prop :=
  ∀ (s : State) (i : Instr), s.phase = .idle → outOfRange i s → exec i s = .next (ended s 0x00000002#32)

/-- R156: CONFIGURE with baud 0 or a divisor (rounded up, D13) above DIV_MAX raises MISUSE_DIVISOR. -/
def Obligations.IllegalDivisorRaises : Prop :=
  ∀ (s : State) (c : Csid) (m : BitVec 2) (x : Bool), c.toNat < s.params.ncs → allowed (.configure c m x) s →
    (s.opa0 = 0#32 ∨ s.params.divMax < (s.params.sysclk + s.opa0.toNat - 1) / s.opa0.toNat) →
    exec (.configure c m x) s = .next { s with faultMark := some .misuseDivisor }

/-- R193: the operand checks of a transfer, in order: the width, then for `n >= 1` each given buffer. -/
def Obligations.TransferOperandsRaise : Prop :=
  ∀ (s : State) (wide txv rxv : Bool), s.phase = .idle → s.session = .selected →
    (wide = true → s.params.word16 = true) →
    (s.ctrl.getLsbD 4 ≠ wide →
      exec (xferInstr wide txv rxv) s = .next { s with faultMark := some .misuseWidth }) ∧
    (s.ctrl.getLsbD 4 = wide → s.opa2 ≠ 0#32 →
      ((txv = true ∧ ¬ xferFits s.params wide s.opa0.toNat s.opa2.toNat) ∨
        (rxv = true ∧ ¬ xferFits s.params wide s.opa1.toNat s.opa2.toNat)) →
      exec (xferInstr wide txv rxv) s = .next { s with faultMark := some .misuseBuffer })

/-- R223: the DMA checks, in order: width and length, then the buffer. -/
def Obligations.DmaOperandsRaise : Prop :=
  ∀ (s : State) (txv : Bool), s.session = .selected → s.params.dmaPresent = true → s.opa1.toNat < s.params.ndma →
    ((s.ctrl.getLsbD 4 = true ∨ s.opa2 = 0#32) →
      exec (.dmatx txv) s = .next { s with faultMark := some .misuseDma } ∧
      exec .dmarx s = .next { s with faultMark := some .misuseDma }) ∧
    (s.ctrl.getLsbD 4 = false → s.opa2 ≠ 0#32 → ¬ fits s.params s.opa0.toNat s.opa2.toNat →
      exec (.dmatx true) s = .next { s with faultMark := some .misuseBuffer } ∧
      exec .dmarx s = .next { s with faultMark := some .misuseBuffer })

/-! ### INIT and CONFIGURE -/

/-- R151, R150, R152: the first INIT resets the controller, leaves it disabled in master mode, and reports the mapped width. -/
def Obligations.FirstInit : Prop :=
  ∀ (s : State) (b : BitVec 8), s.inited = false →
    let c : Word := (s.ctrl &&& 0xFFFF0080#32) ||| 0x0000FF06#32
    exec (.init b) s = .next (ended
      { s with
        inited := true
        ctrl := c
        trace := s.trace ++ [.platformInit, .resetAll, .apply c s.div] }
      (if b = 16#8 then 0x00000100#32 else 0x00000000#32))

/-- R151, R286: a later INIT changes RESULT only. -/
def Obligations.LaterInit : Prop :=
  ∀ (s : State) (b : BitVec 8), s.inited = true →
    exec (.init b) s = .next (ended s (if b = 16#8 then 0x00000100#32 else 0x00000000#32))

/-- R155: the divisor is the least integer `q` with `q * b >= SYSCLK`, it is 1 exactly when the baud rate reaches SYSCLK, and
so the bus clock never exceeds the requested rate. The rounding is decision D13. -/
def Obligations.DivisorRoundsUp : Prop :=
  ∀ (p : Params) (b : Word), 1 ≤ b.toNat → 1 ≤ p.sysclk →
    p.sysclk ≤ divisor p b * b.toNat ∧ (∀ q, p.sysclk ≤ q * b.toNat → divisor p b ≤ q) ∧ 1 ≤ divisor p b ∧
    (divisor p b = 1 ↔ p.sysclk ≤ b.toNat)

/-- R156, R157, R155, R252: CONFIGURE applies the divisor (rounded up: decision D13, the real library may truncate), the
width, the polarity (mode bit 1) and the inverted phase (mode bit 0), enables the controller in master mode, and keeps every
other CTRL bit. -/
def Obligations.ConfigureApplies : Prop :=
  ∀ (s : State) (id : Csid) (m : BitVec 2) (x : Bool), id.toNat < s.params.ncs → allowed (.configure id m x) s →
    s.opa0 ≠ 0#32 → (s.params.sysclk + s.opa0.toNat - 1) / s.opa0.toNat ≤ s.params.divMax →
    let c : Word := (s.ctrl &&& 0xFFFFFF8C#32) |||
      BitVec.ofNat 32 (0x03 + 16 * x.toNat + 32 * (m.getLsbD 1).toNat + 64 * (!m.getLsbD 0).toNat)
    let d : Word := BitVec.ofNat 32 ((s.params.sysclk + s.opa0.toNat - 1) / s.opa0.toNat)
    exec (.configure id m x) s = .next (ended
      { s with
        ctrl := c
        div := d
        trace := s.trace ++ [.resetTxrx, .apply c d]
        session := .configured
        cfgId := some id }
      0x00000000#32)

/-- R297: two states that agree on the parameters, the baud operand and the CTRL fields CONFIGURE does not write, and in both
of which CONFIGURE is in range, allowed and raises nothing, have the same CTRL and DIV after the same CONFIGURE, whatever
device was configured before. -/
def Obligations.NoStaleSettings : Prop :=
  ∀ (s u t v : State) (id : Csid) (m : BitVec 2) (x : Bool),
    s.params = u.params → s.opa0 = u.opa0 → s.ctrl &&& 0xFFFFFF8C#32 = u.ctrl &&& 0xFFFFFF8C#32 →
    id.toNat < s.params.ncs → allowed (.configure id m x) s → allowed (.configure id m x) u → ¬ divisorRaises s →
    exec (.configure id m x) s = .next t → exec (.configure id m x) u = .next v →
    t.ctrl = v.ctrl ∧ t.div = v.div

/-! ### SELECT and DESELECT -/

/-- R170, R28: a direct identifier on the decoder scheme is selected by the active-low pattern; its line is not driven. -/
def Obligations.SelectByPattern : Prop :=
  ∀ (s : State) (id : Csid), id.toNat < s.params.ncs → allowed (.select id) s →
    s.params.csScheme = .decoder → id.toNat < s.params.ndirect →
    let c : Word := (s.ctrl &&& 0xFFFF00FF#32) ||| ((0xFF#8 ^^^ (1#8 <<< id.toNat)).zeroExtend 32 <<< 8)
    exec (.select id) s = .next (ended
      { s with ctrl := c, trace := s.trace ++ [.apply c s.div], session := .selected, selId := some id } 0x00000000#32)

/-- R170, R173: every other identifier, and every identifier on the direct scheme, is selected by its line driven low. -/
def Obligations.SelectByLine : Prop :=
  ∀ (s : State) (id : Csid), id.toNat < s.params.ncs → allowed (.select id) s →
    (s.params.csScheme = .direct ∨ s.params.ndirect ≤ id.toNat) →
    exec (.select id) s = .next (ended
      { s with
        cslines := s.cslines &&& ~~~(1#32 <<< id.toNat)
        trace := s.trace ++ [.cs id.toNat false]
        session := .selected
        selId := some id }
      0x00000000#32)

/-- R172, R190: DESELECT dispatched from IDLE starts its drain wait; each drain poll records its answer and counts; the wait
ends at the first 1, or at poll TLIMIT, and then FINISH_DESELECT follows. The start from IDLE as a step of its own is the
model's reading: R303 does not count it, and in a run the WR_CMD that issues the command makes it (log 12, log 27). That the
wait's outcome is kept in a field is log 9. -/
def Obligations.DeselectDrains : Prop :=
  ∀ (s : State) (id : Csid),
    (s.phase = .idle → id.toNat < s.params.ncs → allowed (.deselect id) s →
      exec (.deselect id) s = .next { s with phase := .pollDrain, p := 0 }) ∧
    (s.phase = .pollDrain → nextSample s = true →
      exec (.deselect id) s = .next { polled .txEmpty s with drained := true, phase := .finishDeselect }) ∧
    (s.phase = .pollDrain → nextSample s = false → s.p + 1 = s.params.tlimit →
      exec (.deselect id) s = .next { polled .txEmpty s with drained := false, phase := .finishDeselect }) ∧
    (s.phase = .pollDrain → nextSample s = false → s.p + 1 ≠ s.params.tlimit →
      exec (.deselect id) s = .next (polled .txEmpty s))

/-- R172, R174: FINISH_DESELECT deasserts the pattern (decoder scheme) and always the line, and reports a drain timeout. -/
def Obligations.DeselectDeasserts : Prop :=
  ∀ (s : State) (id : Csid), s.phase = .finishDeselect →
    let c : Word := s.ctrl ||| 0x0000FF00#32
    let r : Word := if s.drained then 0x00000000#32 else 0x00000031#32
    let t : State := { s with
      cslines := s.cslines ||| (1#32 <<< id.toNat)
      session := .deselected
      selId := none }
    (s.params.csScheme = .decoder → exec (.deselect id) s = .next (ended
      { t with ctrl := c, trace := s.trace ++ [.lastXfer, .apply c s.div, .cs id.toNat true] } r)) ∧
    (s.params.csScheme = .direct → exec (.deselect id) s = .next (ended
      { t with trace := s.trace ++ [.cs id.toNat true] } r))

/-! ### XFER8 and XFER16, micro-step by micro-step -/

/-- R195, R193: a transfer dispatched from IDLE whose checks pass clears DONE and I and starts the first wait; a length of 0
needs no buffer. The start from IDLE as a step of its own is the model's reading: in a run the WR_CMD that issues the command
makes it (log 12, log 27, log 30). -/
def Obligations.TransferStarts : Prop :=
  ∀ (s : State) (wide txv rxv : Bool), s.phase = .idle → s.session = .selected →
    (wide = true → s.params.word16 = true) → s.ctrl.getLsbD 4 = wide →
    (s.opa2 = 0#32 ∨ ((txv = true → xferFits s.params wide s.opa0.toNat s.opa2.toNat) ∧
      (rxv = true → xferFits s.params wide s.opa1.toNat s.opa2.toNat))) →
    exec (xferInstr wide txv rxv) s = .next { s with done := 0#32, i := 0#32, p := 0, phase := .pollTx }

/-- R195, R190: a transmit-ready poll; the wait's end by a timeout ends the command with RESULT = 0x11 in session ERROR. That
these effects are made in the micro-step of poll TLIMIT is the model's reading of R10 (DEDUCED, log 14). -/
def Obligations.TransmitWait : Prop :=
  ∀ (s : State) (wide txv rxv : Bool), s.phase = .pollTx → s.i.toNat < s.opa2.toNat →
    (nextSample s = true →
      exec (xferInstr wide txv rxv) s = .next { polled .txRdy s with phase := .emit }) ∧
    (nextSample s = false → s.p + 1 = s.params.tlimit →
      exec (xferInstr wide txv rxv) s = .next (ended { polled .txRdy s with session := .error } 0x00000011#32)) ∧
    (nextSample s = false → s.p + 1 ≠ s.params.tlimit →
      exec (xferInstr wide txv rxv) s = .next (polled .txRdy s))

/-- R195: with every unit done, and so at once for a length of 0, the command ends OK; no poll and no event is added. That the
final micro-step of R41 is PHASE POLL_TX with `I = n` is the model's reading (DEDUCED, log 13). -/
def Obligations.TransferEnds : Prop :=
  ∀ (s : State) (wide txv rxv : Bool), s.phase = .pollTx → s.opa2.toNat ≤ s.i.toNat →
    exec (xferInstr wide txv rxv) s = .next (ended s 0x00000000#32)

/-- R195, R191, R61, R62: EMIT writes the unit read from memory at `tx + sz*I`, the high byte at the higher address, or the
all-ones filler of the width, with the last marker on the final unit only; a refused read raises BUSERR and emits nothing.
That the receive wait's `P <- 0` is made in this step is the model's choice (log 30). -/
def Obligations.EmitUnit : Prop :=
  ∀ (s : State) (wide txv rxv : Bool), s.phase = .emit →
    let a := addrOf wide s.opa0 s.i.toNat
    let v : TUnit :=
      if wide then .u16 (Memory.read s.mem (a + 1) ++ Memory.read s.mem a) else .u8 (Memory.read s.mem a)
    let last : Bool := decide (s.i.toNat + 1 = s.opa2.toNat)
    (txv = true → admits s.params a (unitSize wide) .read = true →
      exec (xferInstr wide txv rxv) s = .next
        { s with trace := s.trace ++ [.tx v last], phase := .pollRx, p := 0 }) ∧
    (txv = true → admits s.params a (unitSize wide) .read = false →
      exec (xferInstr wide txv rxv) s = .next { s with faultMark := some .busErr }) ∧
    (txv = false →
      exec (xferInstr wide txv rxv) s = .next
        { s with
          trace := s.trace ++ [.tx (if wide then .u16 0xFFFF#16 else .u8 0xFF#8) last]
          phase := .pollRx
          p := 0 })

/-- R195, R190: a receive-ready poll; a timeout ends the command with RESULT = 0x21 in session ERROR. That these effects are
made in the micro-step of poll TLIMIT is the model's reading of R10 (DEDUCED, log 14). -/
def Obligations.ReceiveWait : Prop :=
  ∀ (s : State) (wide txv rxv : Bool), s.phase = .pollRx →
    (nextSample s = true →
      exec (xferInstr wide txv rxv) s = .next { polled .rxRdy s with phase := .recv }) ∧
    (nextSample s = false → s.p + 1 = s.params.tlimit →
      exec (xferInstr wide txv rxv) s = .next (ended { polled .rxRdy s with session := .error } 0x00000021#32)) ∧
    (nextSample s = false → s.p + 1 ≠ s.params.tlimit →
      exec (xferInstr wide txv rxv) s = .next (polled .rxRdy s))

/-- R195, R63, R61: RECV takes a unit of the width, counts it in I and DONE, and stores it at `rx + sz*I` if a buffer is
given: the unit reads back there and every other byte reads as before; without a buffer memory is unchanged. Every register
and event apart from those named is unchanged. A refused store raises BUSERR after the read (DEDUCED, log 15). That P becomes
0 in this step, also after the last unit, is the model's choice (log 30). -/
def Obligations.ReceiveUnit : Prop :=
  ∀ (s : State) (wide txv rxv : Bool), s.phase = .recv → Memory.wf s.mem = true →
    let a := addrOf wide s.opa1 s.i.toNat
    let v := cutUnit wide (nextUnit s)
    let t : State := { dropUnit s with trace := s.trace ++ [.rx v] }
    let u : State := { t with i := s.i + 1#32, done := s.i + 1#32, p := 0, phase := .pollTx }
    (rxv = true → admits s.params a (unitSize wide) .write = true →
      ∃ m, exec (xferInstr wide txv rxv) s = .next { u with mem := m } ∧ readUnit wide m a = v ∧
        ∀ x, (x < a ∨ a + unitSize wide ≤ x) → Memory.read m x = Memory.read s.mem x) ∧
    (rxv = true → admits s.params a (unitSize wide) .write = false →
      exec (xferInstr wide txv rxv) s = .next { t with faultMark := some .busErr }) ∧
    (rxv = false → exec (xferInstr wide txv rxv) s = .next u)

/-- R69, R70: a draw is the next answer the environment lists, which is then used up; with none listed it is a free value of
the model (log 5) and the count of free draws goes up. Nothing else changes. -/
def Obligations.Draws : Prop :=
  ∀ (s : State),
    (∀ b rest, s.samples = b :: rest → nextSample s = b ∧ dropSample s = { s with samples := rest }) ∧
    (s.samples = [] → nextSample s = Config.freeSample s.draws ∧ dropSample s = { s with draws := s.draws + 1 }) ∧
    (∀ v rest, s.units = v :: rest → nextUnit s = v ∧ dropUnit s = { s with units := rest }) ∧
    (s.units = [] → nextUnit s = Config.freeUnit s.draws ∧ dropUnit s = { s with draws := s.draws + 1 })

/-! ### DMA arming -/

/-- R220, R221, R224: DMATX arms the channel with four events in order, from the buffer with incrementing addresses or from
the FILL byte at a fixed address; RESULT is OK and the refusal mark is set. -/
def Obligations.DmatxArms : Prop :=
  ∀ (s : State) (txv : Bool), s.params.dmaPresent = true → s.opa1.toNat < s.params.ndma → s.session = .selected →
    s.ctrl.getLsbD 4 = false → s.opa2 ≠ 0#32 → (txv = true → fits s.params s.opa0.toNat s.opa2.toNat) →
    let src : Word := if txv then s.opa0 else BitVec.ofNat 32 (s.params.base + 0x1C)
    exec (.dmatx txv) s = .next (ended
      { s with
        trace := s.trace ++ [.dmaDisable s.opa1, .dmaConfig s.opa1 s.params.hsTx .memToPer,
          .dmaDesc s.opa1 src txv s.params.tdrAddr false s.opa2, .dmaEnable s.opa1]
        refusedMark := some .extDma }
      0x00000000#32)

/-- R220, R222, R224: DMARX arms the channel from the receive data register into the buffer. -/
def Obligations.DmarxArms : Prop :=
  ∀ (s : State), s.params.dmaPresent = true → s.opa1.toNat < s.params.ndma → s.session = .selected →
    s.ctrl.getLsbD 4 = false → s.opa2 ≠ 0#32 → fits s.params s.opa0.toNat s.opa2.toNat →
    exec .dmarx s = .next (ended
      { s with
        trace := s.trace ++ [.dmaDisable s.opa1, .dmaConfig s.opa1 s.params.hsRx .perToMem,
          .dmaDesc s.opa1 s.params.rdrAddr false s.opa0 true s.opa2, .dmaEnable s.opa1]
        refusedMark := some .extDma }
      0x00000000#32)

/-! ### The step -/

/-- R130, R131, R91: with the block idle, the next listed window access of an admitted form runs as its instruction, by its
caller; the schedule moves past it. Only the callers of the parameter of R6 act: a listed access of any other context is no
step of the machine and is refused by name, block idle or not (the refusal is the model's choice, log 6). -/
def Obligations.StepRunsAccess : Prop :=
  ∀ (s : State) (a : BusAccess) (rest : List Turn), s.faultMark = none → s.turns = .bus a :: rest →
    (∀ i, a.caller ∈ s.params.callers → s.busy = false → accessInstr s.params a = some i →
      step s = exec i { s with turns := rest, caller := a.caller }) ∧
    (a.caller ∉ s.params.callers → step s = .refused .noSuchCaller)

/-- R135, R136, R40: while a command runs and no other agent's turn is listed, or it is the block's turn, a step is the next
micro-step of the command that OPW spells. -/
def Obligations.StepRunsCommand : Prop :=
  ∀ (s : State) (i : Instr), s.faultMark = none → s.busy = true → decodeCommandFor s.params s.opw = .ok i →
    (s.turns = [] → step s = exec i s) ∧
    (∀ rest, s.turns = .block :: rest → step s = exec i { s with turns := rest })

/-- R91, R92: the access that a table row names, at its offset from BASE, spells the row's instruction; so does the command
word a row names. The machine placed before it runs exactly it, the access by the state's own caller, who must be one (R6). -/
def Obligations.PlacedInstructionRuns : Prop :=
  ∀ (s : State) (i : Instr), i.present s.params = true →
    (∀ code data, s.caller ∈ s.params.callers → encode i = .access code data →
      step (placeNext s (encode i)) = exec i { s with faultMark := none, busy := false, phase := .idle }) ∧
    (∀ w, encode i = .command w →
      step (placeNext s (encode i)) = exec i { s with faultMark := none, busy := true, phase := .idle, opw := w })

/-- R132: while a command runs, its issuer's accesses and every other caller's window access of an admitted form are held: the
block moves instead. That the held access stays at the head of the schedule is the model's choice (DESIGN CHOICE, log 7). -/
def Obligations.BusyHoldsAccesses : Prop :=
  ∀ (s : State) (a : BusAccess) (rest : List Turn), s.busy = true → s.turns = .bus a :: rest →
    a.caller ∈ s.params.callers → (a.caller = s.issuer ∨ ∃ i, accessInstr s.params a = some i) →
    step s = step { s with turns := .block :: s.turns }

/-- R130, R92, R65, R247, R253: a window access spells a host access exactly in the forms of R92: 32 bits at an offset that is
a multiple of 4, or the 8-bit read at 0x1C. An access that touches the window in any other form (another width, 16 bits for
example; another 8-bit access; another offset) raises BADACCESS, before the hold, and changes nothing in the block. That it
comes before the hold, and what an access at the window's edge or of a partial byte touches, are the model's reading (log 17,
log 18, log 31). -/
def Obligations.BadAccessRaises : Prop :=
  (∀ (p : Params) (a : BusAccess), admittedForm p a ↔ ∃ i, accessInstr p a = some i) ∧
  ∀ (s : State) (a : BusAccess) (rest : List Turn), s.faultMark = none → s.turns = .bus a :: rest →
    a.caller ∈ s.params.callers → (s.busy = true → a.caller ≠ s.issuer) →
    s.params.base < a.addr + max 1 ((a.width + 7) / 8) → a.addr < s.params.base + 0x40 → ¬ admittedForm s.params a →
    step s = .next { s with turns := rest, caller := a.caller, faultMark := some .badAccess }

/-- R247: a state with the fault mark has no step but the fault. R283: an idle block with nothing listed stays as it is. -/
def Obligations.MarkedStopsAndIdleStays : Prop :=
  ∀ s : State,
    (∀ k, s.faultMark = some k → step s = .fault k) ∧
    (s.faultMark = none → s.busy = false → s.turns = [] → step s = .next s)

/-- R60, R61, R64, R132: a caller's own admitted access of `n` bytes outside the window goes to host memory, also while
another caller's command runs, and changes nothing of the block: a load answers the bytes, a store writes the low byte at the
lowest address and leaves every other byte as it was. Their width, byte order and admission are the model's choice (log 19,
log 31). -/
def Obligations.CallerMemoryAccess : Prop :=
  ∀ (s : State) (a : BusAccess) (rest : List Turn) (n : Nat), s.faultMark = none → s.turns = .bus a :: rest →
    a.caller ∈ s.params.callers → (s.busy = true → a.caller ≠ s.issuer) → 1 ≤ n → a.width = 8 * n →
    (a.addr + n ≤ s.params.base ∨ s.params.base + 0x40 ≤ a.addr) →
    (a.write = false → admits s.params a.addr n .read = true → step s = .next
      { s with
        turns := rest
        caller := a.caller
        replies := s.replies ++ [.loaded a.caller ((List.range n).map fun k => Memory.read s.mem (a.addr + k))] }) ∧
    (a.write = true → admits s.params a.addr n .write = true → ∃ m, step s = .next
      { s with
        turns := rest
        caller := a.caller
        mem := m
        replies := s.replies ++ [.written a.caller] } ∧
      (Memory.wf s.mem = true → ∀ k < n, Memory.read m (a.addr + k) = BitVec.ofNat 8 (a.data / 256 ^ k)) ∧
      ∀ x, (x < a.addr ∨ a.addr + n ≤ x) → Memory.read m x = Memory.read s.mem x)

/-! ### Reset -/

/-- R280: the reset values the spec states, for every parameter and host memory. The values of the model's own fields and of
ISSUER are not stated here. -/
def Obligations.ResetValues : Prop :=
  ∀ (p : Params) (m : List Host.Cell),
    let s := State.resetWith p m
    s.params = p ∧ s.mem = m ∧ s.cmd = 0#32 ∧ s.arg0 = 0#32 ∧ s.arg1 = 0#32 ∧ s.arg2 = 0#32 ∧ s.result = 0#32 ∧
    s.done = 0#32 ∧ s.ctrl = 0x0000FF00#32 ∧ s.div = 0#32 ∧ s.cslines = BitVec.ofNat 32 (2 ^ p.ncs - 1) ∧
    s.lock = false ∧ s.inited = false ∧ s.busy = false ∧ s.opw = 0#32 ∧ s.opa0 = 0#32 ∧ s.opa1 = 0#32 ∧ s.opa2 = 0#32 ∧
    s.phase = .idle ∧ s.i = 0#32 ∧ s.p = 0 ∧ s.owner = none ∧ s.session = .unconfigured ∧ s.cfgId = none ∧ s.selId = none ∧
    s.faultMark = none ∧ s.refusedMark = none ∧ s.trace = [] ∧ statusView s = 0#32 ∧ Config.fillWord = 0x000000FF#32

/-- The invariant holds at reset, for every legal parameters and every canonical host memory in the address space, and at
State.reset. -/
def Obligations.ResetMeetsInvariant : Prop :=
  (∀ (p : Params) (m : List Host.Cell), p.wf = true → Memory.wf m = true → (∀ c ∈ m, c.1 < 2 ^ 32) →
    Invariant (State.resetWith p m)) ∧
  Invariant State.reset

/-! ### The whole machine -/

/-- Every step keeps the invariant: canonical memory, OWNER with LOCK (R35), the owner, the issuer of a running command and
the caller of the step callers of the parameter (R6, D31), reserved CTRL bits and LLB (R27), at most the selected device
asserted, on its pattern or its line (R28, R30), legal RESULT (R23), DIV in range (R29), session and identifiers in step (R36
to R38), PHASE fitting the running command with `P <= TLIMIT` and `I <= n` (R40 to R42). -/
def Obligations.StepKeepsInvariant : Prop :=
  ∀ s t : State, Invariant s → step s = .next t → Invariant t

/-- R32, R39, R75, R248, R249: a step never clears INITED or a refusal mark, never removes an event, never changes the
parameters, and starts from no fault mark. A state that carries either mark is never final, and no run goes on from it to a
final state: so a run that armed a DMA transfer, at whatever step, ends in no state of which something may be claimed. -/
def Obligations.StepOnlyAdds : Prop :=
  (∀ s t : State, step s = .next t →
    s.faultMark = none ∧ (s.inited = true → t.inited = true) ∧ (s.refusedMark ≠ none → t.refusedMark = s.refusedMark) ∧
    t.params = s.params ∧ (∃ es, t.trace = s.trace ++ es) ∧ (∃ rs, t.replies = s.replies ++ rs)) ∧
  ∀ (n : Nat) (t u : State), (t.faultMark ≠ none ∨ t.refusedMark ≠ none) → core.run n t = .next u → final u = false

/-- R46: an instruction changes host memory only as a transfer's RECV step with a receive buffer. -/
def Obligations.MemoryChangesOnlyAtReceive : Prop :=
  ∀ (s t : State) (i : Instr), exec i s = .next t → t.mem ≠ s.mem →
    s.phase = .recv ∧ ∃ wide txv, i = xferInstr wide txv true

/-- R46, R24: which instructions change which registers of the window. That the DONE <- 0 of a transfer's start (R195) is made
by the WR_CMD that starts it is the model's reading (DEDUCED, log 12). -/
def Obligations.WhoWritesWhat : Prop :=
  ∀ (s t : State) (i : Instr), exec i s = .next t →
    (t.cmd ≠ s.cmd → ∃ w, i = .wrCmd w) ∧
    (t.arg0 ≠ s.arg0 → ∃ v, i = .wrArg0 v) ∧
    (t.arg1 ≠ s.arg1 → ∃ v, i = .wrArg1 v) ∧
    (t.arg2 ≠ s.arg2 → ∃ v, i = .wrArg2 v) ∧
    (t.lock ≠ s.lock → i = .acquire ∨ ∃ v, i = .release v) ∧
    (t.inited ≠ s.inited → ∃ b, i = .init b) ∧
    (t.div ≠ s.div → ∃ c m x, i = .configure c m x) ∧
    (t.ctrl ≠ s.ctrl → (∃ b, i = .init b) ∨ (∃ c m x, i = .configure c m x) ∨ (∃ c, i = .select c) ∨ ∃ c, i = .deselect c) ∧
    (t.cslines ≠ s.cslines → (∃ c, i = .select c) ∨ ∃ c, i = .deselect c) ∧
    (t.done ≠ s.done → ∃ wide txv rxv, i = xferInstr wide txv rxv ∨
      ∃ w, i = .wrCmd w ∧ decodeCommandFor s.params w = .ok (xferInstr wide txv rxv)) ∧
    (t.result ≠ s.result → isCommand i = true)

/-- R250: the contract monitor changes nothing the hardware has. Two states that differ only in the model-only registers of
R35 to R39 go, by a step that raises no fault in either, to states that differ only in them. -/
def Obligations.MonitorIsInvisible : Prop :=
  ∀ s u t v : State, hardware s = hardware u → step s = .next t → step u = .next v →
    t.faultMark = none → v.faultMark = none → hardware t = hardware v

/-! ### Whole commands -/

/-- R195, R196, R197, R190: a started transfer of `n` units whose every poll answers 1 ends after `4 n + 1` micro-steps with
RESULT OK and DONE = n; the receive buffer then holds the `n` received units in order, every other byte reads as before, and
of the `n` transmitted units exactly the last carries the marker. The end state is final (R249). That its last micro-step is
one of its own is log 13, and that no other agent has a turn is a premise (R291). -/
def Obligations.TransferCompletes : Prop :=
  ∀ (s : State) (wide txv rxv : Bool) (us restU : List (BitVec 16)) (restS : List Bool),
    Started wide txv rxv s → Admitted wide txv rxv s → us.length = s.opa2.toNat → s.units = us ++ restU →
    s.samples = List.replicate (2 * s.opa2.toNat) true ++ restS →
    ∃ (t : State) (es : List Event), core.run (4 * s.opa2.toNat + 1) s = .next t ∧
      final t = true ∧ t.phase = .idle ∧ t.result = 0x00000000#32 ∧ t.done = s.opa2 ∧ t.session = s.session ∧
      t.ctrl = s.ctrl ∧ t.div = s.div ∧ t.cslines = s.cslines ∧
      (rxv = true → ∀ k (h : k < us.length), readUnit wide t.mem (addrOf wide s.opa1 k) = cutUnit wide us[k]) ∧
      (∀ x, (rxv = false ∨ x < s.opa1.toNat ∨ addrOf wide s.opa1 s.opa2.toNat ≤ x) →
        Memory.read t.mem x = Memory.read s.mem x) ∧
      t.trace = s.trace ++ es ∧
      (s.opa2 ≠ 0#32 → txMarks es = List.replicate (s.opa2.toNat - 1) false ++ [true]) ∧
      (s.opa2 = 0#32 → es = [])

/-- R199, R76: under the environment law LOOPBACK, with both buffers given and disjoint, a transfer that ends with no timeout
leaves the transmit buffer's units in the receive buffer, for every length and all unit values. -/
def Obligations.LoopbackRoundTrip : Prop :=
  ∀ (s t : State) (wide : Bool) (es : List Event) (m : Nat),
    Started wide true true s →
    (addrOf wide s.opa0 s.opa2.toNat ≤ s.opa1.toNat ∨ addrOf wide s.opa1 s.opa2.toNat ≤ s.opa0.toNat) →
    core.run m s = .next t → final t = true → t.result = 0x00000000#32 →
    t.trace = s.trace ++ es → loopback es = true →
    ∀ k < s.opa2.toNat, readUnit wide t.mem (addrOf wide s.opa1 k) = readUnit wide s.mem (addrOf wide s.opa0 k)

/-- R198, R76: with no transmit buffer every unit sent is the all-ones filler of the width; under LOOPBACK, with a receive
buffer and no timeout, every unit of the receive buffer becomes that filler. -/
def Obligations.FillerIsSentAndLoopedBack : Prop :=
  ∀ (s t : State) (wide rxv : Bool) (es : List Event) (m : Nat),
    let ones : TUnit := if wide then .u16 0xFFFF#16 else .u8 0xFF#8
    Started wide false rxv s → core.run m s = .next t → t.trace = s.trace ++ es →
    (∀ v last, Event.tx v last ∈ es → v = ones) ∧
    (rxv = true → final t = true → t.result = 0x00000000#32 → loopback es = true →
      ∀ k < s.opa2.toNat, readUnit wide t.mem (addrOf wide s.opa1 k) = ones)

/-- R197: a transfer of `n >= 1` units that ends OK sends exactly `n` units, the last one alone with the marker; one that
times out sends no marked unit, unless it waits for the receive-ready of its final unit. -/
def Obligations.LastMarkerOnFinalUnit : Prop :=
  ∀ (s t : State) (wide txv rxv : Bool) (es : List Event) (m : Nat),
    Started wide txv rxv s → core.run m s = .next t → final t = true → t.trace = s.trace ++ es →
    (t.result = 0x00000000#32 → s.opa2 ≠ 0#32 → txMarks es = List.replicate (s.opa2.toNat - 1) false ++ [true]) ∧
    (t.result = 0x00000011#32 → true ∉ txMarks es) ∧
    (t.result = 0x00000021#32 → true ∈ txMarks es → t.done.toNat + 1 = s.opa2.toNat)

/-- R196: after a timeout at unit `k`, `DONE = k`, the receive buffer holds the `k` units received so far in order and every
other byte is as before; `k` units were emitted, and unit `k` too when the timeout is the receive-ready one. -/
def Obligations.PartialResultsOnTimeout : Prop :=
  ∀ (s t : State) (wide txv rxv : Bool) (es : List Event) (m : Nat),
    Started wide txv rxv s → core.run m s = .next t → final t = true → t.trace = s.trace ++ es →
    (t.result = 0x00000011#32 ∨ t.result = 0x00000021#32) →
    (rxUnits es).length = t.done.toNat ∧
    (rxv = true → ∀ j (h : j < (rxUnits es).length),
      readUnit wide t.mem (addrOf wide s.opa1 j) = (rxUnits es)[j]) ∧
    (∀ x, (rxv = false ∨ x < s.opa1.toNat ∨ addrOf wide s.opa1 t.done.toNat ≤ x) →
      Memory.read t.mem x = Memory.read s.mem x) ∧
    (t.result = 0x00000011#32 → (txMarks es).length = t.done.toNat) ∧
    (t.result = 0x00000021#32 → (txMarks es).length = t.done.toNat + 1)

/-- R190, R195, R196: a transfer waiting for transmit-ready whose polls all answer 0 ends after exactly TLIMIT polls, not
before, with RESULT = 0x11 in session ERROR; DONE, memory, the lines and the controller settings are as before and TLIMIT
failed polls are all it recorded. That the timeout's effects share the micro-step of poll TLIMIT, so that the command has
ended after exactly TLIMIT micro-steps, is the model's reading of R10 (DEDUCED, log 14). -/
def Obligations.TransmitTimeoutIsExact : Prop :=
  ∀ (s : State) (wide txv rxv : Bool) (restS : List Bool),
    claimable s = true → s.turns = [] → s.busy = true →
    decodeCommandFor s.params s.opw = .ok (xferInstr wide txv rxv) →
    s.phase = .pollTx → s.p = 0 → s.i.toNat < s.opa2.toNat → 1 ≤ s.params.tlimit →
    s.samples = List.replicate s.params.tlimit false ++ restS →
    (∀ k < s.params.tlimit, ∃ u, core.run k s = .next u ∧ u.busy = true) ∧
    ∃ t, core.run s.params.tlimit s = .next t ∧ final t = true ∧ t.result = 0x00000011#32 ∧ t.session = .error ∧
      t.done = s.done ∧ t.mem = s.mem ∧ t.ctrl = s.ctrl ∧ t.div = s.div ∧ t.cslines = s.cslines ∧
      t.trace = s.trace ++ List.replicate s.params.tlimit (.poll .txRdy false)

/-- R41, R121, R190: no command blocks for ever, whatever the PHY answers. From every state of the invariant with a transfer
or a deselect in progress and no other agent moving, the command has ended, or a fault ended the run, within the micro-steps
R41 gives. An ended command leaves a final state (R249). (The other commands and an illegal word end in one micro-step:
FirstInit, ConfigureApplies, IllegalWordEnds, ...) -/
def Obligations.CommandsEnd : Prop :=
  ∀ s : State, Invariant s → claimable s = true → s.phase ≠ .idle → s.turns = [] →
    ∃ k t, core.run k s = .next t ∧ (final t = true ∨ t.faultMark ≠ none) ∧
      ((s.phase = .pollDrain ∨ s.phase = .finishDeselect) → k ≤ s.params.tlimit + 1) ∧
      ((s.phase = .pollTx ∨ s.phase = .emit ∨ s.phase = .pollRx ∨ s.phase = .recv) →
        k ≤ 2 * s.opa2.toNat * (s.params.tlimit + 1) + 1)
end

