-- ==== Sys2Proof/Laws/Encoding.lean ====
section
/-!
SUPPORT. The bits of an assembled command word, and its fields (30_encoding.md R96, R102).
-/

namespace Sys2Proof

/-- Words with equal bits are equal. -/
theorem word_ext {a b : Word} (h : ∀ i : Fin 32, a.getLsbD i = b.getLsbD i) : a = b :=
  BitVec.eq_of_getLsbD_eq fun i hi => h ⟨i, hi⟩

/-- Every bit of an assembled word (R96). -/
theorem getLsbD_assemble (op : BitVec 4) (m : BitVec 2) (x : Bool) (c b : BitVec 8) (t r : Bool) (i : Fin 32) :
    (assemble op m x c b t r).getLsbD i =
      if i.1 < 4 then op.getLsbD i
      else if i.1 < 6 then m.getLsbD (i.1 - 4)
      else if i.1 = 6 then x
      else if i.1 = 7 then false
      else if i.1 < 16 then c.getLsbD (i.1 - 8)
      else if i.1 < 24 then b.getLsbD (i.1 - 16)
      else if i.1 = 24 then t
      else if i.1 = 25 then r
      else false := by
  have h : (assemble op m x c b t r).getLsbD i = BitVec.getLsbD (w := 6 + 1 + 1 + 8 + 8 + 1 + 1 + 2 + 4)
    (0#6 ++ BitVec.ofBool r ++ BitVec.ofBool t ++ b ++ c ++ 0#1 ++ BitVec.ofBool x ++ m ++ op) i := rfl
  rw [h]
  simp only [BitVec.getLsbD_append]
  fin_cases i <;> simp

theorem fieldOp_assemble (op : BitVec 4) (m : BitVec 2) (x : Bool) (c b : BitVec 8) (t r : Bool) :
    fieldOp (assemble op m x c b t r) = op := by
  refine BitVec.eq_of_getLsbD_eq fun i hi => ?_
  simp only [fieldOp, BitVec.getLsbD_extractLsb', hi, decide_true, Bool.true_and]
  rw [getLsbD_assemble op m x c b t r ⟨0 + i, by omega⟩]
  simp [hi]

theorem fieldMode_assemble (op : BitVec 4) (m : BitVec 2) (x : Bool) (c b : BitVec 8) (t r : Bool) :
    fieldMode (assemble op m x c b t r) = m := by
  refine BitVec.eq_of_getLsbD_eq fun i hi => ?_
  simp only [fieldMode, BitVec.getLsbD_extractLsb', hi, decide_true, Bool.true_and]
  rw [getLsbD_assemble op m x c b t r ⟨4 + i, by omega⟩]
  simp [show 4 + i < 6 by omega]

theorem fieldCsid_assemble (op : BitVec 4) (m : BitVec 2) (x : Bool) (c b : BitVec 8) (t r : Bool) :
    fieldCsid (assemble op m x c b t r) = c := by
  refine BitVec.eq_of_getLsbD_eq fun i hi => ?_
  simp only [fieldCsid, BitVec.getLsbD_extractLsb', hi, decide_true, Bool.true_and]
  rw [getLsbD_assemble op m x c b t r ⟨8 + i, by omega⟩]
  simp [show ¬ 8 + i < 4 by omega, show ¬ 8 + i < 6 by omega, show 8 + i ≠ 6 by omega, show 8 + i ≠ 7 by omega,
    show 8 + i < 16 by omega]

theorem fieldWbits_assemble (op : BitVec 4) (m : BitVec 2) (x : Bool) (c b : BitVec 8) (t r : Bool) :
    fieldWbits (assemble op m x c b t r) = b := by
  refine BitVec.eq_of_getLsbD_eq fun i hi => ?_
  simp only [fieldWbits, BitVec.getLsbD_extractLsb', hi, decide_true, Bool.true_and]
  rw [getLsbD_assemble op m x c b t r ⟨16 + i, by omega⟩]
  simp [show ¬ 16 + i < 4 by omega, show ¬ 16 + i < 6 by omega, show 16 + i ≠ 6 by omega, show 16 + i ≠ 7 by omega,
    show ¬ 16 + i < 16 by omega, show 16 + i < 24 by omega]

theorem fieldW16_assemble (op : BitVec 4) (m : BitVec 2) (x : Bool) (c b : BitVec 8) (t r : Bool) :
    fieldW16 (assemble op m x c b t r) = x :=
  getLsbD_assemble op m x c b t r 6

theorem fieldTxv_assemble (op : BitVec 4) (m : BitVec 2) (x : Bool) (c b : BitVec 8) (t r : Bool) :
    fieldTxv (assemble op m x c b t r) = t :=
  getLsbD_assemble op m x c b t r 24

theorem fieldRxv_assemble (op : BitVec 4) (m : BitVec 2) (x : Bool) (c b : BitVec 8) (t r : Bool) :
    fieldRxv (assemble op m x c b t r) = r :=
  getLsbD_assemble op m x c b t r 25

/-- A word on a row whose mask covers OP has the row's OP (R100). -/
theorem fieldOp_of_and {w mask value : Word} (h : w &&& mask = value) (hm : mask &&& 0xF#32 = 0xF#32) :
    fieldOp w = fieldOp value := by
  have e : w &&& 0xF#32 = value &&& 0xF#32 := by rw [← h, BitVec.and_assoc, hm]
  have k : ∀ v : Word, fieldOp v = fieldOp (v &&& 0xF#32) := by
    intro v
    refine BitVec.eq_of_getLsbD_eq fun i hi => ?_
    have : i = 0 ∨ i = 1 ∨ i = 2 ∨ i = 3 := by omega
    rcases this with rfl | rfl | rfl | rfl <;> simp [fieldOp]
  rw [k w, e, ← k]

/-- Every row's mask covers OP (R100). -/
theorem commandRows_op : ∀ r ∈ commandRows, r.mask &&& 0xF#32 = 0xF#32 := by decide

/-- No two rows have the same OP (R99). -/
theorem commandRows_op_injective : ∀ r ∈ commandRows, ∀ q ∈ commandRows, fieldOp r.value = fieldOp q.value → r = q := by
  decide

/-- A word that decodes to a command is on a row, and its fields are the word's (R100, R102). -/
theorem decodeCommand_ok {w : Word} {i : Instr} (h : decodeCommand w = .ok i) :
    ∃ r ∈ commandRows, w &&& r.mask = r.value ∧ i = r.command.instr w := by
  unfold decodeCommand at h
  split at h
  · rename_i r hr
    exact ⟨r, List.mem_of_find?_eq_some hr, by simpa [CommandRow.spells] using List.find?_some hr, by simpa using h.symm⟩
  · split at h <;> cases h

/-- A word on a row decodes to the row's command (R100). -/
theorem decodeCommand_of_row {w : Word} {r : CommandRow} (hr : r ∈ commandRows) (h : w &&& r.mask = r.value) :
    decodeCommand w = .ok (r.command.instr w) := by
  obtain ⟨q, hq⟩ : ∃ q, commandRows.find? (fun r => r.spells w) = some q :=
    Option.isSome_iff_exists.1 (List.find?_isSome.2 ⟨r, hr, by simpa [CommandRow.spells] using h⟩)
  have hm := List.mem_of_find?_eq_some hq
  have hw : w &&& q.mask = q.value := by simpa [CommandRow.spells] using List.find?_some hq
  have e : q = r := commandRows_op_injective q hm r hr
    ((fieldOp_of_and hw (commandRows_op q hm)).symm.trans (fieldOp_of_and h (commandRows_op r hr)))
  rw [decodeCommand, hq, e]

/-- Decoding under parameters: the row's command, if it is present (R99, R100). -/
theorem decodeCommandFor_ok {p : Params} {w : Word} {i : Instr} :
    decodeCommandFor p w = .ok i ↔ decodeCommand w = .ok i ∧ i.present p = true := by
  unfold decodeCommandFor
  cases h : decodeCommand w with
  | ok j =>
    by_cases hp : j.present p = true
    · simp only [hp, if_true, Decoded.ok.injEq]
      exact ⟨fun e => ⟨e, e ▸ hp⟩, fun e => e.1⟩
    · simp only [hp, Bool.false_eq_true, if_false]
      exact ⟨nofun, fun e => absurd (Decoded.ok.inj e.1 ▸ e.2) hp⟩
  | reject r => exact ⟨nofun, fun e => nomatch e.1⟩

/-- What decodes is a command, its fields taken from the word (R100, R102). -/
theorem decodeCommandFor_instr {p : Params} {w : Word} {i : Instr} (h : decodeCommandFor p w = .ok i) :
    ∃ c : Command, i = c.instr w :=
  let ⟨r, _, _, e⟩ := decodeCommand_ok (decodeCommandFor_ok.1 h).1
  ⟨r.command, e⟩

/-- An assembled word is on a row if its bits under the row's mask are the row's. -/
theorem assemble_on_row {op : BitVec 4} {m : BitVec 2} {x : Bool} {c b : BitVec 8} {t r : Bool} {mask value : Word}
    (h : ∀ i : Fin 32, ((assemble op m x c b t r).getLsbD i && mask.getLsbD i) = value.getLsbD i) :
    assemble op m x c b t r &&& mask = value :=
  word_ext fun i => by rw [BitVec.getLsbD_and]; exact h i

end Sys2Proof
end

