-- ==== Sys2Proof/Laws/Memory.lean ====
section
/-!
SUPPORT. Host memory: a read after a write, a write's frame, and that every memory operation keeps the canonical form.
-/

namespace Sys2Proof.Machine

theorem Memory.read_of_wfFrom {lo : Nat} {m : List Host.Cell} (h : Memory.wfFrom lo m = true) {a : Nat} (ha : a < lo) :
    Memory.read m a = Config.unlistedByte := by
  induction m generalizing lo with
  | nil => rfl
  | cons c rest ih =>
    obtain ⟨k, v⟩ := c
    simp only [Memory.wfFrom, Bool.and_eq_true, decide_eq_true_eq] at h
    rw [Memory.read, if_neg (by omega)]
    exact ih h.2 (by omega)

theorem Memory.wfFrom_mono {lo lo' : Nat} {m : List Host.Cell} (hle : lo' ≤ lo) (h : Memory.wfFrom lo m = true) :
    Memory.wfFrom lo' m = true := by
  cases m with
  | nil => rfl
  | cons c rest =>
    simp only [Memory.wfFrom, Bool.and_eq_true, decide_eq_true_eq] at h ⊢
    exact ⟨⟨by omega, h.1.2⟩, h.2⟩

/-- A write leaves every other address alone, in any memory. -/
theorem Memory.read_write_other (m : List Host.Cell) (a : Nat) (b : Byte) {x : Nat} (hx : x ≠ a) :
    Memory.read (Memory.write m a b) x = Memory.read m x := by
  induction m with
  | nil =>
    unfold Memory.write
    split
    · rfl
    · simp [Memory.read, Ne.symm hx]
  | cons c rest ih =>
    obtain ⟨k, v⟩ := c
    unfold Memory.write
    split
    · split
      · rfl
      · simp [Memory.read, Ne.symm hx]
    · split
      · rename_i h
        subst h
        split <;> simp [Memory.read, Ne.symm hx]
      · simp only [Memory.read, ih]

/-- A read of the written address gives the byte written, in a memory in canonical form. -/
theorem Memory.read_write_same_from {lo : Nat} {m : List Host.Cell} (h : Memory.wfFrom lo m = true) (a : Nat) (b : Byte) :
    Memory.read (Memory.write m a b) a = b := by
  induction m generalizing lo with
  | nil =>
    unfold Memory.write
    split
    · rename_i hb; simp [Memory.read, hb]
    · simp [Memory.read]
  | cons c rest ih =>
    obtain ⟨k, v⟩ := c
    simp only [Memory.wfFrom, Bool.and_eq_true, decide_eq_true_eq] at h
    unfold Memory.write
    split
    · rename_i hk
      split
      · rename_i hb
        rw [Memory.read, if_neg (by omega), hb]
        exact Memory.read_of_wfFrom h.2 (by omega)
      · simp [Memory.read]
    · split
      · rename_i hk
        subst hk
        split
        · rename_i hb
          rw [hb]
          exact Memory.read_of_wfFrom h.2 (by omega)
        · simp [Memory.read]
      · rename_i h1 h2
        rw [Memory.read, if_neg (Ne.symm h2)]
        exact ih h.2

theorem Memory.read_write_same {m : List Host.Cell} (h : Memory.wf m = true) (a : Nat) (b : Byte) :
    Memory.read (Memory.write m a b) a = b :=
  Memory.read_write_same_from h a b

theorem Memory.wfFrom_write {lo : Nat} {m : List Host.Cell} (h : Memory.wfFrom lo m = true) {a : Nat} (ha : lo ≤ a)
    (b : Byte) : Memory.wfFrom lo (Memory.write m a b) = true := by
  induction m generalizing lo with
  | nil =>
    unfold Memory.write
    split
    · rfl
    · rename_i hb; simp [Memory.wfFrom, ha, hb]
  | cons c rest ih =>
    obtain ⟨k, v⟩ := c
    simp only [Memory.wfFrom, Bool.and_eq_true, decide_eq_true_eq] at h
    unfold Memory.write
    split
    · rename_i hk
      split
      · simp [Memory.wfFrom, h]
      · rename_i hb
        simp only [Memory.wfFrom, Bool.and_eq_true, decide_eq_true_eq]
        exact ⟨⟨ha, hb⟩, ⟨by omega, h.1.2⟩, h.2⟩
    · split
      · rename_i hk
        subst hk
        split
        · exact Memory.wfFrom_mono (by omega) h.2
        · rename_i hb; simp [Memory.wfFrom, h, hb]
      · simp only [Memory.wfFrom, Bool.and_eq_true, decide_eq_true_eq]
        exact ⟨h.1, ih h.2 (by omega)⟩

/-- Writing a byte keeps the canonical form. -/
theorem Memory.wf_write {m : List Host.Cell} (h : Memory.wf m = true) (a : Nat) (b : Byte) :
    Memory.wf (Memory.write m a b) = true :=
  Memory.wfFrom_write h (Nat.zero_le a) b

/-- Writing two bytes keeps the canonical form. -/
theorem Memory.wf_write2 {m : List Host.Cell} (h : Memory.wf m = true) (a : Nat) (v : BitVec 16) :
    Memory.wf (Memory.write2 m a v) = true :=
  Memory.wf_write (Memory.wf_write h _ _) _ _

/-- Writing a run of bytes keeps the canonical form. -/
theorem Memory.wf_writeBytes {m : List Host.Cell} (h : Memory.wf m = true) (a n v : Nat) :
    Memory.wf (Memory.writeBytes m a n v) = true := by
  induction n generalizing m a v with
  | zero => exact h
  | succ n ih => exact ih (Memory.wf_write h _ _) _ _

/-- Every listed address after a write was listed before or is the one written. -/
theorem Memory.mem_write {m : List Host.Cell} {a : Nat} {b : Byte} {c : Host.Cell}
    (h : c ∈ Memory.write m a b) : c ∈ m ∨ c.1 = a := by
  induction m with
  | nil =>
    unfold Memory.write at h
    split at h <;> simp_all
  | cons d rest ih =>
    obtain ⟨k, v⟩ := d
    unfold Memory.write at h
    split at h
    · split at h
      · exact .inl h
      · rcases List.mem_cons.1 h with h | h
        · exact .inr (by simp [h])
        · exact .inl h
    · split at h
      · split at h
        · exact .inl (List.mem_cons_of_mem _ h)
        · rcases List.mem_cons.1 h with h | h
          · exact .inr (by simp [h])
          · exact .inl (List.mem_cons_of_mem _ h)
      · rcases List.mem_cons.1 h with h | h
        · exact .inl (by simp [h])
        · exact (ih h).imp_left (List.mem_cons_of_mem _)

/-- A write inside the address space keeps memory inside it. -/
theorem Memory.bound_write {m : List Host.Cell} {n a : Nat} (h : ∀ c ∈ m, c.1 < n) (ha : a < n) (b : Byte) :
    ∀ c ∈ Memory.write m a b, c.1 < n := fun c hc =>
  (Memory.mem_write hc).elim (h c) (fun e => e ▸ ha)

/-- Two bytes written leave every other address alone. -/
theorem Memory.read_write2_other (m : List Host.Cell) (a : Nat) (v : BitVec 16) {x : Nat} (h0 : x ≠ a) (h1 : x ≠ a + 1) :
    Memory.read (Memory.write2 m a v) x = Memory.read m x := by
  rw [Memory.write2, Memory.read_write_other _ _ _ h1, Memory.read_write_other _ _ _ h0]

/-- Two bytes written read back as the unit written. -/
theorem Memory.read2_write2 {m : List Host.Cell} (h : Memory.wf m = true) (a : Nat) (v : BitVec 16) :
    Memory.read2 (Memory.write2 m a v) a = v := by
  rw [Memory.read2, Memory.write2, Memory.read_write_same (Memory.wf_write h _ _),
    Memory.read_write_other _ _ _ (by omega), Memory.read_write_same h]
  ext i hi
  simp only [BitVec.getElem_append, BitVec.getElem_extractLsb']
  split
  · simp [BitVec.getLsbD_eq_getElem, hi]
  · rw [show 8 + (i - 8) = i by omega, BitVec.getLsbD_eq_getElem]

/-- A run of bytes read is the bytes at its addresses. -/
theorem Memory.readBytes_eq_map (m : List Host.Cell) (a n : Nat) :
    Memory.readBytes m a n = (List.range n).map fun k => Memory.read m (a + k) := by
  induction n generalizing a with
  | zero => rfl
  | succ n ih =>
    rw [Memory.readBytes, ih, List.range_succ_eq_map, List.map_cons, List.map_map]
    exact congrArg _ (List.map_congr_left fun k _ => congrArg _ (by simp; omega))

/-- A run of bytes written leaves every other address alone. -/
theorem Memory.read_writeBytes_other (m : List Host.Cell) (a n v : Nat) {x : Nat} (h : x < a ∨ a + n ≤ x) :
    Memory.read (Memory.writeBytes m a n v) x = Memory.read m x := by
  induction n generalizing m a v with
  | zero => rfl
  | succ n ih => rw [Memory.writeBytes, ih _ _ _ (by omega), Memory.read_write_other _ _ _ (by omega)]

/-- A run of bytes written reads back as the bytes of the number, the low byte at the lowest address. -/
theorem Memory.read_writeBytes_same {m : List Host.Cell} (h : Memory.wf m = true) (a n v : Nat) {k : Nat} (hk : k < n) :
    Memory.read (Memory.writeBytes m a n v) (a + k) = BitVec.ofNat 8 (v / 256 ^ k) := by
  induction n generalizing m a v k with
  | zero => exact absurd hk (Nat.not_lt_zero k)
  | succ n ih =>
    cases k with
    | zero =>
      rw [Memory.writeBytes, Memory.read_writeBytes_other _ _ _ _ (by omega), Nat.add_zero, Memory.read_write_same h]
      simp
    | succ k =>
      have := ih (Memory.wf_write h a (BitVec.ofNat 8 v)) (a + 1) (v / 256) (Nat.lt_of_succ_lt_succ hk)
      rw [show a + (k + 1) = a + 1 + k by omega, Memory.writeBytes, this, Nat.div_div_eq_div_mul, Nat.pow_succ,
        Nat.mul_comm]

/-- A run of bytes written inside the address space keeps memory inside it. -/
theorem Memory.bound_writeBytes {m : List Host.Cell} {lim a n : Nat} (h : ∀ c ∈ m, c.1 < lim) (ha : a + n ≤ lim) (v : Nat) :
    ∀ c ∈ Memory.writeBytes m a n v, c.1 < lim := by
  induction n generalizing m a v with
  | zero => exact h
  | succ n ih => exact ih (Memory.bound_write h (by omega) _) (by omega) _

/-- What `Admit` accepts: an access inside the address space that a record accepts (R60, R61). -/
theorem admits_iff {p : Params} {a n : Nat} {d : Dir} :
    admits p a n d = true ↔ a + n ≤ Config.addressSpace ∧ ∃ r ∈ p.admission, AdmitRange.accepts r a n d = true := by
  simp only [admits, Bool.and_eq_true, decide_eq_true_eq, List.any_eq_true]

/-- An admitted access lies in the address space (R60, R61). -/
theorem admits_bound {p : Params} {a n : Nat} {d : Dir} (h : admits p a n d = true) : a + n ≤ Config.addressSpace :=
  (admits_iff.1 h).1

end Sys2Proof.Machine
end

