-- ==== Sys2Proof/Laws/State.lean ====
section
/-!
SUPPORT. One lemma per field per named update of State, so that no later proof unfolds a record update.
-/

namespace Sys2Proof.Machine

/-! ### record -/

@[simp] theorem record_params (e : Event) (s : State) : (record e s).params = s.params := rfl
@[simp] theorem record_cmd (e : Event) (s : State) : (record e s).cmd = s.cmd := rfl
@[simp] theorem record_arg0 (e : Event) (s : State) : (record e s).arg0 = s.arg0 := rfl
@[simp] theorem record_arg1 (e : Event) (s : State) : (record e s).arg1 = s.arg1 := rfl
@[simp] theorem record_arg2 (e : Event) (s : State) : (record e s).arg2 = s.arg2 := rfl
@[simp] theorem record_result (e : Event) (s : State) : (record e s).result = s.result := rfl
@[simp] theorem record_done (e : Event) (s : State) : (record e s).done = s.done := rfl
@[simp] theorem record_ctrl (e : Event) (s : State) : (record e s).ctrl = s.ctrl := rfl
@[simp] theorem record_div (e : Event) (s : State) : (record e s).div = s.div := rfl
@[simp] theorem record_cslines (e : Event) (s : State) : (record e s).cslines = s.cslines := rfl
@[simp] theorem record_lock (e : Event) (s : State) : (record e s).lock = s.lock := rfl
@[simp] theorem record_inited (e : Event) (s : State) : (record e s).inited = s.inited := rfl
@[simp] theorem record_owner (e : Event) (s : State) : (record e s).owner = s.owner := rfl
@[simp] theorem record_session (e : Event) (s : State) : (record e s).session = s.session := rfl
@[simp] theorem record_cfgId (e : Event) (s : State) : (record e s).cfgId = s.cfgId := rfl
@[simp] theorem record_selId (e : Event) (s : State) : (record e s).selId = s.selId := rfl
@[simp] theorem record_faultMark (e : Event) (s : State) : (record e s).faultMark = s.faultMark := rfl
@[simp] theorem record_refusedMark (e : Event) (s : State) : (record e s).refusedMark = s.refusedMark := rfl
@[simp] theorem record_busy (e : Event) (s : State) : (record e s).busy = s.busy := rfl
@[simp] theorem record_issuer (e : Event) (s : State) : (record e s).issuer = s.issuer := rfl
@[simp] theorem record_opw (e : Event) (s : State) : (record e s).opw = s.opw := rfl
@[simp] theorem record_opa0 (e : Event) (s : State) : (record e s).opa0 = s.opa0 := rfl
@[simp] theorem record_opa1 (e : Event) (s : State) : (record e s).opa1 = s.opa1 := rfl
@[simp] theorem record_opa2 (e : Event) (s : State) : (record e s).opa2 = s.opa2 := rfl
@[simp] theorem record_phase (e : Event) (s : State) : (record e s).phase = s.phase := rfl
@[simp] theorem record_i (e : Event) (s : State) : (record e s).i = s.i := rfl
@[simp] theorem record_p (e : Event) (s : State) : (record e s).p = s.p := rfl
@[simp] theorem record_drained (e : Event) (s : State) : (record e s).drained = s.drained := rfl
@[simp] theorem record_mem (e : Event) (s : State) : (record e s).mem = s.mem := rfl
@[simp] theorem record_trace (e : Event) (s : State) : (record e s).trace = s.trace ++ [e] := rfl
@[simp] theorem record_turns (e : Event) (s : State) : (record e s).turns = s.turns := rfl
@[simp] theorem record_caller (e : Event) (s : State) : (record e s).caller = s.caller := rfl
@[simp] theorem record_samples (e : Event) (s : State) : (record e s).samples = s.samples := rfl
@[simp] theorem record_units (e : Event) (s : State) : (record e s).units = s.units := rfl
@[simp] theorem record_draws (e : Event) (s : State) : (record e s).draws = s.draws := rfl
@[simp] theorem record_replies (e : Event) (s : State) : (record e s).replies = s.replies := rfl

/-! ### reply -/

@[simp] theorem reply_params (r : Reply) (s : State) : (reply r s).params = s.params := rfl
@[simp] theorem reply_cmd (r : Reply) (s : State) : (reply r s).cmd = s.cmd := rfl
@[simp] theorem reply_arg0 (r : Reply) (s : State) : (reply r s).arg0 = s.arg0 := rfl
@[simp] theorem reply_arg1 (r : Reply) (s : State) : (reply r s).arg1 = s.arg1 := rfl
@[simp] theorem reply_arg2 (r : Reply) (s : State) : (reply r s).arg2 = s.arg2 := rfl
@[simp] theorem reply_result (r : Reply) (s : State) : (reply r s).result = s.result := rfl
@[simp] theorem reply_done (r : Reply) (s : State) : (reply r s).done = s.done := rfl
@[simp] theorem reply_ctrl (r : Reply) (s : State) : (reply r s).ctrl = s.ctrl := rfl
@[simp] theorem reply_div (r : Reply) (s : State) : (reply r s).div = s.div := rfl
@[simp] theorem reply_cslines (r : Reply) (s : State) : (reply r s).cslines = s.cslines := rfl
@[simp] theorem reply_lock (r : Reply) (s : State) : (reply r s).lock = s.lock := rfl
@[simp] theorem reply_inited (r : Reply) (s : State) : (reply r s).inited = s.inited := rfl
@[simp] theorem reply_owner (r : Reply) (s : State) : (reply r s).owner = s.owner := rfl
@[simp] theorem reply_session (r : Reply) (s : State) : (reply r s).session = s.session := rfl
@[simp] theorem reply_cfgId (r : Reply) (s : State) : (reply r s).cfgId = s.cfgId := rfl
@[simp] theorem reply_selId (r : Reply) (s : State) : (reply r s).selId = s.selId := rfl
@[simp] theorem reply_faultMark (r : Reply) (s : State) : (reply r s).faultMark = s.faultMark := rfl
@[simp] theorem reply_refusedMark (r : Reply) (s : State) : (reply r s).refusedMark = s.refusedMark := rfl
@[simp] theorem reply_busy (r : Reply) (s : State) : (reply r s).busy = s.busy := rfl
@[simp] theorem reply_issuer (r : Reply) (s : State) : (reply r s).issuer = s.issuer := rfl
@[simp] theorem reply_opw (r : Reply) (s : State) : (reply r s).opw = s.opw := rfl
@[simp] theorem reply_opa0 (r : Reply) (s : State) : (reply r s).opa0 = s.opa0 := rfl
@[simp] theorem reply_opa1 (r : Reply) (s : State) : (reply r s).opa1 = s.opa1 := rfl
@[simp] theorem reply_opa2 (r : Reply) (s : State) : (reply r s).opa2 = s.opa2 := rfl
@[simp] theorem reply_phase (r : Reply) (s : State) : (reply r s).phase = s.phase := rfl
@[simp] theorem reply_i (r : Reply) (s : State) : (reply r s).i = s.i := rfl
@[simp] theorem reply_p (r : Reply) (s : State) : (reply r s).p = s.p := rfl
@[simp] theorem reply_drained (r : Reply) (s : State) : (reply r s).drained = s.drained := rfl
@[simp] theorem reply_mem (r : Reply) (s : State) : (reply r s).mem = s.mem := rfl
@[simp] theorem reply_trace (r : Reply) (s : State) : (reply r s).trace = s.trace := rfl
@[simp] theorem reply_turns (r : Reply) (s : State) : (reply r s).turns = s.turns := rfl
@[simp] theorem reply_caller (r : Reply) (s : State) : (reply r s).caller = s.caller := rfl
@[simp] theorem reply_samples (r : Reply) (s : State) : (reply r s).samples = s.samples := rfl
@[simp] theorem reply_units (r : Reply) (s : State) : (reply r s).units = s.units := rfl
@[simp] theorem reply_draws (r : Reply) (s : State) : (reply r s).draws = s.draws := rfl
@[simp] theorem reply_replies (r : Reply) (s : State) : (reply r s).replies = s.replies ++ [r] := rfl

/-! ### raise -/

@[simp] theorem raise_params (k : Fault) (s : State) : (raise k s).params = s.params := rfl
@[simp] theorem raise_cmd (k : Fault) (s : State) : (raise k s).cmd = s.cmd := rfl
@[simp] theorem raise_arg0 (k : Fault) (s : State) : (raise k s).arg0 = s.arg0 := rfl
@[simp] theorem raise_arg1 (k : Fault) (s : State) : (raise k s).arg1 = s.arg1 := rfl
@[simp] theorem raise_arg2 (k : Fault) (s : State) : (raise k s).arg2 = s.arg2 := rfl
@[simp] theorem raise_result (k : Fault) (s : State) : (raise k s).result = s.result := rfl
@[simp] theorem raise_done (k : Fault) (s : State) : (raise k s).done = s.done := rfl
@[simp] theorem raise_ctrl (k : Fault) (s : State) : (raise k s).ctrl = s.ctrl := rfl
@[simp] theorem raise_div (k : Fault) (s : State) : (raise k s).div = s.div := rfl
@[simp] theorem raise_cslines (k : Fault) (s : State) : (raise k s).cslines = s.cslines := rfl
@[simp] theorem raise_lock (k : Fault) (s : State) : (raise k s).lock = s.lock := rfl
@[simp] theorem raise_inited (k : Fault) (s : State) : (raise k s).inited = s.inited := rfl
@[simp] theorem raise_owner (k : Fault) (s : State) : (raise k s).owner = s.owner := rfl
@[simp] theorem raise_session (k : Fault) (s : State) : (raise k s).session = s.session := rfl
@[simp] theorem raise_cfgId (k : Fault) (s : State) : (raise k s).cfgId = s.cfgId := rfl
@[simp] theorem raise_selId (k : Fault) (s : State) : (raise k s).selId = s.selId := rfl
@[simp] theorem raise_faultMark (k : Fault) (s : State) : (raise k s).faultMark = some k := rfl
@[simp] theorem raise_refusedMark (k : Fault) (s : State) : (raise k s).refusedMark = s.refusedMark := rfl
@[simp] theorem raise_busy (k : Fault) (s : State) : (raise k s).busy = s.busy := rfl
@[simp] theorem raise_issuer (k : Fault) (s : State) : (raise k s).issuer = s.issuer := rfl
@[simp] theorem raise_opw (k : Fault) (s : State) : (raise k s).opw = s.opw := rfl
@[simp] theorem raise_opa0 (k : Fault) (s : State) : (raise k s).opa0 = s.opa0 := rfl
@[simp] theorem raise_opa1 (k : Fault) (s : State) : (raise k s).opa1 = s.opa1 := rfl
@[simp] theorem raise_opa2 (k : Fault) (s : State) : (raise k s).opa2 = s.opa2 := rfl
@[simp] theorem raise_phase (k : Fault) (s : State) : (raise k s).phase = s.phase := rfl
@[simp] theorem raise_i (k : Fault) (s : State) : (raise k s).i = s.i := rfl
@[simp] theorem raise_p (k : Fault) (s : State) : (raise k s).p = s.p := rfl
@[simp] theorem raise_drained (k : Fault) (s : State) : (raise k s).drained = s.drained := rfl
@[simp] theorem raise_mem (k : Fault) (s : State) : (raise k s).mem = s.mem := rfl
@[simp] theorem raise_trace (k : Fault) (s : State) : (raise k s).trace = s.trace := rfl
@[simp] theorem raise_turns (k : Fault) (s : State) : (raise k s).turns = s.turns := rfl
@[simp] theorem raise_caller (k : Fault) (s : State) : (raise k s).caller = s.caller := rfl
@[simp] theorem raise_samples (k : Fault) (s : State) : (raise k s).samples = s.samples := rfl
@[simp] theorem raise_units (k : Fault) (s : State) : (raise k s).units = s.units := rfl
@[simp] theorem raise_draws (k : Fault) (s : State) : (raise k s).draws = s.draws := rfl
@[simp] theorem raise_replies (k : Fault) (s : State) : (raise k s).replies = s.replies := rfl

/-! ### markRefused -/

@[simp] theorem markRefused_params (k : RefusalMark) (s : State) : (markRefused k s).params = s.params := rfl
@[simp] theorem markRefused_cmd (k : RefusalMark) (s : State) : (markRefused k s).cmd = s.cmd := rfl
@[simp] theorem markRefused_arg0 (k : RefusalMark) (s : State) : (markRefused k s).arg0 = s.arg0 := rfl
@[simp] theorem markRefused_arg1 (k : RefusalMark) (s : State) : (markRefused k s).arg1 = s.arg1 := rfl
@[simp] theorem markRefused_arg2 (k : RefusalMark) (s : State) : (markRefused k s).arg2 = s.arg2 := rfl
@[simp] theorem markRefused_result (k : RefusalMark) (s : State) : (markRefused k s).result = s.result := rfl
@[simp] theorem markRefused_done (k : RefusalMark) (s : State) : (markRefused k s).done = s.done := rfl
@[simp] theorem markRefused_ctrl (k : RefusalMark) (s : State) : (markRefused k s).ctrl = s.ctrl := rfl
@[simp] theorem markRefused_div (k : RefusalMark) (s : State) : (markRefused k s).div = s.div := rfl
@[simp] theorem markRefused_cslines (k : RefusalMark) (s : State) : (markRefused k s).cslines = s.cslines := rfl
@[simp] theorem markRefused_lock (k : RefusalMark) (s : State) : (markRefused k s).lock = s.lock := rfl
@[simp] theorem markRefused_inited (k : RefusalMark) (s : State) : (markRefused k s).inited = s.inited := rfl
@[simp] theorem markRefused_owner (k : RefusalMark) (s : State) : (markRefused k s).owner = s.owner := rfl
@[simp] theorem markRefused_session (k : RefusalMark) (s : State) : (markRefused k s).session = s.session := rfl
@[simp] theorem markRefused_cfgId (k : RefusalMark) (s : State) : (markRefused k s).cfgId = s.cfgId := rfl
@[simp] theorem markRefused_selId (k : RefusalMark) (s : State) : (markRefused k s).selId = s.selId := rfl
@[simp] theorem markRefused_faultMark (k : RefusalMark) (s : State) : (markRefused k s).faultMark = s.faultMark := rfl
@[simp] theorem markRefused_refusedMark (k : RefusalMark) (s : State) : (markRefused k s).refusedMark = some k := rfl
@[simp] theorem markRefused_busy (k : RefusalMark) (s : State) : (markRefused k s).busy = s.busy := rfl
@[simp] theorem markRefused_issuer (k : RefusalMark) (s : State) : (markRefused k s).issuer = s.issuer := rfl
@[simp] theorem markRefused_opw (k : RefusalMark) (s : State) : (markRefused k s).opw = s.opw := rfl
@[simp] theorem markRefused_opa0 (k : RefusalMark) (s : State) : (markRefused k s).opa0 = s.opa0 := rfl
@[simp] theorem markRefused_opa1 (k : RefusalMark) (s : State) : (markRefused k s).opa1 = s.opa1 := rfl
@[simp] theorem markRefused_opa2 (k : RefusalMark) (s : State) : (markRefused k s).opa2 = s.opa2 := rfl
@[simp] theorem markRefused_phase (k : RefusalMark) (s : State) : (markRefused k s).phase = s.phase := rfl
@[simp] theorem markRefused_i (k : RefusalMark) (s : State) : (markRefused k s).i = s.i := rfl
@[simp] theorem markRefused_p (k : RefusalMark) (s : State) : (markRefused k s).p = s.p := rfl
@[simp] theorem markRefused_drained (k : RefusalMark) (s : State) : (markRefused k s).drained = s.drained := rfl
@[simp] theorem markRefused_mem (k : RefusalMark) (s : State) : (markRefused k s).mem = s.mem := rfl
@[simp] theorem markRefused_trace (k : RefusalMark) (s : State) : (markRefused k s).trace = s.trace := rfl
@[simp] theorem markRefused_turns (k : RefusalMark) (s : State) : (markRefused k s).turns = s.turns := rfl
@[simp] theorem markRefused_caller (k : RefusalMark) (s : State) : (markRefused k s).caller = s.caller := rfl
@[simp] theorem markRefused_samples (k : RefusalMark) (s : State) : (markRefused k s).samples = s.samples := rfl
@[simp] theorem markRefused_units (k : RefusalMark) (s : State) : (markRefused k s).units = s.units := rfl
@[simp] theorem markRefused_draws (k : RefusalMark) (s : State) : (markRefused k s).draws = s.draws := rfl
@[simp] theorem markRefused_replies (k : RefusalMark) (s : State) : (markRefused k s).replies = s.replies := rfl

/-! ### endCommand -/

@[simp] theorem endCommand_params (s : State) : (endCommand s).params = s.params := rfl
@[simp] theorem endCommand_cmd (s : State) : (endCommand s).cmd = s.cmd := rfl
@[simp] theorem endCommand_arg0 (s : State) : (endCommand s).arg0 = s.arg0 := rfl
@[simp] theorem endCommand_arg1 (s : State) : (endCommand s).arg1 = s.arg1 := rfl
@[simp] theorem endCommand_arg2 (s : State) : (endCommand s).arg2 = s.arg2 := rfl
@[simp] theorem endCommand_result (s : State) : (endCommand s).result = s.result := rfl
@[simp] theorem endCommand_done (s : State) : (endCommand s).done = s.done := rfl
@[simp] theorem endCommand_ctrl (s : State) : (endCommand s).ctrl = s.ctrl := rfl
@[simp] theorem endCommand_div (s : State) : (endCommand s).div = s.div := rfl
@[simp] theorem endCommand_cslines (s : State) : (endCommand s).cslines = s.cslines := rfl
@[simp] theorem endCommand_lock (s : State) : (endCommand s).lock = s.lock := rfl
@[simp] theorem endCommand_inited (s : State) : (endCommand s).inited = s.inited := rfl
@[simp] theorem endCommand_owner (s : State) : (endCommand s).owner = s.owner := rfl
@[simp] theorem endCommand_session (s : State) : (endCommand s).session = s.session := rfl
@[simp] theorem endCommand_cfgId (s : State) : (endCommand s).cfgId = s.cfgId := rfl
@[simp] theorem endCommand_selId (s : State) : (endCommand s).selId = s.selId := rfl
@[simp] theorem endCommand_faultMark (s : State) : (endCommand s).faultMark = s.faultMark := rfl
@[simp] theorem endCommand_refusedMark (s : State) : (endCommand s).refusedMark = s.refusedMark := rfl
@[simp] theorem endCommand_busy (s : State) : (endCommand s).busy = false := rfl
@[simp] theorem endCommand_issuer (s : State) : (endCommand s).issuer = s.issuer := rfl
@[simp] theorem endCommand_opw (s : State) : (endCommand s).opw = s.opw := rfl
@[simp] theorem endCommand_opa0 (s : State) : (endCommand s).opa0 = s.opa0 := rfl
@[simp] theorem endCommand_opa1 (s : State) : (endCommand s).opa1 = s.opa1 := rfl
@[simp] theorem endCommand_opa2 (s : State) : (endCommand s).opa2 = s.opa2 := rfl
@[simp] theorem endCommand_phase (s : State) : (endCommand s).phase = .idle := rfl
@[simp] theorem endCommand_i (s : State) : (endCommand s).i = s.i := rfl
@[simp] theorem endCommand_p (s : State) : (endCommand s).p = s.p := rfl
@[simp] theorem endCommand_drained (s : State) : (endCommand s).drained = s.drained := rfl
@[simp] theorem endCommand_mem (s : State) : (endCommand s).mem = s.mem := rfl
@[simp] theorem endCommand_trace (s : State) : (endCommand s).trace = s.trace := rfl
@[simp] theorem endCommand_turns (s : State) : (endCommand s).turns = s.turns := rfl
@[simp] theorem endCommand_caller (s : State) : (endCommand s).caller = s.caller := rfl
@[simp] theorem endCommand_samples (s : State) : (endCommand s).samples = s.samples := rfl
@[simp] theorem endCommand_units (s : State) : (endCommand s).units = s.units := rfl
@[simp] theorem endCommand_draws (s : State) : (endCommand s).draws = s.draws := rfl
@[simp] theorem endCommand_replies (s : State) :
    (endCommand s).replies = s.replies ++ [.written s.issuer] := rfl

/-! ### finish -/

@[simp] theorem finish_params (r : Word) (s : State) : (finish r s).params = s.params := rfl
@[simp] theorem finish_cmd (r : Word) (s : State) : (finish r s).cmd = s.cmd := rfl
@[simp] theorem finish_arg0 (r : Word) (s : State) : (finish r s).arg0 = s.arg0 := rfl
@[simp] theorem finish_arg1 (r : Word) (s : State) : (finish r s).arg1 = s.arg1 := rfl
@[simp] theorem finish_arg2 (r : Word) (s : State) : (finish r s).arg2 = s.arg2 := rfl
@[simp] theorem finish_result (r : Word) (s : State) : (finish r s).result = r := rfl
@[simp] theorem finish_done (r : Word) (s : State) : (finish r s).done = s.done := rfl
@[simp] theorem finish_ctrl (r : Word) (s : State) : (finish r s).ctrl = s.ctrl := rfl
@[simp] theorem finish_div (r : Word) (s : State) : (finish r s).div = s.div := rfl
@[simp] theorem finish_cslines (r : Word) (s : State) : (finish r s).cslines = s.cslines := rfl
@[simp] theorem finish_lock (r : Word) (s : State) : (finish r s).lock = s.lock := rfl
@[simp] theorem finish_inited (r : Word) (s : State) : (finish r s).inited = s.inited := rfl
@[simp] theorem finish_owner (r : Word) (s : State) : (finish r s).owner = s.owner := rfl
@[simp] theorem finish_session (r : Word) (s : State) : (finish r s).session = s.session := rfl
@[simp] theorem finish_cfgId (r : Word) (s : State) : (finish r s).cfgId = s.cfgId := rfl
@[simp] theorem finish_selId (r : Word) (s : State) : (finish r s).selId = s.selId := rfl
@[simp] theorem finish_faultMark (r : Word) (s : State) : (finish r s).faultMark = s.faultMark := rfl
@[simp] theorem finish_refusedMark (r : Word) (s : State) : (finish r s).refusedMark = s.refusedMark := rfl
@[simp] theorem finish_busy (r : Word) (s : State) : (finish r s).busy = false := rfl
@[simp] theorem finish_issuer (r : Word) (s : State) : (finish r s).issuer = s.issuer := rfl
@[simp] theorem finish_opw (r : Word) (s : State) : (finish r s).opw = s.opw := rfl
@[simp] theorem finish_opa0 (r : Word) (s : State) : (finish r s).opa0 = s.opa0 := rfl
@[simp] theorem finish_opa1 (r : Word) (s : State) : (finish r s).opa1 = s.opa1 := rfl
@[simp] theorem finish_opa2 (r : Word) (s : State) : (finish r s).opa2 = s.opa2 := rfl
@[simp] theorem finish_phase (r : Word) (s : State) : (finish r s).phase = .idle := rfl
@[simp] theorem finish_i (r : Word) (s : State) : (finish r s).i = s.i := rfl
@[simp] theorem finish_p (r : Word) (s : State) : (finish r s).p = s.p := rfl
@[simp] theorem finish_drained (r : Word) (s : State) : (finish r s).drained = s.drained := rfl
@[simp] theorem finish_mem (r : Word) (s : State) : (finish r s).mem = s.mem := rfl
@[simp] theorem finish_trace (r : Word) (s : State) : (finish r s).trace = s.trace := rfl
@[simp] theorem finish_turns (r : Word) (s : State) : (finish r s).turns = s.turns := rfl
@[simp] theorem finish_caller (r : Word) (s : State) : (finish r s).caller = s.caller := rfl
@[simp] theorem finish_samples (r : Word) (s : State) : (finish r s).samples = s.samples := rfl
@[simp] theorem finish_units (r : Word) (s : State) : (finish r s).units = s.units := rfl
@[simp] theorem finish_draws (r : Word) (s : State) : (finish r s).draws = s.draws := rfl
@[simp] theorem finish_replies (r : Word) (s : State) :
    (finish r s).replies = s.replies ++ [.written s.issuer] := rfl

/-! ### driveCS -/

@[simp] theorem driveCS_params (n : Nat) (l : Bool) (s : State) : (driveCS n l s).params = s.params := rfl
@[simp] theorem driveCS_cmd (n : Nat) (l : Bool) (s : State) : (driveCS n l s).cmd = s.cmd := rfl
@[simp] theorem driveCS_arg0 (n : Nat) (l : Bool) (s : State) : (driveCS n l s).arg0 = s.arg0 := rfl
@[simp] theorem driveCS_arg1 (n : Nat) (l : Bool) (s : State) : (driveCS n l s).arg1 = s.arg1 := rfl
@[simp] theorem driveCS_arg2 (n : Nat) (l : Bool) (s : State) : (driveCS n l s).arg2 = s.arg2 := rfl
@[simp] theorem driveCS_result (n : Nat) (l : Bool) (s : State) : (driveCS n l s).result = s.result := rfl
@[simp] theorem driveCS_done (n : Nat) (l : Bool) (s : State) : (driveCS n l s).done = s.done := rfl
@[simp] theorem driveCS_ctrl (n : Nat) (l : Bool) (s : State) : (driveCS n l s).ctrl = s.ctrl := rfl
@[simp] theorem driveCS_div (n : Nat) (l : Bool) (s : State) : (driveCS n l s).div = s.div := rfl
@[simp] theorem driveCS_cslines (n : Nat) (l : Bool) (s : State) : (driveCS n l s).cslines = setBit s.cslines n l := rfl
@[simp] theorem driveCS_lock (n : Nat) (l : Bool) (s : State) : (driveCS n l s).lock = s.lock := rfl
@[simp] theorem driveCS_inited (n : Nat) (l : Bool) (s : State) : (driveCS n l s).inited = s.inited := rfl
@[simp] theorem driveCS_owner (n : Nat) (l : Bool) (s : State) : (driveCS n l s).owner = s.owner := rfl
@[simp] theorem driveCS_session (n : Nat) (l : Bool) (s : State) : (driveCS n l s).session = s.session := rfl
@[simp] theorem driveCS_cfgId (n : Nat) (l : Bool) (s : State) : (driveCS n l s).cfgId = s.cfgId := rfl
@[simp] theorem driveCS_selId (n : Nat) (l : Bool) (s : State) : (driveCS n l s).selId = s.selId := rfl
@[simp] theorem driveCS_faultMark (n : Nat) (l : Bool) (s : State) : (driveCS n l s).faultMark = s.faultMark := rfl
@[simp] theorem driveCS_refusedMark (n : Nat) (l : Bool) (s : State) : (driveCS n l s).refusedMark = s.refusedMark := rfl
@[simp] theorem driveCS_busy (n : Nat) (l : Bool) (s : State) : (driveCS n l s).busy = s.busy := rfl
@[simp] theorem driveCS_issuer (n : Nat) (l : Bool) (s : State) : (driveCS n l s).issuer = s.issuer := rfl
@[simp] theorem driveCS_opw (n : Nat) (l : Bool) (s : State) : (driveCS n l s).opw = s.opw := rfl
@[simp] theorem driveCS_opa0 (n : Nat) (l : Bool) (s : State) : (driveCS n l s).opa0 = s.opa0 := rfl
@[simp] theorem driveCS_opa1 (n : Nat) (l : Bool) (s : State) : (driveCS n l s).opa1 = s.opa1 := rfl
@[simp] theorem driveCS_opa2 (n : Nat) (l : Bool) (s : State) : (driveCS n l s).opa2 = s.opa2 := rfl
@[simp] theorem driveCS_phase (n : Nat) (l : Bool) (s : State) : (driveCS n l s).phase = s.phase := rfl
@[simp] theorem driveCS_i (n : Nat) (l : Bool) (s : State) : (driveCS n l s).i = s.i := rfl
@[simp] theorem driveCS_p (n : Nat) (l : Bool) (s : State) : (driveCS n l s).p = s.p := rfl
@[simp] theorem driveCS_drained (n : Nat) (l : Bool) (s : State) : (driveCS n l s).drained = s.drained := rfl
@[simp] theorem driveCS_mem (n : Nat) (l : Bool) (s : State) : (driveCS n l s).mem = s.mem := rfl
@[simp] theorem driveCS_trace (n : Nat) (l : Bool) (s : State) : (driveCS n l s).trace = s.trace ++ [.cs n l] := rfl
@[simp] theorem driveCS_turns (n : Nat) (l : Bool) (s : State) : (driveCS n l s).turns = s.turns := rfl
@[simp] theorem driveCS_caller (n : Nat) (l : Bool) (s : State) : (driveCS n l s).caller = s.caller := rfl
@[simp] theorem driveCS_samples (n : Nat) (l : Bool) (s : State) : (driveCS n l s).samples = s.samples := rfl
@[simp] theorem driveCS_units (n : Nat) (l : Bool) (s : State) : (driveCS n l s).units = s.units := rfl
@[simp] theorem driveCS_draws (n : Nat) (l : Bool) (s : State) : (driveCS n l s).draws = s.draws := rfl
@[simp] theorem driveCS_replies (n : Nat) (l : Bool) (s : State) : (driveCS n l s).replies = s.replies := rfl

/-! ### phyApply -/

@[simp] theorem phyApply_params (s : State) : (phyApply s).params = s.params := rfl
@[simp] theorem phyApply_cmd (s : State) : (phyApply s).cmd = s.cmd := rfl
@[simp] theorem phyApply_arg0 (s : State) : (phyApply s).arg0 = s.arg0 := rfl
@[simp] theorem phyApply_arg1 (s : State) : (phyApply s).arg1 = s.arg1 := rfl
@[simp] theorem phyApply_arg2 (s : State) : (phyApply s).arg2 = s.arg2 := rfl
@[simp] theorem phyApply_result (s : State) : (phyApply s).result = s.result := rfl
@[simp] theorem phyApply_done (s : State) : (phyApply s).done = s.done := rfl
@[simp] theorem phyApply_ctrl (s : State) : (phyApply s).ctrl = s.ctrl := rfl
@[simp] theorem phyApply_div (s : State) : (phyApply s).div = s.div := rfl
@[simp] theorem phyApply_cslines (s : State) : (phyApply s).cslines = s.cslines := rfl
@[simp] theorem phyApply_lock (s : State) : (phyApply s).lock = s.lock := rfl
@[simp] theorem phyApply_inited (s : State) : (phyApply s).inited = s.inited := rfl
@[simp] theorem phyApply_owner (s : State) : (phyApply s).owner = s.owner := rfl
@[simp] theorem phyApply_session (s : State) : (phyApply s).session = s.session := rfl
@[simp] theorem phyApply_cfgId (s : State) : (phyApply s).cfgId = s.cfgId := rfl
@[simp] theorem phyApply_selId (s : State) : (phyApply s).selId = s.selId := rfl
@[simp] theorem phyApply_faultMark (s : State) : (phyApply s).faultMark = s.faultMark := rfl
@[simp] theorem phyApply_refusedMark (s : State) : (phyApply s).refusedMark = s.refusedMark := rfl
@[simp] theorem phyApply_busy (s : State) : (phyApply s).busy = s.busy := rfl
@[simp] theorem phyApply_issuer (s : State) : (phyApply s).issuer = s.issuer := rfl
@[simp] theorem phyApply_opw (s : State) : (phyApply s).opw = s.opw := rfl
@[simp] theorem phyApply_opa0 (s : State) : (phyApply s).opa0 = s.opa0 := rfl
@[simp] theorem phyApply_opa1 (s : State) : (phyApply s).opa1 = s.opa1 := rfl
@[simp] theorem phyApply_opa2 (s : State) : (phyApply s).opa2 = s.opa2 := rfl
@[simp] theorem phyApply_phase (s : State) : (phyApply s).phase = s.phase := rfl
@[simp] theorem phyApply_i (s : State) : (phyApply s).i = s.i := rfl
@[simp] theorem phyApply_p (s : State) : (phyApply s).p = s.p := rfl
@[simp] theorem phyApply_drained (s : State) : (phyApply s).drained = s.drained := rfl
@[simp] theorem phyApply_mem (s : State) : (phyApply s).mem = s.mem := rfl
@[simp] theorem phyApply_trace (s : State) :
    (phyApply s).trace = s.trace ++ [.apply s.ctrl s.div] := rfl
@[simp] theorem phyApply_turns (s : State) : (phyApply s).turns = s.turns := rfl
@[simp] theorem phyApply_caller (s : State) : (phyApply s).caller = s.caller := rfl
@[simp] theorem phyApply_samples (s : State) : (phyApply s).samples = s.samples := rfl
@[simp] theorem phyApply_units (s : State) : (phyApply s).units = s.units := rfl
@[simp] theorem phyApply_draws (s : State) : (phyApply s).draws = s.draws := rfl
@[simp] theorem phyApply_replies (s : State) : (phyApply s).replies = s.replies := rfl

/-! ### beginXfer -/

@[simp] theorem beginXfer_params (s : State) : (beginXfer s).params = s.params := rfl
@[simp] theorem beginXfer_cmd (s : State) : (beginXfer s).cmd = s.cmd := rfl
@[simp] theorem beginXfer_arg0 (s : State) : (beginXfer s).arg0 = s.arg0 := rfl
@[simp] theorem beginXfer_arg1 (s : State) : (beginXfer s).arg1 = s.arg1 := rfl
@[simp] theorem beginXfer_arg2 (s : State) : (beginXfer s).arg2 = s.arg2 := rfl
@[simp] theorem beginXfer_result (s : State) : (beginXfer s).result = s.result := rfl
@[simp] theorem beginXfer_done (s : State) : (beginXfer s).done = 0#32 := rfl
@[simp] theorem beginXfer_ctrl (s : State) : (beginXfer s).ctrl = s.ctrl := rfl
@[simp] theorem beginXfer_div (s : State) : (beginXfer s).div = s.div := rfl
@[simp] theorem beginXfer_cslines (s : State) : (beginXfer s).cslines = s.cslines := rfl
@[simp] theorem beginXfer_lock (s : State) : (beginXfer s).lock = s.lock := rfl
@[simp] theorem beginXfer_inited (s : State) : (beginXfer s).inited = s.inited := rfl
@[simp] theorem beginXfer_owner (s : State) : (beginXfer s).owner = s.owner := rfl
@[simp] theorem beginXfer_session (s : State) : (beginXfer s).session = s.session := rfl
@[simp] theorem beginXfer_cfgId (s : State) : (beginXfer s).cfgId = s.cfgId := rfl
@[simp] theorem beginXfer_selId (s : State) : (beginXfer s).selId = s.selId := rfl
@[simp] theorem beginXfer_faultMark (s : State) : (beginXfer s).faultMark = s.faultMark := rfl
@[simp] theorem beginXfer_refusedMark (s : State) : (beginXfer s).refusedMark = s.refusedMark := rfl
@[simp] theorem beginXfer_busy (s : State) : (beginXfer s).busy = s.busy := rfl
@[simp] theorem beginXfer_issuer (s : State) : (beginXfer s).issuer = s.issuer := rfl
@[simp] theorem beginXfer_opw (s : State) : (beginXfer s).opw = s.opw := rfl
@[simp] theorem beginXfer_opa0 (s : State) : (beginXfer s).opa0 = s.opa0 := rfl
@[simp] theorem beginXfer_opa1 (s : State) : (beginXfer s).opa1 = s.opa1 := rfl
@[simp] theorem beginXfer_opa2 (s : State) : (beginXfer s).opa2 = s.opa2 := rfl
@[simp] theorem beginXfer_phase (s : State) : (beginXfer s).phase = .pollTx := rfl
@[simp] theorem beginXfer_i (s : State) : (beginXfer s).i = 0#32 := rfl
@[simp] theorem beginXfer_p (s : State) : (beginXfer s).p = 0 := rfl
@[simp] theorem beginXfer_drained (s : State) : (beginXfer s).drained = s.drained := rfl
@[simp] theorem beginXfer_mem (s : State) : (beginXfer s).mem = s.mem := rfl
@[simp] theorem beginXfer_trace (s : State) : (beginXfer s).trace = s.trace := rfl
@[simp] theorem beginXfer_turns (s : State) : (beginXfer s).turns = s.turns := rfl
@[simp] theorem beginXfer_caller (s : State) : (beginXfer s).caller = s.caller := rfl
@[simp] theorem beginXfer_samples (s : State) : (beginXfer s).samples = s.samples := rfl
@[simp] theorem beginXfer_units (s : State) : (beginXfer s).units = s.units := rfl
@[simp] theorem beginXfer_draws (s : State) : (beginXfer s).draws = s.draws := rfl
@[simp] theorem beginXfer_replies (s : State) : (beginXfer s).replies = s.replies := rfl

/-! ### beginDeselect -/

@[simp] theorem beginDeselect_params (s : State) : (beginDeselect s).params = s.params := rfl
@[simp] theorem beginDeselect_cmd (s : State) : (beginDeselect s).cmd = s.cmd := rfl
@[simp] theorem beginDeselect_arg0 (s : State) : (beginDeselect s).arg0 = s.arg0 := rfl
@[simp] theorem beginDeselect_arg1 (s : State) : (beginDeselect s).arg1 = s.arg1 := rfl
@[simp] theorem beginDeselect_arg2 (s : State) : (beginDeselect s).arg2 = s.arg2 := rfl
@[simp] theorem beginDeselect_result (s : State) : (beginDeselect s).result = s.result := rfl
@[simp] theorem beginDeselect_done (s : State) : (beginDeselect s).done = s.done := rfl
@[simp] theorem beginDeselect_ctrl (s : State) : (beginDeselect s).ctrl = s.ctrl := rfl
@[simp] theorem beginDeselect_div (s : State) : (beginDeselect s).div = s.div := rfl
@[simp] theorem beginDeselect_cslines (s : State) : (beginDeselect s).cslines = s.cslines := rfl
@[simp] theorem beginDeselect_lock (s : State) : (beginDeselect s).lock = s.lock := rfl
@[simp] theorem beginDeselect_inited (s : State) : (beginDeselect s).inited = s.inited := rfl
@[simp] theorem beginDeselect_owner (s : State) : (beginDeselect s).owner = s.owner := rfl
@[simp] theorem beginDeselect_session (s : State) : (beginDeselect s).session = s.session := rfl
@[simp] theorem beginDeselect_cfgId (s : State) : (beginDeselect s).cfgId = s.cfgId := rfl
@[simp] theorem beginDeselect_selId (s : State) : (beginDeselect s).selId = s.selId := rfl
@[simp] theorem beginDeselect_faultMark (s : State) : (beginDeselect s).faultMark = s.faultMark := rfl
@[simp] theorem beginDeselect_refusedMark (s : State) : (beginDeselect s).refusedMark = s.refusedMark := rfl
@[simp] theorem beginDeselect_busy (s : State) : (beginDeselect s).busy = s.busy := rfl
@[simp] theorem beginDeselect_issuer (s : State) : (beginDeselect s).issuer = s.issuer := rfl
@[simp] theorem beginDeselect_opw (s : State) : (beginDeselect s).opw = s.opw := rfl
@[simp] theorem beginDeselect_opa0 (s : State) : (beginDeselect s).opa0 = s.opa0 := rfl
@[simp] theorem beginDeselect_opa1 (s : State) : (beginDeselect s).opa1 = s.opa1 := rfl
@[simp] theorem beginDeselect_opa2 (s : State) : (beginDeselect s).opa2 = s.opa2 := rfl
@[simp] theorem beginDeselect_phase (s : State) : (beginDeselect s).phase = .pollDrain := rfl
@[simp] theorem beginDeselect_i (s : State) : (beginDeselect s).i = s.i := rfl
@[simp] theorem beginDeselect_p (s : State) : (beginDeselect s).p = 0 := rfl
@[simp] theorem beginDeselect_drained (s : State) : (beginDeselect s).drained = s.drained := rfl
@[simp] theorem beginDeselect_mem (s : State) : (beginDeselect s).mem = s.mem := rfl
@[simp] theorem beginDeselect_trace (s : State) : (beginDeselect s).trace = s.trace := rfl
@[simp] theorem beginDeselect_turns (s : State) : (beginDeselect s).turns = s.turns := rfl
@[simp] theorem beginDeselect_caller (s : State) : (beginDeselect s).caller = s.caller := rfl
@[simp] theorem beginDeselect_samples (s : State) : (beginDeselect s).samples = s.samples := rfl
@[simp] theorem beginDeselect_units (s : State) : (beginDeselect s).units = s.units := rfl
@[simp] theorem beginDeselect_draws (s : State) : (beginDeselect s).draws = s.draws := rfl
@[simp] theorem beginDeselect_replies (s : State) : (beginDeselect s).replies = s.replies := rfl

/-! ### acceptCommand -/

@[simp] theorem acceptCommand_params (w : Word) (s : State) : (acceptCommand w s).params = s.params := rfl
@[simp] theorem acceptCommand_cmd (w : Word) (s : State) : (acceptCommand w s).cmd = w := rfl
@[simp] theorem acceptCommand_arg0 (w : Word) (s : State) : (acceptCommand w s).arg0 = s.arg0 := rfl
@[simp] theorem acceptCommand_arg1 (w : Word) (s : State) : (acceptCommand w s).arg1 = s.arg1 := rfl
@[simp] theorem acceptCommand_arg2 (w : Word) (s : State) : (acceptCommand w s).arg2 = s.arg2 := rfl
@[simp] theorem acceptCommand_result (w : Word) (s : State) : (acceptCommand w s).result = s.result := rfl
@[simp] theorem acceptCommand_done (w : Word) (s : State) : (acceptCommand w s).done = s.done := rfl
@[simp] theorem acceptCommand_ctrl (w : Word) (s : State) : (acceptCommand w s).ctrl = s.ctrl := rfl
@[simp] theorem acceptCommand_div (w : Word) (s : State) : (acceptCommand w s).div = s.div := rfl
@[simp] theorem acceptCommand_cslines (w : Word) (s : State) : (acceptCommand w s).cslines = s.cslines := rfl
@[simp] theorem acceptCommand_lock (w : Word) (s : State) : (acceptCommand w s).lock = s.lock := rfl
@[simp] theorem acceptCommand_inited (w : Word) (s : State) : (acceptCommand w s).inited = s.inited := rfl
@[simp] theorem acceptCommand_owner (w : Word) (s : State) : (acceptCommand w s).owner = s.owner := rfl
@[simp] theorem acceptCommand_session (w : Word) (s : State) : (acceptCommand w s).session = s.session := rfl
@[simp] theorem acceptCommand_cfgId (w : Word) (s : State) : (acceptCommand w s).cfgId = s.cfgId := rfl
@[simp] theorem acceptCommand_selId (w : Word) (s : State) : (acceptCommand w s).selId = s.selId := rfl
@[simp] theorem acceptCommand_faultMark (w : Word) (s : State) : (acceptCommand w s).faultMark = s.faultMark := rfl
@[simp] theorem acceptCommand_refusedMark (w : Word) (s : State) : (acceptCommand w s).refusedMark = s.refusedMark := rfl
@[simp] theorem acceptCommand_busy (w : Word) (s : State) : (acceptCommand w s).busy = true := rfl
@[simp] theorem acceptCommand_issuer (w : Word) (s : State) : (acceptCommand w s).issuer = s.caller := rfl
@[simp] theorem acceptCommand_opw (w : Word) (s : State) : (acceptCommand w s).opw = w := rfl
@[simp] theorem acceptCommand_opa0 (w : Word) (s : State) : (acceptCommand w s).opa0 = s.arg0 := rfl
@[simp] theorem acceptCommand_opa1 (w : Word) (s : State) : (acceptCommand w s).opa1 = s.arg1 := rfl
@[simp] theorem acceptCommand_opa2 (w : Word) (s : State) : (acceptCommand w s).opa2 = s.arg2 := rfl
@[simp] theorem acceptCommand_phase (w : Word) (s : State) : (acceptCommand w s).phase = s.phase := rfl
@[simp] theorem acceptCommand_i (w : Word) (s : State) : (acceptCommand w s).i = s.i := rfl
@[simp] theorem acceptCommand_p (w : Word) (s : State) : (acceptCommand w s).p = s.p := rfl
@[simp] theorem acceptCommand_drained (w : Word) (s : State) : (acceptCommand w s).drained = s.drained := rfl
@[simp] theorem acceptCommand_mem (w : Word) (s : State) : (acceptCommand w s).mem = s.mem := rfl
@[simp] theorem acceptCommand_trace (w : Word) (s : State) : (acceptCommand w s).trace = s.trace := rfl
@[simp] theorem acceptCommand_turns (w : Word) (s : State) : (acceptCommand w s).turns = s.turns := rfl
@[simp] theorem acceptCommand_caller (w : Word) (s : State) : (acceptCommand w s).caller = s.caller := rfl
@[simp] theorem acceptCommand_samples (w : Word) (s : State) : (acceptCommand w s).samples = s.samples := rfl
@[simp] theorem acceptCommand_units (w : Word) (s : State) : (acceptCommand w s).units = s.units := rfl
@[simp] theorem acceptCommand_draws (w : Word) (s : State) : (acceptCommand w s).draws = s.draws := rfl
@[simp] theorem acceptCommand_replies (w : Word) (s : State) : (acceptCommand w s).replies = s.replies := rfl

/-! ### emitUnit -/

@[simp] theorem emitUnit_params (v : TUnit) (s : State) : (emitUnit v s).params = s.params := rfl
@[simp] theorem emitUnit_cmd (v : TUnit) (s : State) : (emitUnit v s).cmd = s.cmd := rfl
@[simp] theorem emitUnit_arg0 (v : TUnit) (s : State) : (emitUnit v s).arg0 = s.arg0 := rfl
@[simp] theorem emitUnit_arg1 (v : TUnit) (s : State) : (emitUnit v s).arg1 = s.arg1 := rfl
@[simp] theorem emitUnit_arg2 (v : TUnit) (s : State) : (emitUnit v s).arg2 = s.arg2 := rfl
@[simp] theorem emitUnit_result (v : TUnit) (s : State) : (emitUnit v s).result = s.result := rfl
@[simp] theorem emitUnit_done (v : TUnit) (s : State) : (emitUnit v s).done = s.done := rfl
@[simp] theorem emitUnit_ctrl (v : TUnit) (s : State) : (emitUnit v s).ctrl = s.ctrl := rfl
@[simp] theorem emitUnit_div (v : TUnit) (s : State) : (emitUnit v s).div = s.div := rfl
@[simp] theorem emitUnit_cslines (v : TUnit) (s : State) : (emitUnit v s).cslines = s.cslines := rfl
@[simp] theorem emitUnit_lock (v : TUnit) (s : State) : (emitUnit v s).lock = s.lock := rfl
@[simp] theorem emitUnit_inited (v : TUnit) (s : State) : (emitUnit v s).inited = s.inited := rfl
@[simp] theorem emitUnit_owner (v : TUnit) (s : State) : (emitUnit v s).owner = s.owner := rfl
@[simp] theorem emitUnit_session (v : TUnit) (s : State) : (emitUnit v s).session = s.session := rfl
@[simp] theorem emitUnit_cfgId (v : TUnit) (s : State) : (emitUnit v s).cfgId = s.cfgId := rfl
@[simp] theorem emitUnit_selId (v : TUnit) (s : State) : (emitUnit v s).selId = s.selId := rfl
@[simp] theorem emitUnit_faultMark (v : TUnit) (s : State) : (emitUnit v s).faultMark = s.faultMark := rfl
@[simp] theorem emitUnit_refusedMark (v : TUnit) (s : State) : (emitUnit v s).refusedMark = s.refusedMark := rfl
@[simp] theorem emitUnit_busy (v : TUnit) (s : State) : (emitUnit v s).busy = s.busy := rfl
@[simp] theorem emitUnit_issuer (v : TUnit) (s : State) : (emitUnit v s).issuer = s.issuer := rfl
@[simp] theorem emitUnit_opw (v : TUnit) (s : State) : (emitUnit v s).opw = s.opw := rfl
@[simp] theorem emitUnit_opa0 (v : TUnit) (s : State) : (emitUnit v s).opa0 = s.opa0 := rfl
@[simp] theorem emitUnit_opa1 (v : TUnit) (s : State) : (emitUnit v s).opa1 = s.opa1 := rfl
@[simp] theorem emitUnit_opa2 (v : TUnit) (s : State) : (emitUnit v s).opa2 = s.opa2 := rfl
@[simp] theorem emitUnit_phase (v : TUnit) (s : State) : (emitUnit v s).phase = .pollRx := rfl
@[simp] theorem emitUnit_i (v : TUnit) (s : State) : (emitUnit v s).i = s.i := rfl
@[simp] theorem emitUnit_p (v : TUnit) (s : State) : (emitUnit v s).p = 0 := rfl
@[simp] theorem emitUnit_drained (v : TUnit) (s : State) : (emitUnit v s).drained = s.drained := rfl
@[simp] theorem emitUnit_mem (v : TUnit) (s : State) : (emitUnit v s).mem = s.mem := rfl
@[simp] theorem emitUnit_trace (v : TUnit) (s : State) :
    (emitUnit v s).trace = s.trace ++ [.tx v (decide (s.i.toNat + 1 = s.opa2.toNat))] := rfl
@[simp] theorem emitUnit_turns (v : TUnit) (s : State) : (emitUnit v s).turns = s.turns := rfl
@[simp] theorem emitUnit_caller (v : TUnit) (s : State) : (emitUnit v s).caller = s.caller := rfl
@[simp] theorem emitUnit_samples (v : TUnit) (s : State) : (emitUnit v s).samples = s.samples := rfl
@[simp] theorem emitUnit_units (v : TUnit) (s : State) : (emitUnit v s).units = s.units := rfl
@[simp] theorem emitUnit_draws (v : TUnit) (s : State) : (emitUnit v s).draws = s.draws := rfl
@[simp] theorem emitUnit_replies (v : TUnit) (s : State) : (emitUnit v s).replies = s.replies := rfl

/-! ### nextUnitIndex -/

@[simp] theorem nextUnitIndex_params (s : State) : (nextUnitIndex s).params = s.params := rfl
@[simp] theorem nextUnitIndex_cmd (s : State) : (nextUnitIndex s).cmd = s.cmd := rfl
@[simp] theorem nextUnitIndex_arg0 (s : State) : (nextUnitIndex s).arg0 = s.arg0 := rfl
@[simp] theorem nextUnitIndex_arg1 (s : State) : (nextUnitIndex s).arg1 = s.arg1 := rfl
@[simp] theorem nextUnitIndex_arg2 (s : State) : (nextUnitIndex s).arg2 = s.arg2 := rfl
@[simp] theorem nextUnitIndex_result (s : State) : (nextUnitIndex s).result = s.result := rfl
@[simp] theorem nextUnitIndex_done (s : State) : (nextUnitIndex s).done = s.i + 1#32 := rfl
@[simp] theorem nextUnitIndex_ctrl (s : State) : (nextUnitIndex s).ctrl = s.ctrl := rfl
@[simp] theorem nextUnitIndex_div (s : State) : (nextUnitIndex s).div = s.div := rfl
@[simp] theorem nextUnitIndex_cslines (s : State) : (nextUnitIndex s).cslines = s.cslines := rfl
@[simp] theorem nextUnitIndex_lock (s : State) : (nextUnitIndex s).lock = s.lock := rfl
@[simp] theorem nextUnitIndex_inited (s : State) : (nextUnitIndex s).inited = s.inited := rfl
@[simp] theorem nextUnitIndex_owner (s : State) : (nextUnitIndex s).owner = s.owner := rfl
@[simp] theorem nextUnitIndex_session (s : State) : (nextUnitIndex s).session = s.session := rfl
@[simp] theorem nextUnitIndex_cfgId (s : State) : (nextUnitIndex s).cfgId = s.cfgId := rfl
@[simp] theorem nextUnitIndex_selId (s : State) : (nextUnitIndex s).selId = s.selId := rfl
@[simp] theorem nextUnitIndex_faultMark (s : State) : (nextUnitIndex s).faultMark = s.faultMark := rfl
@[simp] theorem nextUnitIndex_refusedMark (s : State) : (nextUnitIndex s).refusedMark = s.refusedMark := rfl
@[simp] theorem nextUnitIndex_busy (s : State) : (nextUnitIndex s).busy = s.busy := rfl
@[simp] theorem nextUnitIndex_issuer (s : State) : (nextUnitIndex s).issuer = s.issuer := rfl
@[simp] theorem nextUnitIndex_opw (s : State) : (nextUnitIndex s).opw = s.opw := rfl
@[simp] theorem nextUnitIndex_opa0 (s : State) : (nextUnitIndex s).opa0 = s.opa0 := rfl
@[simp] theorem nextUnitIndex_opa1 (s : State) : (nextUnitIndex s).opa1 = s.opa1 := rfl
@[simp] theorem nextUnitIndex_opa2 (s : State) : (nextUnitIndex s).opa2 = s.opa2 := rfl
@[simp] theorem nextUnitIndex_phase (s : State) : (nextUnitIndex s).phase = .pollTx := rfl
@[simp] theorem nextUnitIndex_i (s : State) : (nextUnitIndex s).i = s.i + 1#32 := rfl
@[simp] theorem nextUnitIndex_p (s : State) : (nextUnitIndex s).p = 0 := rfl
@[simp] theorem nextUnitIndex_drained (s : State) : (nextUnitIndex s).drained = s.drained := rfl
@[simp] theorem nextUnitIndex_mem (s : State) : (nextUnitIndex s).mem = s.mem := rfl
@[simp] theorem nextUnitIndex_trace (s : State) : (nextUnitIndex s).trace = s.trace := rfl
@[simp] theorem nextUnitIndex_turns (s : State) : (nextUnitIndex s).turns = s.turns := rfl
@[simp] theorem nextUnitIndex_caller (s : State) : (nextUnitIndex s).caller = s.caller := rfl
@[simp] theorem nextUnitIndex_samples (s : State) : (nextUnitIndex s).samples = s.samples := rfl
@[simp] theorem nextUnitIndex_units (s : State) : (nextUnitIndex s).units = s.units := rfl
@[simp] theorem nextUnitIndex_draws (s : State) : (nextUnitIndex s).draws = s.draws := rfl
@[simp] theorem nextUnitIndex_replies (s : State) : (nextUnitIndex s).replies = s.replies := rfl

/-! ### dropSample -/

@[simp] theorem dropSample_params (s : State) : (dropSample s).params = s.params := by
  unfold dropSample; split <;> rfl
@[simp] theorem dropSample_cmd (s : State) : (dropSample s).cmd = s.cmd := by
  unfold dropSample; split <;> rfl
@[simp] theorem dropSample_arg0 (s : State) : (dropSample s).arg0 = s.arg0 := by
  unfold dropSample; split <;> rfl
@[simp] theorem dropSample_arg1 (s : State) : (dropSample s).arg1 = s.arg1 := by
  unfold dropSample; split <;> rfl
@[simp] theorem dropSample_arg2 (s : State) : (dropSample s).arg2 = s.arg2 := by
  unfold dropSample; split <;> rfl
@[simp] theorem dropSample_result (s : State) : (dropSample s).result = s.result := by
  unfold dropSample; split <;> rfl
@[simp] theorem dropSample_done (s : State) : (dropSample s).done = s.done := by
  unfold dropSample; split <;> rfl
@[simp] theorem dropSample_ctrl (s : State) : (dropSample s).ctrl = s.ctrl := by
  unfold dropSample; split <;> rfl
@[simp] theorem dropSample_div (s : State) : (dropSample s).div = s.div := by
  unfold dropSample; split <;> rfl
@[simp] theorem dropSample_cslines (s : State) : (dropSample s).cslines = s.cslines := by
  unfold dropSample; split <;> rfl
@[simp] theorem dropSample_lock (s : State) : (dropSample s).lock = s.lock := by
  unfold dropSample; split <;> rfl
@[simp] theorem dropSample_inited (s : State) : (dropSample s).inited = s.inited := by
  unfold dropSample; split <;> rfl
@[simp] theorem dropSample_owner (s : State) : (dropSample s).owner = s.owner := by
  unfold dropSample; split <;> rfl
@[simp] theorem dropSample_session (s : State) : (dropSample s).session = s.session := by
  unfold dropSample; split <;> rfl
@[simp] theorem dropSample_cfgId (s : State) : (dropSample s).cfgId = s.cfgId := by
  unfold dropSample; split <;> rfl
@[simp] theorem dropSample_selId (s : State) : (dropSample s).selId = s.selId := by
  unfold dropSample; split <;> rfl
@[simp] theorem dropSample_faultMark (s : State) : (dropSample s).faultMark = s.faultMark := by
  unfold dropSample; split <;> rfl
@[simp] theorem dropSample_refusedMark (s : State) : (dropSample s).refusedMark = s.refusedMark := by
  unfold dropSample; split <;> rfl
@[simp] theorem dropSample_busy (s : State) : (dropSample s).busy = s.busy := by
  unfold dropSample; split <;> rfl
@[simp] theorem dropSample_issuer (s : State) : (dropSample s).issuer = s.issuer := by
  unfold dropSample; split <;> rfl
@[simp] theorem dropSample_opw (s : State) : (dropSample s).opw = s.opw := by
  unfold dropSample; split <;> rfl
@[simp] theorem dropSample_opa0 (s : State) : (dropSample s).opa0 = s.opa0 := by
  unfold dropSample; split <;> rfl
@[simp] theorem dropSample_opa1 (s : State) : (dropSample s).opa1 = s.opa1 := by
  unfold dropSample; split <;> rfl
@[simp] theorem dropSample_opa2 (s : State) : (dropSample s).opa2 = s.opa2 := by
  unfold dropSample; split <;> rfl
@[simp] theorem dropSample_phase (s : State) : (dropSample s).phase = s.phase := by
  unfold dropSample; split <;> rfl
@[simp] theorem dropSample_i (s : State) : (dropSample s).i = s.i := by
  unfold dropSample; split <;> rfl
@[simp] theorem dropSample_p (s : State) : (dropSample s).p = s.p := by
  unfold dropSample; split <;> rfl
@[simp] theorem dropSample_drained (s : State) : (dropSample s).drained = s.drained := by
  unfold dropSample; split <;> rfl
@[simp] theorem dropSample_mem (s : State) : (dropSample s).mem = s.mem := by
  unfold dropSample; split <;> rfl
@[simp] theorem dropSample_trace (s : State) : (dropSample s).trace = s.trace := by
  unfold dropSample; split <;> rfl
@[simp] theorem dropSample_turns (s : State) : (dropSample s).turns = s.turns := by
  unfold dropSample; split <;> rfl
@[simp] theorem dropSample_caller (s : State) : (dropSample s).caller = s.caller := by
  unfold dropSample; split <;> rfl
@[simp] theorem dropSample_samples (s : State) : (dropSample s).samples = s.samples.tail := by
  unfold dropSample; split <;> simp_all
@[simp] theorem dropSample_units (s : State) : (dropSample s).units = s.units := by
  unfold dropSample; split <;> rfl
@[simp] theorem dropSample_replies (s : State) : (dropSample s).replies = s.replies := by
  unfold dropSample; split <;> rfl

/-! ### dropUnit -/

@[simp] theorem dropUnit_params (s : State) : (dropUnit s).params = s.params := by
  unfold dropUnit; split <;> rfl
@[simp] theorem dropUnit_cmd (s : State) : (dropUnit s).cmd = s.cmd := by
  unfold dropUnit; split <;> rfl
@[simp] theorem dropUnit_arg0 (s : State) : (dropUnit s).arg0 = s.arg0 := by
  unfold dropUnit; split <;> rfl
@[simp] theorem dropUnit_arg1 (s : State) : (dropUnit s).arg1 = s.arg1 := by
  unfold dropUnit; split <;> rfl
@[simp] theorem dropUnit_arg2 (s : State) : (dropUnit s).arg2 = s.arg2 := by
  unfold dropUnit; split <;> rfl
@[simp] theorem dropUnit_result (s : State) : (dropUnit s).result = s.result := by
  unfold dropUnit; split <;> rfl
@[simp] theorem dropUnit_done (s : State) : (dropUnit s).done = s.done := by
  unfold dropUnit; split <;> rfl
@[simp] theorem dropUnit_ctrl (s : State) : (dropUnit s).ctrl = s.ctrl := by
  unfold dropUnit; split <;> rfl
@[simp] theorem dropUnit_div (s : State) : (dropUnit s).div = s.div := by
  unfold dropUnit; split <;> rfl
@[simp] theorem dropUnit_cslines (s : State) : (dropUnit s).cslines = s.cslines := by
  unfold dropUnit; split <;> rfl
@[simp] theorem dropUnit_lock (s : State) : (dropUnit s).lock = s.lock := by
  unfold dropUnit; split <;> rfl
@[simp] theorem dropUnit_inited (s : State) : (dropUnit s).inited = s.inited := by
  unfold dropUnit; split <;> rfl
@[simp] theorem dropUnit_owner (s : State) : (dropUnit s).owner = s.owner := by
  unfold dropUnit; split <;> rfl
@[simp] theorem dropUnit_session (s : State) : (dropUnit s).session = s.session := by
  unfold dropUnit; split <;> rfl
@[simp] theorem dropUnit_cfgId (s : State) : (dropUnit s).cfgId = s.cfgId := by
  unfold dropUnit; split <;> rfl
@[simp] theorem dropUnit_selId (s : State) : (dropUnit s).selId = s.selId := by
  unfold dropUnit; split <;> rfl
@[simp] theorem dropUnit_faultMark (s : State) : (dropUnit s).faultMark = s.faultMark := by
  unfold dropUnit; split <;> rfl
@[simp] theorem dropUnit_refusedMark (s : State) : (dropUnit s).refusedMark = s.refusedMark := by
  unfold dropUnit; split <;> rfl
@[simp] theorem dropUnit_busy (s : State) : (dropUnit s).busy = s.busy := by
  unfold dropUnit; split <;> rfl
@[simp] theorem dropUnit_issuer (s : State) : (dropUnit s).issuer = s.issuer := by
  unfold dropUnit; split <;> rfl
@[simp] theorem dropUnit_opw (s : State) : (dropUnit s).opw = s.opw := by
  unfold dropUnit; split <;> rfl
@[simp] theorem dropUnit_opa0 (s : State) : (dropUnit s).opa0 = s.opa0 := by
  unfold dropUnit; split <;> rfl
@[simp] theorem dropUnit_opa1 (s : State) : (dropUnit s).opa1 = s.opa1 := by
  unfold dropUnit; split <;> rfl
@[simp] theorem dropUnit_opa2 (s : State) : (dropUnit s).opa2 = s.opa2 := by
  unfold dropUnit; split <;> rfl
@[simp] theorem dropUnit_phase (s : State) : (dropUnit s).phase = s.phase := by
  unfold dropUnit; split <;> rfl
@[simp] theorem dropUnit_i (s : State) : (dropUnit s).i = s.i := by
  unfold dropUnit; split <;> rfl
@[simp] theorem dropUnit_p (s : State) : (dropUnit s).p = s.p := by
  unfold dropUnit; split <;> rfl
@[simp] theorem dropUnit_drained (s : State) : (dropUnit s).drained = s.drained := by
  unfold dropUnit; split <;> rfl
@[simp] theorem dropUnit_mem (s : State) : (dropUnit s).mem = s.mem := by
  unfold dropUnit; split <;> rfl
@[simp] theorem dropUnit_trace (s : State) : (dropUnit s).trace = s.trace := by
  unfold dropUnit; split <;> rfl
@[simp] theorem dropUnit_turns (s : State) : (dropUnit s).turns = s.turns := by
  unfold dropUnit; split <;> rfl
@[simp] theorem dropUnit_caller (s : State) : (dropUnit s).caller = s.caller := by
  unfold dropUnit; split <;> rfl
@[simp] theorem dropUnit_samples (s : State) : (dropUnit s).samples = s.samples := by
  unfold dropUnit; split <;> rfl
@[simp] theorem dropUnit_units (s : State) : (dropUnit s).units = s.units.tail := by
  unfold dropUnit; split <;> simp_all
@[simp] theorem dropUnit_replies (s : State) : (dropUnit s).replies = s.replies := by
  unfold dropUnit; split <;> rfl

/-! ### advance -/

@[simp] theorem advance_params (r : List Turn) (s : State) : (advance r s).params = s.params := rfl
@[simp] theorem advance_cmd (r : List Turn) (s : State) : (advance r s).cmd = s.cmd := rfl
@[simp] theorem advance_arg0 (r : List Turn) (s : State) : (advance r s).arg0 = s.arg0 := rfl
@[simp] theorem advance_arg1 (r : List Turn) (s : State) : (advance r s).arg1 = s.arg1 := rfl
@[simp] theorem advance_arg2 (r : List Turn) (s : State) : (advance r s).arg2 = s.arg2 := rfl
@[simp] theorem advance_result (r : List Turn) (s : State) : (advance r s).result = s.result := rfl
@[simp] theorem advance_done (r : List Turn) (s : State) : (advance r s).done = s.done := rfl
@[simp] theorem advance_ctrl (r : List Turn) (s : State) : (advance r s).ctrl = s.ctrl := rfl
@[simp] theorem advance_div (r : List Turn) (s : State) : (advance r s).div = s.div := rfl
@[simp] theorem advance_cslines (r : List Turn) (s : State) : (advance r s).cslines = s.cslines := rfl
@[simp] theorem advance_lock (r : List Turn) (s : State) : (advance r s).lock = s.lock := rfl
@[simp] theorem advance_inited (r : List Turn) (s : State) : (advance r s).inited = s.inited := rfl
@[simp] theorem advance_owner (r : List Turn) (s : State) : (advance r s).owner = s.owner := rfl
@[simp] theorem advance_session (r : List Turn) (s : State) : (advance r s).session = s.session := rfl
@[simp] theorem advance_cfgId (r : List Turn) (s : State) : (advance r s).cfgId = s.cfgId := rfl
@[simp] theorem advance_selId (r : List Turn) (s : State) : (advance r s).selId = s.selId := rfl
@[simp] theorem advance_faultMark (r : List Turn) (s : State) : (advance r s).faultMark = s.faultMark := rfl
@[simp] theorem advance_refusedMark (r : List Turn) (s : State) : (advance r s).refusedMark = s.refusedMark := rfl
@[simp] theorem advance_busy (r : List Turn) (s : State) : (advance r s).busy = s.busy := rfl
@[simp] theorem advance_issuer (r : List Turn) (s : State) : (advance r s).issuer = s.issuer := rfl
@[simp] theorem advance_opw (r : List Turn) (s : State) : (advance r s).opw = s.opw := rfl
@[simp] theorem advance_opa0 (r : List Turn) (s : State) : (advance r s).opa0 = s.opa0 := rfl
@[simp] theorem advance_opa1 (r : List Turn) (s : State) : (advance r s).opa1 = s.opa1 := rfl
@[simp] theorem advance_opa2 (r : List Turn) (s : State) : (advance r s).opa2 = s.opa2 := rfl
@[simp] theorem advance_phase (r : List Turn) (s : State) : (advance r s).phase = s.phase := rfl
@[simp] theorem advance_i (r : List Turn) (s : State) : (advance r s).i = s.i := rfl
@[simp] theorem advance_p (r : List Turn) (s : State) : (advance r s).p = s.p := rfl
@[simp] theorem advance_drained (r : List Turn) (s : State) : (advance r s).drained = s.drained := rfl
@[simp] theorem advance_mem (r : List Turn) (s : State) : (advance r s).mem = s.mem := rfl
@[simp] theorem advance_trace (r : List Turn) (s : State) : (advance r s).trace = s.trace := rfl
@[simp] theorem advance_turns (r : List Turn) (s : State) : (advance r s).turns = r := rfl
@[simp] theorem advance_caller (r : List Turn) (s : State) : (advance r s).caller = s.caller := rfl
@[simp] theorem advance_samples (r : List Turn) (s : State) : (advance r s).samples = s.samples := rfl
@[simp] theorem advance_units (r : List Turn) (s : State) : (advance r s).units = s.units := rfl
@[simp] theorem advance_draws (r : List Turn) (s : State) : (advance r s).draws = s.draws := rfl
@[simp] theorem advance_replies (r : List Turn) (s : State) : (advance r s).replies = s.replies := rfl

/-! ### arrive -/

@[simp] theorem arrive_params (r : List Turn) (c : Caller) (s : State) : (arrive r c s).params = s.params := rfl
@[simp] theorem arrive_cmd (r : List Turn) (c : Caller) (s : State) : (arrive r c s).cmd = s.cmd := rfl
@[simp] theorem arrive_arg0 (r : List Turn) (c : Caller) (s : State) : (arrive r c s).arg0 = s.arg0 := rfl
@[simp] theorem arrive_arg1 (r : List Turn) (c : Caller) (s : State) : (arrive r c s).arg1 = s.arg1 := rfl
@[simp] theorem arrive_arg2 (r : List Turn) (c : Caller) (s : State) : (arrive r c s).arg2 = s.arg2 := rfl
@[simp] theorem arrive_result (r : List Turn) (c : Caller) (s : State) : (arrive r c s).result = s.result := rfl
@[simp] theorem arrive_done (r : List Turn) (c : Caller) (s : State) : (arrive r c s).done = s.done := rfl
@[simp] theorem arrive_ctrl (r : List Turn) (c : Caller) (s : State) : (arrive r c s).ctrl = s.ctrl := rfl
@[simp] theorem arrive_div (r : List Turn) (c : Caller) (s : State) : (arrive r c s).div = s.div := rfl
@[simp] theorem arrive_cslines (r : List Turn) (c : Caller) (s : State) : (arrive r c s).cslines = s.cslines := rfl
@[simp] theorem arrive_lock (r : List Turn) (c : Caller) (s : State) : (arrive r c s).lock = s.lock := rfl
@[simp] theorem arrive_inited (r : List Turn) (c : Caller) (s : State) : (arrive r c s).inited = s.inited := rfl
@[simp] theorem arrive_owner (r : List Turn) (c : Caller) (s : State) : (arrive r c s).owner = s.owner := rfl
@[simp] theorem arrive_session (r : List Turn) (c : Caller) (s : State) : (arrive r c s).session = s.session := rfl
@[simp] theorem arrive_cfgId (r : List Turn) (c : Caller) (s : State) : (arrive r c s).cfgId = s.cfgId := rfl
@[simp] theorem arrive_selId (r : List Turn) (c : Caller) (s : State) : (arrive r c s).selId = s.selId := rfl
@[simp] theorem arrive_faultMark (r : List Turn) (c : Caller) (s : State) : (arrive r c s).faultMark = s.faultMark := rfl
@[simp] theorem arrive_refusedMark (r : List Turn) (c : Caller) (s : State) : (arrive r c s).refusedMark = s.refusedMark := rfl
@[simp] theorem arrive_busy (r : List Turn) (c : Caller) (s : State) : (arrive r c s).busy = s.busy := rfl
@[simp] theorem arrive_issuer (r : List Turn) (c : Caller) (s : State) : (arrive r c s).issuer = s.issuer := rfl
@[simp] theorem arrive_opw (r : List Turn) (c : Caller) (s : State) : (arrive r c s).opw = s.opw := rfl
@[simp] theorem arrive_opa0 (r : List Turn) (c : Caller) (s : State) : (arrive r c s).opa0 = s.opa0 := rfl
@[simp] theorem arrive_opa1 (r : List Turn) (c : Caller) (s : State) : (arrive r c s).opa1 = s.opa1 := rfl
@[simp] theorem arrive_opa2 (r : List Turn) (c : Caller) (s : State) : (arrive r c s).opa2 = s.opa2 := rfl
@[simp] theorem arrive_phase (r : List Turn) (c : Caller) (s : State) : (arrive r c s).phase = s.phase := rfl
@[simp] theorem arrive_i (r : List Turn) (c : Caller) (s : State) : (arrive r c s).i = s.i := rfl
@[simp] theorem arrive_p (r : List Turn) (c : Caller) (s : State) : (arrive r c s).p = s.p := rfl
@[simp] theorem arrive_drained (r : List Turn) (c : Caller) (s : State) : (arrive r c s).drained = s.drained := rfl
@[simp] theorem arrive_mem (r : List Turn) (c : Caller) (s : State) : (arrive r c s).mem = s.mem := rfl
@[simp] theorem arrive_trace (r : List Turn) (c : Caller) (s : State) : (arrive r c s).trace = s.trace := rfl
@[simp] theorem arrive_turns (r : List Turn) (c : Caller) (s : State) : (arrive r c s).turns = r := rfl
@[simp] theorem arrive_caller (r : List Turn) (c : Caller) (s : State) : (arrive r c s).caller = c := rfl
@[simp] theorem arrive_samples (r : List Turn) (c : Caller) (s : State) : (arrive r c s).samples = s.samples := rfl
@[simp] theorem arrive_units (r : List Turn) (c : Caller) (s : State) : (arrive r c s).units = s.units := rfl
@[simp] theorem arrive_draws (r : List Turn) (c : Caller) (s : State) : (arrive r c s).draws = s.draws := rfl
@[simp] theorem arrive_replies (r : List Turn) (c : Caller) (s : State) : (arrive r c s).replies = s.replies := rfl

/-! ### putMem -/

@[simp] theorem putMem_params (m : List Host.Cell) (s : State) : (putMem m s).params = s.params := rfl
@[simp] theorem putMem_cmd (m : List Host.Cell) (s : State) : (putMem m s).cmd = s.cmd := rfl
@[simp] theorem putMem_arg0 (m : List Host.Cell) (s : State) : (putMem m s).arg0 = s.arg0 := rfl
@[simp] theorem putMem_arg1 (m : List Host.Cell) (s : State) : (putMem m s).arg1 = s.arg1 := rfl
@[simp] theorem putMem_arg2 (m : List Host.Cell) (s : State) : (putMem m s).arg2 = s.arg2 := rfl
@[simp] theorem putMem_result (m : List Host.Cell) (s : State) : (putMem m s).result = s.result := rfl
@[simp] theorem putMem_done (m : List Host.Cell) (s : State) : (putMem m s).done = s.done := rfl
@[simp] theorem putMem_ctrl (m : List Host.Cell) (s : State) : (putMem m s).ctrl = s.ctrl := rfl
@[simp] theorem putMem_div (m : List Host.Cell) (s : State) : (putMem m s).div = s.div := rfl
@[simp] theorem putMem_cslines (m : List Host.Cell) (s : State) : (putMem m s).cslines = s.cslines := rfl
@[simp] theorem putMem_lock (m : List Host.Cell) (s : State) : (putMem m s).lock = s.lock := rfl
@[simp] theorem putMem_inited (m : List Host.Cell) (s : State) : (putMem m s).inited = s.inited := rfl
@[simp] theorem putMem_owner (m : List Host.Cell) (s : State) : (putMem m s).owner = s.owner := rfl
@[simp] theorem putMem_session (m : List Host.Cell) (s : State) : (putMem m s).session = s.session := rfl
@[simp] theorem putMem_cfgId (m : List Host.Cell) (s : State) : (putMem m s).cfgId = s.cfgId := rfl
@[simp] theorem putMem_selId (m : List Host.Cell) (s : State) : (putMem m s).selId = s.selId := rfl
@[simp] theorem putMem_faultMark (m : List Host.Cell) (s : State) : (putMem m s).faultMark = s.faultMark := rfl
@[simp] theorem putMem_refusedMark (m : List Host.Cell) (s : State) : (putMem m s).refusedMark = s.refusedMark := rfl
@[simp] theorem putMem_busy (m : List Host.Cell) (s : State) : (putMem m s).busy = s.busy := rfl
@[simp] theorem putMem_issuer (m : List Host.Cell) (s : State) : (putMem m s).issuer = s.issuer := rfl
@[simp] theorem putMem_opw (m : List Host.Cell) (s : State) : (putMem m s).opw = s.opw := rfl
@[simp] theorem putMem_opa0 (m : List Host.Cell) (s : State) : (putMem m s).opa0 = s.opa0 := rfl
@[simp] theorem putMem_opa1 (m : List Host.Cell) (s : State) : (putMem m s).opa1 = s.opa1 := rfl
@[simp] theorem putMem_opa2 (m : List Host.Cell) (s : State) : (putMem m s).opa2 = s.opa2 := rfl
@[simp] theorem putMem_phase (m : List Host.Cell) (s : State) : (putMem m s).phase = s.phase := rfl
@[simp] theorem putMem_i (m : List Host.Cell) (s : State) : (putMem m s).i = s.i := rfl
@[simp] theorem putMem_p (m : List Host.Cell) (s : State) : (putMem m s).p = s.p := rfl
@[simp] theorem putMem_drained (m : List Host.Cell) (s : State) : (putMem m s).drained = s.drained := rfl
@[simp] theorem putMem_mem (m : List Host.Cell) (s : State) : (putMem m s).mem = m := rfl
@[simp] theorem putMem_trace (m : List Host.Cell) (s : State) : (putMem m s).trace = s.trace := rfl
@[simp] theorem putMem_turns (m : List Host.Cell) (s : State) : (putMem m s).turns = s.turns := rfl
@[simp] theorem putMem_caller (m : List Host.Cell) (s : State) : (putMem m s).caller = s.caller := rfl
@[simp] theorem putMem_samples (m : List Host.Cell) (s : State) : (putMem m s).samples = s.samples := rfl
@[simp] theorem putMem_units (m : List Host.Cell) (s : State) : (putMem m s).units = s.units := rfl
@[simp] theorem putMem_draws (m : List Host.Cell) (s : State) : (putMem m s).draws = s.draws := rfl
@[simp] theorem putMem_replies (m : List Host.Cell) (s : State) : (putMem m s).replies = s.replies := rfl

/-! ### Updates put together from these -/

@[simp] theorem pollEffect_params (c : Cond) (s : State) : (pollEffect c s).params = s.params := by
  simp [pollEffect]
@[simp] theorem pollEffect_cmd (c : Cond) (s : State) : (pollEffect c s).cmd = s.cmd := by
  simp [pollEffect]
@[simp] theorem pollEffect_arg0 (c : Cond) (s : State) : (pollEffect c s).arg0 = s.arg0 := by
  simp [pollEffect]
@[simp] theorem pollEffect_arg1 (c : Cond) (s : State) : (pollEffect c s).arg1 = s.arg1 := by
  simp [pollEffect]
@[simp] theorem pollEffect_arg2 (c : Cond) (s : State) : (pollEffect c s).arg2 = s.arg2 := by
  simp [pollEffect]
@[simp] theorem pollEffect_result (c : Cond) (s : State) : (pollEffect c s).result = s.result := by
  simp [pollEffect]
@[simp] theorem pollEffect_done (c : Cond) (s : State) : (pollEffect c s).done = s.done := by
  simp [pollEffect]
@[simp] theorem pollEffect_ctrl (c : Cond) (s : State) : (pollEffect c s).ctrl = s.ctrl := by
  simp [pollEffect]
@[simp] theorem pollEffect_div (c : Cond) (s : State) : (pollEffect c s).div = s.div := by
  simp [pollEffect]
@[simp] theorem pollEffect_cslines (c : Cond) (s : State) : (pollEffect c s).cslines = s.cslines := by
  simp [pollEffect]
@[simp] theorem pollEffect_lock (c : Cond) (s : State) : (pollEffect c s).lock = s.lock := by
  simp [pollEffect]
@[simp] theorem pollEffect_inited (c : Cond) (s : State) : (pollEffect c s).inited = s.inited := by
  simp [pollEffect]
@[simp] theorem pollEffect_owner (c : Cond) (s : State) : (pollEffect c s).owner = s.owner := by
  simp [pollEffect]
@[simp] theorem pollEffect_session (c : Cond) (s : State) : (pollEffect c s).session = s.session := by
  simp [pollEffect]
@[simp] theorem pollEffect_cfgId (c : Cond) (s : State) : (pollEffect c s).cfgId = s.cfgId := by
  simp [pollEffect]
@[simp] theorem pollEffect_selId (c : Cond) (s : State) : (pollEffect c s).selId = s.selId := by
  simp [pollEffect]
@[simp] theorem pollEffect_faultMark (c : Cond) (s : State) : (pollEffect c s).faultMark = s.faultMark := by
  simp [pollEffect]
@[simp] theorem pollEffect_refusedMark (c : Cond) (s : State) : (pollEffect c s).refusedMark = s.refusedMark := by
  simp [pollEffect]
@[simp] theorem pollEffect_busy (c : Cond) (s : State) : (pollEffect c s).busy = s.busy := by
  simp [pollEffect]
@[simp] theorem pollEffect_issuer (c : Cond) (s : State) : (pollEffect c s).issuer = s.issuer := by
  simp [pollEffect]
@[simp] theorem pollEffect_opw (c : Cond) (s : State) : (pollEffect c s).opw = s.opw := by
  simp [pollEffect]
@[simp] theorem pollEffect_opa0 (c : Cond) (s : State) : (pollEffect c s).opa0 = s.opa0 := by
  simp [pollEffect]
@[simp] theorem pollEffect_opa1 (c : Cond) (s : State) : (pollEffect c s).opa1 = s.opa1 := by
  simp [pollEffect]
@[simp] theorem pollEffect_opa2 (c : Cond) (s : State) : (pollEffect c s).opa2 = s.opa2 := by
  simp [pollEffect]
@[simp] theorem pollEffect_phase (c : Cond) (s : State) : (pollEffect c s).phase = s.phase := by
  simp [pollEffect]
@[simp] theorem pollEffect_i (c : Cond) (s : State) : (pollEffect c s).i = s.i := by
  simp [pollEffect]
@[simp] theorem pollEffect_p (c : Cond) (s : State) : (pollEffect c s).p = s.p + 1 := by
  simp [pollEffect]
@[simp] theorem pollEffect_drained (c : Cond) (s : State) : (pollEffect c s).drained = s.drained := by
  simp [pollEffect]
@[simp] theorem pollEffect_mem (c : Cond) (s : State) : (pollEffect c s).mem = s.mem := by
  simp [pollEffect]
@[simp] theorem pollEffect_trace (c : Cond) (s : State) : (pollEffect c s).trace = s.trace ++ [.poll c (nextSample s)] := by
  simp [pollEffect]
@[simp] theorem pollEffect_turns (c : Cond) (s : State) : (pollEffect c s).turns = s.turns := by
  simp [pollEffect]
@[simp] theorem pollEffect_caller (c : Cond) (s : State) : (pollEffect c s).caller = s.caller := by
  simp [pollEffect]
@[simp] theorem pollEffect_samples (c : Cond) (s : State) : (pollEffect c s).samples = s.samples.tail := by
  simp [pollEffect]
@[simp] theorem pollEffect_units (c : Cond) (s : State) : (pollEffect c s).units = s.units := by
  simp [pollEffect]
@[simp] theorem pollEffect_replies (c : Cond) (s : State) : (pollEffect c s).replies = s.replies := by
  simp [pollEffect]

@[simp] theorem phyRead_params (w : Bool) (s : State) : (phyRead w s).params = s.params := by
  simp [phyRead]
@[simp] theorem phyRead_cmd (w : Bool) (s : State) : (phyRead w s).cmd = s.cmd := by
  simp [phyRead]
@[simp] theorem phyRead_arg0 (w : Bool) (s : State) : (phyRead w s).arg0 = s.arg0 := by
  simp [phyRead]
@[simp] theorem phyRead_arg1 (w : Bool) (s : State) : (phyRead w s).arg1 = s.arg1 := by
  simp [phyRead]
@[simp] theorem phyRead_arg2 (w : Bool) (s : State) : (phyRead w s).arg2 = s.arg2 := by
  simp [phyRead]
@[simp] theorem phyRead_result (w : Bool) (s : State) : (phyRead w s).result = s.result := by
  simp [phyRead]
@[simp] theorem phyRead_done (w : Bool) (s : State) : (phyRead w s).done = s.done := by
  simp [phyRead]
@[simp] theorem phyRead_ctrl (w : Bool) (s : State) : (phyRead w s).ctrl = s.ctrl := by
  simp [phyRead]
@[simp] theorem phyRead_div (w : Bool) (s : State) : (phyRead w s).div = s.div := by
  simp [phyRead]
@[simp] theorem phyRead_cslines (w : Bool) (s : State) : (phyRead w s).cslines = s.cslines := by
  simp [phyRead]
@[simp] theorem phyRead_lock (w : Bool) (s : State) : (phyRead w s).lock = s.lock := by
  simp [phyRead]
@[simp] theorem phyRead_inited (w : Bool) (s : State) : (phyRead w s).inited = s.inited := by
  simp [phyRead]
@[simp] theorem phyRead_owner (w : Bool) (s : State) : (phyRead w s).owner = s.owner := by
  simp [phyRead]
@[simp] theorem phyRead_session (w : Bool) (s : State) : (phyRead w s).session = s.session := by
  simp [phyRead]
@[simp] theorem phyRead_cfgId (w : Bool) (s : State) : (phyRead w s).cfgId = s.cfgId := by
  simp [phyRead]
@[simp] theorem phyRead_selId (w : Bool) (s : State) : (phyRead w s).selId = s.selId := by
  simp [phyRead]
@[simp] theorem phyRead_faultMark (w : Bool) (s : State) : (phyRead w s).faultMark = s.faultMark := by
  simp [phyRead]
@[simp] theorem phyRead_refusedMark (w : Bool) (s : State) : (phyRead w s).refusedMark = s.refusedMark := by
  simp [phyRead]
@[simp] theorem phyRead_busy (w : Bool) (s : State) : (phyRead w s).busy = s.busy := by
  simp [phyRead]
@[simp] theorem phyRead_issuer (w : Bool) (s : State) : (phyRead w s).issuer = s.issuer := by
  simp [phyRead]
@[simp] theorem phyRead_opw (w : Bool) (s : State) : (phyRead w s).opw = s.opw := by
  simp [phyRead]
@[simp] theorem phyRead_opa0 (w : Bool) (s : State) : (phyRead w s).opa0 = s.opa0 := by
  simp [phyRead]
@[simp] theorem phyRead_opa1 (w : Bool) (s : State) : (phyRead w s).opa1 = s.opa1 := by
  simp [phyRead]
@[simp] theorem phyRead_opa2 (w : Bool) (s : State) : (phyRead w s).opa2 = s.opa2 := by
  simp [phyRead]
@[simp] theorem phyRead_phase (w : Bool) (s : State) : (phyRead w s).phase = s.phase := by
  simp [phyRead]
@[simp] theorem phyRead_i (w : Bool) (s : State) : (phyRead w s).i = s.i := by
  simp [phyRead]
@[simp] theorem phyRead_p (w : Bool) (s : State) : (phyRead w s).p = s.p := by
  simp [phyRead]
@[simp] theorem phyRead_drained (w : Bool) (s : State) : (phyRead w s).drained = s.drained := by
  simp [phyRead]
@[simp] theorem phyRead_mem (w : Bool) (s : State) : (phyRead w s).mem = s.mem := by
  simp [phyRead]
@[simp] theorem phyRead_trace (w : Bool) (s : State) : (phyRead w s).trace = s.trace ++ [.rx (cutUnit w (nextUnit s))] := by
  simp [phyRead]
@[simp] theorem phyRead_turns (w : Bool) (s : State) : (phyRead w s).turns = s.turns := by
  simp [phyRead]
@[simp] theorem phyRead_caller (w : Bool) (s : State) : (phyRead w s).caller = s.caller := by
  simp [phyRead]
@[simp] theorem phyRead_samples (w : Bool) (s : State) : (phyRead w s).samples = s.samples := by
  simp [phyRead]
@[simp] theorem phyRead_units (w : Bool) (s : State) : (phyRead w s).units = s.units.tail := by
  simp [phyRead]
@[simp] theorem phyRead_replies (w : Bool) (s : State) : (phyRead w s).replies = s.replies := by
  simp [phyRead]

end Sys2Proof.Machine
end

