-- ==== Sys2Proof/Laws/Ops.lean ====
section
/-!
SUPPORT. One lemma per shared operation: everything it can do, cited instead of unfolding it.
-/

namespace Sys2Proof.Machine

/-- What `guarded` answers with a next state (R136). -/
theorem guarded_next {v : Verdict} {s t : State} {act : State → Out} (h : guarded v s act = .next t) :
    (v = .illegal ∧ t = endIllegal s) ∨ (∃ k, v = .fault k ∧ t = raise k s) ∨ (v = .go ∧ act s = .next t) := by
  cases v with
  | illegal => exact .inl ⟨rfl, by simpa [guarded] using h.symm⟩
  | fault k => exact .inr (.inl ⟨k, rfl, by simpa [guarded] using h.symm⟩)
  | go => exact .inr (.inr ⟨rfl, h⟩)

/-- What `owned` answers with a next state (R251). -/
theorem owned_next {s t : State} {act : State → Out} (h : owned s act = .next t) :
    (s.owner ≠ some s.caller ∧ t = raise .misuseLock s) ∨ (s.owner = some s.caller ∧ act s = .next t) := by
  by_cases ho : s.owner = some s.caller
  · exact .inr ⟨ho, by simpa [owned, ho] using h⟩
  · exact .inl ⟨ho, by simpa [owned, ho] using h.symm⟩

/-- The owner's write goes on (R251). -/
theorem owned_of_owner {s : State} (h : s.owner = some s.caller) (act : State → Out) : owned s act = act s :=
  if_pos h

/-- Another caller's write raises (R251). -/
theorem owned_of_not_owner {s : State} (h : s.owner ≠ some s.caller) (act : State → Out) :
    owned s act = .next (raise .misuseLock s) :=
  if_neg h

@[simp] theorem guarded_illegal (s : State) (act : State → Out) :
    guarded .illegal s act = .next (endIllegal s) := rfl

@[simp] theorem guarded_fault (k : Fault) (s : State) (act : State → Out) :
    guarded (.fault k) s act = .next (raise k s) := rfl

@[simp] theorem guarded_go (s : State) (act : State → Out) : guarded .go s act = act s := rfl

/-- What dispatch's order decides (R253). -/
theorem verdictOf_go {r o : Bool} {f : Option Fault} : verdictOf r o f = .go ↔ r = true ∧ o = true ∧ f = none := by
  cases r <;> cases o <;> cases f <;> simp [verdictOf]

theorem verdictOf_illegal {r o : Bool} {f : Option Fault} : verdictOf r o f = .illegal ↔ r = false := by
  cases r <;> cases o <;> cases f <;> simp [verdictOf]

/-- The three ends of a poll (R190). -/
theorem pollResult_cases (s : State) :
    (pollResult s = .ready ∧ nextSample s = true) ∨
    (pollResult s = .exhausted ∧ nextSample s = false ∧ s.p + 1 = s.params.tlimit) ∨
    (pollResult s = .again ∧ nextSample s = false ∧ s.p + 1 ≠ s.params.tlimit) := by
  unfold pollResult
  by_cases hb : nextSample s = true
  · simp [hb]
  · by_cases hp : s.p + 1 = s.params.tlimit <;> simp [hb, hp]

/-- `setBit` bit by bit. -/
theorem getLsbD_setBit (v : Word) (n : Nat) (b : Bool) (k : Nat) :
    (setBit v n b).getLsbD k = if k = n ∧ k < 32 then b else v.getLsbD k := by
  unfold setBit
  by_cases hk : k < 32
  · cases b
    · by_cases h : k = n
      · subst h; simp [hk]
      · by_cases hn : k < n <;> simp_all
        omega
    · by_cases h : k = n
      · subst h; simp [hk]
      · by_cases hn : k < n <;> simp_all
        omega
  · cases b <;> simp [hk, BitVec.getLsbD_of_ge _ _ (by omega : 32 ≤ k)]

/-- Writing a unit keeps the canonical form (R63). -/
theorem writeUnit_wf {m : List Host.Cell} (h : Memory.wf m = true) (a : Nat) (u : TUnit) :
    Memory.wf (writeUnit m a u) = true := by
  cases u
  · exact Memory.wf_write h a _
  · exact Memory.wf_write2 h a _

/-- A unit write changes only the unit's bytes (R63). -/
theorem writeUnit_other (m : List Host.Cell) (a : Nat) (u : TUnit) {x : Nat} (h : x < a ∨ a + u.bytes ≤ x) :
    Memory.read (writeUnit m a u) x = Memory.read m x := by
  cases u with
  | u8 v => exact Memory.read_write_other m a v (by simp [TUnit.bytes] at h; omega)
  | u16 v => simp [TUnit.bytes] at h; exact Memory.read_write2_other m a v (by omega) (by omega)

/-- A unit write inside the address space keeps memory inside it. -/
theorem writeUnit_bound {m : List Host.Cell} {n a : Nat} (h : ∀ c ∈ m, c.1 < n) (u : TUnit) (ha : a + u.bytes ≤ n) :
    ∀ c ∈ writeUnit m a u, c.1 < n := by
  cases u with
  | u8 v => exact Memory.bound_write h (by simp [TUnit.bytes] at ha; omega) v
  | u16 v =>
    simp [TUnit.bytes] at ha
    exact Memory.bound_write (Memory.bound_write h (by omega) _) (by omega) _

@[simp] theorem cutUnit_bytes (wide : Bool) (v : BitVec 16) : (cutUnit wide v).bytes = unitSize wide := by
  cases wide <;> rfl

/-- A unit read back after it was written (R62, R63). -/
theorem readUnit_writeUnit {m : List Host.Cell} (h : Memory.wf m = true) (a : Nat) (wide : Bool) (v : BitVec 16) :
    readUnit wide (writeUnit m a (cutUnit wide v)) a = cutUnit wide v := by
  cases wide
  · simp [readUnit, cutUnit, writeUnit, Memory.read_write_same h]
  · simp [readUnit, cutUnit, writeUnit, Memory.read2_write2 h]

end Sys2Proof.Machine
end

