-- ==== Sys2Proof/Laws/PerInstr.lean ====
section
/-!
SUPPORT. Per instruction: its encoding lies on its row of spec/opcode_table.json, one lemma per constructor.
-/

namespace Sys2Proof.Laws

/-- The match and mask of the instruction's row of spec/opcode_table.json, as `(match, mask)`. -/
def tableRow : Instr → Nat × Nat
  | .init _ => (0x00000001, 0xFF00FFFF)
  | .configure _ _ _ => (0x00000002, 0xFFFF008F)
  | .select _ => (0x00000003, 0xFFFF00FF)
  | .deselect _ => (0x00000004, 0xFFFF00FF)
  | .xfer8 _ _ => (0x00000005, 0xFCFFFFFF)
  | .xfer16 _ _ => (0x00000006, 0xFCFFFFFF)
  | .dmatx _ => (0x00000007, 0xFEFFFFFF)
  | .dmarx => (0x00000008, 0xFFFFFFFF)
  | .acquire => (0x6C, 0xFF)
  | .release _ => (0xEC, 0xFF)
  | .wrCmd _ => (0xC0, 0xFF)
  | .wrArg0 _ => (0xC4, 0xFF)
  | .wrArg1 _ => (0xC8, 0xFF)
  | .wrArg2 _ => (0xCC, 0xFF)
  | .wrRoResult _ => (0xD0, 0xFF)
  | .wrRoDone _ => (0xD4, 0xFF)
  | .wrRoStatus _ => (0xD8, 0xFF)
  | .wrRoFill _ => (0xDC, 0xFF)
  | .wrRoCtrl _ => (0xE0, 0xFF)
  | .wrRoDiv _ => (0xE4, 0xFF)
  | .wrRoCslines _ => (0xE8, 0xFF)
  | .wrRsvd30 _ => (0xF0, 0xFF)
  | .wrRsvd34 _ => (0xF4, 0xFF)
  | .wrRsvd38 _ => (0xF8, 0xFF)
  | .wrRsvd3C _ => (0xFC, 0xFF)
  | .rdCmd => (0x40, 0xFF)
  | .rdArg0 => (0x44, 0xFF)
  | .rdArg1 => (0x48, 0xFF)
  | .rdArg2 => (0x4C, 0xFF)
  | .rdResult => (0x50, 0xFF)
  | .rdDone => (0x54, 0xFF)
  | .rdStatus => (0x58, 0xFF)
  | .rdFill => (0x5C, 0xFF)
  | .rdCtrl => (0x60, 0xFF)
  | .rdDiv => (0x64, 0xFF)
  | .rdCslines => (0x68, 0xFF)
  | .rdbFill => (0x1C, 0xFF)
  | .rdRsvd30 => (0x70, 0xFF)
  | .rdRsvd34 => (0x74, 0xFF)
  | .rdRsvd38 => (0x78, 0xFF)
  | .rdRsvd3C => (0x7C, 0xFF)

/-- The bits of an instruction that the opcode table numbers: the command word, or the access code (R91, R96). -/
def tableBits (i : Instr) : Nat :=
  match encode i with
  | .access code _ => code.toNat
  | .command w => w.toNat

/-- The encoding is on its row: under the row's mask its bits are the row's match. -/
def EncodedRow.Statement (i : Instr) : Prop := tableBits i &&& (tableRow i).2 = (tableRow i).1

/-- A word on a row, in numbers. -/
theorem toNat_on_row {w mask value : Word} (h : w &&& mask = value) : w.toNat &&& mask.toNat = value.toNat := by
  rw [← BitVec.toNat_and, h]

/-- An access code is its own row. -/
theorem EncodedRow.of_access {i : Instr} {code : BitVec 8} {data : Word} (h : encode i = .access code data)
    (hr : tableRow i = (code.toNat, 0xFF)) : EncodedRow.Statement i := by
  unfold EncodedRow.Statement tableBits
  rw [h, hr]
  exact (Nat.and_two_pow_sub_one_eq_mod code.toNat 8).trans (Nat.mod_eq_of_lt code.isLt)

theorem EncodedRow.init (b : BitVec 8) : EncodedRow.Statement (.init b) :=
  toNat_on_row (mask := 0xFF00FFFF#32) (value := 0x00000001#32) (assemble_on_row fun i => by
    rw [getLsbD_assemble]; fin_cases i <;> simp)

theorem EncodedRow.configure (c : Csid) (m : BitVec 2) (x : Bool) : EncodedRow.Statement (.configure c m x) :=
  toNat_on_row (mask := 0xFFFF008F#32) (value := 0x00000002#32) (assemble_on_row fun i => by
    rw [getLsbD_assemble]; fin_cases i <;> simp)

theorem EncodedRow.select (c : Csid) : EncodedRow.Statement (.select c) :=
  toNat_on_row (mask := 0xFFFF00FF#32) (value := 0x00000003#32) (assemble_on_row fun i => by
    rw [getLsbD_assemble]; fin_cases i <;> simp)

theorem EncodedRow.deselect (c : Csid) : EncodedRow.Statement (.deselect c) :=
  toNat_on_row (mask := 0xFFFF00FF#32) (value := 0x00000004#32) (assemble_on_row fun i => by
    rw [getLsbD_assemble]; fin_cases i <;> simp)

theorem EncodedRow.xfer8 (t : Bool) (r : Bool) : EncodedRow.Statement (.xfer8 t r) :=
  toNat_on_row (mask := 0xFCFFFFFF#32) (value := 0x00000005#32) (assemble_on_row fun i => by
    rw [getLsbD_assemble]; fin_cases i <;> simp)

theorem EncodedRow.xfer16 (t : Bool) (r : Bool) : EncodedRow.Statement (.xfer16 t r) :=
  toNat_on_row (mask := 0xFCFFFFFF#32) (value := 0x00000006#32) (assemble_on_row fun i => by
    rw [getLsbD_assemble]; fin_cases i <;> simp)

theorem EncodedRow.dmatx (t : Bool) : EncodedRow.Statement (.dmatx t) :=
  toNat_on_row (mask := 0xFEFFFFFF#32) (value := 0x00000007#32) (assemble_on_row fun i => by
    rw [getLsbD_assemble]; fin_cases i <;> simp)

theorem EncodedRow.dmarx : EncodedRow.Statement (.dmarx) :=
  toNat_on_row (mask := 0xFFFFFFFF#32) (value := 0x00000008#32) (by decide)

theorem EncodedRow.acquire : EncodedRow.Statement (.acquire) :=
  EncodedRow.of_access rfl rfl

theorem EncodedRow.release (v : Word) : EncodedRow.Statement (.release v) :=
  EncodedRow.of_access rfl rfl

theorem EncodedRow.wrCmd (w : Word) : EncodedRow.Statement (.wrCmd w) :=
  EncodedRow.of_access rfl rfl

theorem EncodedRow.wrArg0 (v : Word) : EncodedRow.Statement (.wrArg0 v) :=
  EncodedRow.of_access rfl rfl

theorem EncodedRow.wrArg1 (v : Word) : EncodedRow.Statement (.wrArg1 v) :=
  EncodedRow.of_access rfl rfl

theorem EncodedRow.wrArg2 (v : Word) : EncodedRow.Statement (.wrArg2 v) :=
  EncodedRow.of_access rfl rfl

theorem EncodedRow.wrRoResult (v : Word) : EncodedRow.Statement (.wrRoResult v) :=
  EncodedRow.of_access rfl rfl

theorem EncodedRow.wrRoDone (v : Word) : EncodedRow.Statement (.wrRoDone v) :=
  EncodedRow.of_access rfl rfl

theorem EncodedRow.wrRoStatus (v : Word) : EncodedRow.Statement (.wrRoStatus v) :=
  EncodedRow.of_access rfl rfl

theorem EncodedRow.wrRoFill (v : Word) : EncodedRow.Statement (.wrRoFill v) :=
  EncodedRow.of_access rfl rfl

theorem EncodedRow.wrRoCtrl (v : Word) : EncodedRow.Statement (.wrRoCtrl v) :=
  EncodedRow.of_access rfl rfl

theorem EncodedRow.wrRoDiv (v : Word) : EncodedRow.Statement (.wrRoDiv v) :=
  EncodedRow.of_access rfl rfl

theorem EncodedRow.wrRoCslines (v : Word) : EncodedRow.Statement (.wrRoCslines v) :=
  EncodedRow.of_access rfl rfl

theorem EncodedRow.wrRsvd30 (v : Word) : EncodedRow.Statement (.wrRsvd30 v) :=
  EncodedRow.of_access rfl rfl

theorem EncodedRow.wrRsvd34 (v : Word) : EncodedRow.Statement (.wrRsvd34 v) :=
  EncodedRow.of_access rfl rfl

theorem EncodedRow.wrRsvd38 (v : Word) : EncodedRow.Statement (.wrRsvd38 v) :=
  EncodedRow.of_access rfl rfl

theorem EncodedRow.wrRsvd3C (v : Word) : EncodedRow.Statement (.wrRsvd3C v) :=
  EncodedRow.of_access rfl rfl

theorem EncodedRow.rdCmd : EncodedRow.Statement (.rdCmd) :=
  EncodedRow.of_access rfl rfl

theorem EncodedRow.rdArg0 : EncodedRow.Statement (.rdArg0) :=
  EncodedRow.of_access rfl rfl

theorem EncodedRow.rdArg1 : EncodedRow.Statement (.rdArg1) :=
  EncodedRow.of_access rfl rfl

theorem EncodedRow.rdArg2 : EncodedRow.Statement (.rdArg2) :=
  EncodedRow.of_access rfl rfl

theorem EncodedRow.rdResult : EncodedRow.Statement (.rdResult) :=
  EncodedRow.of_access rfl rfl

theorem EncodedRow.rdDone : EncodedRow.Statement (.rdDone) :=
  EncodedRow.of_access rfl rfl

theorem EncodedRow.rdStatus : EncodedRow.Statement (.rdStatus) :=
  EncodedRow.of_access rfl rfl

theorem EncodedRow.rdFill : EncodedRow.Statement (.rdFill) :=
  EncodedRow.of_access rfl rfl

theorem EncodedRow.rdCtrl : EncodedRow.Statement (.rdCtrl) :=
  EncodedRow.of_access rfl rfl

theorem EncodedRow.rdDiv : EncodedRow.Statement (.rdDiv) :=
  EncodedRow.of_access rfl rfl

theorem EncodedRow.rdCslines : EncodedRow.Statement (.rdCslines) :=
  EncodedRow.of_access rfl rfl

theorem EncodedRow.rdbFill : EncodedRow.Statement (.rdbFill) :=
  EncodedRow.of_access rfl rfl

theorem EncodedRow.rdRsvd30 : EncodedRow.Statement (.rdRsvd30) :=
  EncodedRow.of_access rfl rfl

theorem EncodedRow.rdRsvd34 : EncodedRow.Statement (.rdRsvd34) :=
  EncodedRow.of_access rfl rfl

theorem EncodedRow.rdRsvd38 : EncodedRow.Statement (.rdRsvd38) :=
  EncodedRow.of_access rfl rfl

theorem EncodedRow.rdRsvd3C : EncodedRow.Statement (.rdRsvd3C) :=
  EncodedRow.of_access rfl rfl

end Sys2Proof.Laws
end

