-- ==== Sys2Proof/Laws/Step.lean ====
section
/-!
SUPPORT. What one step can do: the inversion lemma of `fetch` and `step`, cited instead of unfolding them.
-/

namespace Sys2Proof.Machine

/-- An access touches the byte at its address. -/
theorem BusAccess.bytes_pos (a : BusAccess) : 0 < a.bytes := Nat.lt_of_lt_of_le Nat.zero_lt_one (Nat.le_max_left _ _)

/-- The bytes of an access of a whole number of bytes. -/
theorem BusAccess.bytes_of_width {a : BusAccess} {n : Nat} (hn : 1 ≤ n) (h : a.width = 8 * n) :
    a.bytes = n ∧ a.wholeBytes = true := by
  have hb : a.bytes = n := by unfold BusAccess.bytes; omega
  exact ⟨hb, by rw [BusAccess.wholeBytes, hb]; exact decide_eq_true h⟩

/-- An access of an admitted form touches the window (R92). -/
theorem touchesWindow_of_accessInstr {p : Params} {a : BusAccess} {i : Instr} (h : accessInstr p a = some i) :
    touchesWindow p a = true := by
  unfold accessInstr accessCode at h
  split at h
  · cases h
  · rename_i c hc
    split at hc
    · have : 0 < a.bytes := a.bytes_pos
      simp only [touchesWindow, decide_eq_true_eq]
      omega
    · cases hc

/-- An access of an admitted form is a row of the access table (R92). -/
theorem decodeAccess_of_accessInstr {p : Params} {a : BusAccess} {i : Instr} (h : accessInstr p a = some i) :
    ∃ code, decodeAccess code a.word = .ok i := by
  unfold accessInstr at h
  split at h
  · cases h
  · rename_i c _
    split at h
    · rename_i j hj
      exact ⟨c, by rw [hj]; simpa using h⟩
    · cases h

/-- The access of a context that is no caller is refused (R6). -/
theorem busTurn_of_not_caller {a : BusAccess} {s : State} (h : a.caller ∉ s.params.callers) (rest : List Turn) :
    busTurn a rest s = .refuse .noSuchCaller := by
  rw [busTurn, if_pos (by simp [h])]

/-- What a move of the schedule can be. `turns` and `caller` are the schedule after it and the caller of the step. -/
inductive MoveOf (s : State) : Fetched → Prop where
  /-- The run has ended. -/
  | stop (k : Fault) : s.faultMark = some k → MoveOf s (.stop k)
  /-- The block's next micro-step. -/
  | command (i : Instr) (turns : List Turn) : s.faultMark = none → s.busy = true →
      decodeCommandFor s.params s.opw = .ok i → MoveOf s (.run i (advance turns s))
  /-- The end of an illegal word. -/
  | illegal (r : Reject) (turns : List Turn) : s.faultMark = none → s.busy = true →
      decodeCommandFor s.params s.opw = .reject r → MoveOf s (.moved (endIllegal (advance turns s)))
  /-- Nothing to do. -/
  | idle (turns : List Turn) : s.faultMark = none → s.busy = false → MoveOf s (.moved (advance turns s))
  /-- A host access. -/
  | access (i : Instr) (a : BusAccess) (turns : List Turn) : a.caller ∈ s.params.callers → s.faultMark = none → s.busy = false →
      accessInstr s.params a = some i → MoveOf s (.run i (arrive turns a.caller s))
  /-- A window access of another form. -/
  | bad (a : BusAccess) (turns : List Turn) : a.caller ∈ s.params.callers → s.faultMark = none →
      MoveOf s (.moved (raise .badAccess (arrive turns a.caller s)))
  /-- A caller's own load. -/
  | load (a : BusAccess) (turns : List Turn) : a.caller ∈ s.params.callers → s.faultMark = none →
      MoveOf s (.moved (reply (.loaded a.caller (Memory.readBytes s.mem a.addr a.bytes)) (arrive turns a.caller s)))
  /-- A caller's own store. -/
  | store (a : BusAccess) (turns : List Turn) : a.caller ∈ s.params.callers → s.faultMark = none →
      admits s.params a.addr a.bytes .write = true →
      MoveOf s (.moved (reply (.written a.caller)
        (putMem (Memory.writeBytes s.mem a.addr a.bytes a.data) (arrive turns a.caller s))))
  /-- An access the spec gives no meaning. -/
  | refuse (r : Refusal) : s.faultMark = none → MoveOf s (.refuse r)

/-- A move of the block itself. -/
theorem moveOf_blockMove {s : State} (hf : s.faultMark = none) (hb : s.busy = true) (turns : List Turn) :
    MoveOf s (blockMove (advance turns s)) := by
  unfold blockMove
  split
  · rename_i i h; exact .command i turns hf hb h
  · rename_i r h; exact .illegal r turns hf hb h

/-- Every move is one of these. -/
theorem fetch_moveOf (s : State) : MoveOf s (fetch s) := by
  unfold fetch
  split
  · rename_i k h; exact .stop k h
  · rename_i hf
    have block : ∀ turns, MoveOf s (blockTurn (advance turns s)) := by
      intro turns
      unfold blockTurn
      split
      · rename_i hb; exact moveOf_blockMove hf hb turns
      · rename_i hb; exact .idle turns hf (by simpa using hb)
    split
    · exact block s.turns
    · exact block _
    · rename_i a rest h
      unfold busTurn
      by_cases hm : a.caller ∈ s.params.callers
      · rw [if_neg (by simp [hm])]
        split
        · rename_i hc
          simp only [Bool.and_eq_true] at hc
          exact moveOf_blockMove hf hc.1 s.turns
        · split
          · split
            · exact .bad a rest hm hf
            · rename_i i hi
              split
              · rename_i hb; exact moveOf_blockMove hf hb s.turns
              · rename_i hb; exact .access i a rest hm hf (by simpa using hb) hi
          · unfold callerMemory
            split
            · exact .refuse _ hf
            · by_cases hw : a.write = true
              · simp only [hw, if_true]
                split
                · rename_i ha; exact .store a rest hm hf ha
                · exact .refuse _ hf
              · simp only [hw, if_false, Bool.false_eq_true]
                split
                · exact .load a rest hm hf
                · exact .refuse _ hf
      · rw [if_pos (by simp [hm])]
        exact .refuse _ hf

/-- What a step that answers a next state did (R77, R130, R132). -/
theorem step_cases {s t : State} (h : step s = .next t) :
    ∃ m, fetch s = m ∧ MoveOf s m ∧ ((∃ i u, m = .run i u ∧ exec i u = .next t) ∨ m = .moved t) := by
  refine ⟨fetch s, rfl, fetch_moveOf s, ?_⟩
  unfold step at h
  split at h
  · rename_i i u e; exact .inl ⟨i, u, e, h⟩
  · rename_i u e; exact .inr (by rw [e]; simpa using h)
  · cases h
  · cases h

end Sys2Proof.Machine
end

