-- ==== Sys2Proof/Laws/Safety.lean ====
section
/-!
SUPPORT. The marks and final states of a run (60_exceptions.md R247 to R249), and runs step by step.
-/

namespace Sys2Proof.Machine

theorem claimable_iff {s : State} : claimable s = true ↔ s.faultMark = none ∧ s.refusedMark = none := by
  simp [claimable]

/-- A final state: the block is idle and neither mark is set (R138, R249). -/
theorem final_iff {s : State} : final s = true ↔ s.busy = false ∧ s.faultMark = none ∧ s.refusedMark = none := by
  simp [final, claimable]

/-- A marked state is never final (R249). -/
theorem final_of_not_claimable {s : State} (h : claimable s = false) : final s = false := by
  simp [final, h]

/-! ### Runs -/

/-- A run starts with a step, on any core. -/
theorem run_succ_of_core {M : Host.Core} {n : Nat} {s t : M.State} (h : M.step s = .next t) : M.run (n + 1) s = M.run n t := by
  rw [Host.Core.run, h]

/-- A run that answers a next state made its first step, on any core. -/
theorem step_of_run_of_core {M : Host.Core} {n : Nat} {s t : M.State} (h : M.run (n + 1) s = .next t) :
    ∃ u, M.step s = .next u ∧ M.run n u = .next t := by
  unfold Host.Core.run at h
  split at h
  · rename_i u e; exact ⟨u, e, h⟩
  · cases h
  · cases h

/-- A run starts with a step. -/
theorem run_succ {n : Nat} {s t : State} (h : step s = .next t) : core.run (n + 1) s = core.run n t :=
  run_succ_of_core (M := core) h

/-- A run that answers a next state made its first step. -/
theorem step_of_run {n : Nat} {s t : State} (h : core.run (n + 1) s = .next t) :
    ∃ u, step s = .next u ∧ core.run n u = .next t :=
  step_of_run_of_core (M := core) h

/-- What every step keeps, every run keeps. -/
theorem run_keeps {Q : State → Prop} (hstep : ∀ s t, Q s → step s = .next t → Q t) {n : Nat} {s t : State} (hs : Q s)
    (h : core.run n s = .next t) : Q t := by
  induction n generalizing s with
  | zero => cases h; exact hs
  | succ n ih =>
    obtain ⟨u, hu, hr⟩ := step_of_run h
    exact ih (hstep s u hs hu) hr

/-- A run goes on from where a shorter one came to. -/
theorem run_add {n m : Nat} {s t : State} (h : core.run n s = .next t) : core.run (n + m) s = core.run m t := by
  induction n generalizing s with
  | zero => cases h; rw [Nat.zero_add]
  | succ n ih =>
    obtain ⟨u, hu, hr⟩ := step_of_run h
    rw [show n + 1 + m = n + m + 1 by omega, run_succ hu, ih hr]

end Sys2Proof.Machine
end

