-- ==== Sys2Proof/Machine/Asm.lean ====
section
/-!
DEFINITION. The assembler syntax of 30_encoding.md R104 and the pseudo-instructions of R105 (one line of the source's API
each), as a sequence of host accesses.
-/

namespace Sys2Proof.Machine

/-- A flag as R104 writes it. -/
def asmFlag (b : Bool) : String := if b then "1" else "0"

/-- Command syntax inside `st.cmd` (R104); host accesses have none. -/
def asmCommand : Instr → Option String
  | .init b => some ("INIT wbits=" ++ toString b.toNat)
  | .configure c m x =>
    some ("CONFIGURE csid=" ++ toString c.toNat ++ ", mode=" ++ toString m.toNat ++ ", w16=" ++ asmFlag x)
  | .select c => some ("SELECT csid=" ++ toString c.toNat)
  | .deselect c => some ("DESELECT csid=" ++ toString c.toNat)
  | .xfer8 t r => some ("XFER8 txv=" ++ asmFlag t ++ ", rxv=" ++ asmFlag r)
  | .xfer16 t r => some ("XFER16 txv=" ++ asmFlag t ++ ", rxv=" ++ asmFlag r)
  | .dmatx t => some ("DMATX txv=" ++ asmFlag t)
  | .dmarx => some "DMARX"
  | .acquire | .release _ | .wrCmd _ | .wrArg0 _ | .wrArg1 _ | .wrArg2 _ => none
  | .wrRoResult _ | .wrRoDone _ | .wrRoStatus _ | .wrRoFill _ | .wrRoCtrl _ | .wrRoDiv _ | .wrRoCslines _ => none
  | .wrRsvd30 _ | .wrRsvd34 _ | .wrRsvd38 _ | .wrRsvd3C _ => none
  | .rdCmd | .rdArg0 | .rdArg1 | .rdArg2 | .rdResult | .rdDone | .rdStatus | .rdFill => none
  | .rdCtrl | .rdDiv | .rdCslines | .rdbFill => none
  | .rdRsvd30 | .rdRsvd34 | .rdRsvd38 | .rdRsvd3C => none

/-- `st.<reg> <value>` (R104). -/
def asmStore (reg : String) (v : Word) : Option String := some ("st." ++ reg ++ " " ++ toString v.toNat)

/-- `st.cmd <command>`, or the raw word where it spells none (R104). -/
def asmStCmd (w : Word) : Option String :=
  match decodeCommand w with
  | .ok i => (asmCommand i).map ("st.cmd " ++ ·)
  | .reject _ => asmStore "cmd" w

/-- A host access as one statement; a command word as the `st.cmd` that issues it. The reserved offsets have no statement in
R104. -/
def asm : Instr → Option String
  | .acquire => some "ld.lock"
  | .release v => asmStore "lock" v
  | .wrCmd w => asmStCmd w
  | .wrArg0 v => asmStore "arg0" v
  | .wrArg1 v => asmStore "arg1" v
  | .wrArg2 v => asmStore "arg2" v
  | .wrRoResult v => asmStore "result" v
  | .wrRoDone v => asmStore "done" v
  | .wrRoStatus v => asmStore "status" v
  | .wrRoFill v => asmStore "fill" v
  | .wrRoCtrl v => asmStore "ctrl" v
  | .wrRoDiv v => asmStore "div" v
  | .wrRoCslines v => asmStore "cslines" v
  | .wrRsvd30 _ | .wrRsvd34 _ | .wrRsvd38 _ | .wrRsvd3C _ => none
  | .rdCmd => some "ld.cmd"
  | .rdArg0 => some "ld.arg0"
  | .rdArg1 => some "ld.arg1"
  | .rdArg2 => some "ld.arg2"
  | .rdResult => some "ld.result"
  | .rdDone => some "ld.done"
  | .rdStatus => some "ld.status"
  | .rdFill => some "ld.fill"
  | .rdCtrl => some "ld.ctrl"
  | .rdDiv => some "ld.div"
  | .rdCslines => some "ld.cslines"
  | .rdbFill => some "ldb.fill"
  | .rdRsvd30 | .rdRsvd34 | .rdRsvd38 | .rdRsvd3C => none
  | .init b => (asmCommand (.init b)).map ("st.cmd " ++ ·)
  | .configure c m x => (asmCommand (.configure c m x)).map ("st.cmd " ++ ·)
  | .select c => (asmCommand (.select c)).map ("st.cmd " ++ ·)
  | .deselect c => (asmCommand (.deselect c)).map ("st.cmd " ++ ·)
  | .xfer8 t r => (asmCommand (.xfer8 t r)).map ("st.cmd " ++ ·)
  | .xfer16 t r => (asmCommand (.xfer16 t r)).map ("st.cmd " ++ ·)
  | .dmatx t => (asmCommand (.dmatx t)).map ("st.cmd " ++ ·)
  | .dmarx => (asmCommand .dmarx).map ("st.cmd " ++ ·)

/-- The pseudo-instructions of R105; a `none` buffer is `null`. -/
inductive Pseudo where
  | acquire
  | release
  | initbus (bits : BitVec 8)
  | configure (csid : Csid) (mode : BitVec 2) (w16 : Bool) (baud : Word)
  | select (csid : Csid)
  | deselect (csid : Csid)
  | xfer8 (tx rx : Option Word) (n : Word)
  | xfer16 (tx rx : Option Word) (n : Word)
  | dmatx (ch : Word) (src : Option Word) (len : Word)
  | dmarx (ch dst len : Word)
  deriving DecidableEq, Repr

/-- `st.cmd` of a command: the write of its word (R104, R96). -/
def stCmd (i : Instr) : Instr :=
  match encode i with
  | .command w => .wrCmd w
  | .access _ data => .wrCmd data

/-- The expansion of a pseudo-instruction (R105). -/
def Pseudo.expand : Pseudo → List Instr
  | .acquire => [.acquire]
  | .release => [.release 0#32]
  | .initbus b => [stCmd (.init b)]
  | .configure c m x baud => [.wrArg0 baud, stCmd (.configure c m x)]
  | .select c => [stCmd (.select c)]
  | .deselect c => [stCmd (.deselect c)]
  | .xfer8 tx rx n =>
    [.wrArg0 (tx.getD 0#32), .wrArg1 (rx.getD 0#32), .wrArg2 n, stCmd (.xfer8 tx.isSome rx.isSome)]
  | .xfer16 tx rx n =>
    [.wrArg0 (tx.getD 0#32), .wrArg1 (rx.getD 0#32), .wrArg2 n, stCmd (.xfer16 tx.isSome rx.isSome)]
  | .dmatx ch src len => [.wrArg0 (src.getD 0#32), .wrArg1 ch, .wrArg2 len, stCmd (.dmatx src.isSome)]
  | .dmarx ch dst len => [.wrArg0 dst, .wrArg1 ch, .wrArg2 len, stCmd .dmarx]

end Sys2Proof.Machine
end

