-- ==== Sys2Proof/Tests/Slice0.lean ====
section
/-!
SUPPORT. Small tests and witnesses. Expected values are the words of 30_encoding.md R91, R92, R96, R97 and R106 and the vectors
of 95_test_vectors.md (named in each docstring); a witness shows that a statement's hypotheses can be met.
-/

namespace Sys2Proof.Tests

open Sys2Proof Sys2Proof.Machine Sys2Proof.Claims

/-- A field of the next state an outcome answers. -/
def after {α : Type} (o : Out) (f : State → α) : Option α :=
  match o with
  | .next t => some (f t)
  | .fault _ => none
  | .refused _ => none

/-- Program P1 of 95_test_vectors.md after its line 4: device 1 configured, caller 1 owns the lock. -/
def configured : State :=
  { State.reset with
    lock := true, owner := some 1, caller := 1, inited := true
    session := .configured, cfgId := some 1#8, ctrl := 0x0000FF47#32, div := 21#32
    opa0 := 4000000#32, arg0 := 4000000#32 }

/-- Program P1 after its line 8, the operands latched: device 1 selected, two bytes to send. -/
def selected : State :=
  { configured with
    session := .selected, selId := some 1#8, ctrl := 0x0000FD47#32
    opa0 := 0x20000000#32, opa1 := 0x20000100#32, opa2 := 2#32
    arg0 := 0x20000000#32, arg1 := 0x20000100#32, arg2 := 2#32
    mem := [(0x20000000, 0x34#8), (0x20000001, 0x12#8)] }

/-- The same device configured for 16-bit units. -/
def selected16 : State := { selected with ctrl := 0x0000FD57#32, opa2 := 1#32, arg2 := 1#32 }

/-- An XFER8 with both buffers in progress, at a given micro-step, its polls answered 1 and its units given. -/
def running (ph : Phase) : State :=
  { selected with
    busy := true, issuer := 1, opw := 0x03000005#32, phase := ph
    samples := [true, true, true, true], units := [0x0034#16, 0x0012#16] }

/-- The parameters with a small poll limit, as some vectors set it. -/
def shortWait : Params := { Config.platform with tlimit := 3 }

/-- The parameters on the direct scheme (vectors S4, S7). -/
def direct : Params := { Config.platform with csScheme := .direct }

/-! ### Well-formedness -/

/-- XFER16 and the DMA commands are ill-formed on a block without the option (R99). -/
theorem test_wf_absent :
    (Instr.xfer16 true true).wf { Config.platform with word16 := false } = false ∧
    (Instr.dmatx true).wf { Config.platform with dmaPresent := false } = false ∧
    Instr.dmarx.wf { Config.platform with dmaPresent := false } = false := by decide

/-- An identifier from NCS on is ill-formed (R102), the last one below is well-formed. -/
theorem test_wf_identifier :
    (Instr.select 8#8).wf Config.platform = false ∧ (Instr.deselect 8#8).wf Config.platform = false ∧
    (Instr.configure 9#8 0#2 false).wf Config.platform = false ∧ (Instr.select 7#8).wf Config.platform = true := by decide

/-- Parameters outside the ranges of R7, one check each. -/
theorem test_params_wf :
    Config.platform.wf = true ∧ ({ Config.platform with backend := .usart } : Params).wf = false ∧
    ({ Config.platform with ncs := 33 } : Params).wf = false ∧ ({ Config.platform with ndirect := 0 } : Params).wf = false ∧
    ({ Config.platform with ndma := 0 } : Params).wf = false ∧ ({ Config.platform with sysclk := 0 } : Params).wf = false ∧
    ({ Config.platform with divMax := 65536 } : Params).wf = false ∧
    ({ Config.platform with tlimit := 0 } : Params).wf = false ∧
    ({ Config.platform with base := 0x40008004 } : Params).wf = false ∧
    ({ Config.platform with callers := [] } : Params).wf = false ∧
    ({ Config.platform with callers := [1, 2, 1] } : Params).wf = false := by decide

/-! ### Decoding: every constructor from bits written out by R96 and R91 -/

/-- INIT wbits=12: WBITS 00001100, OP 0001 (R106). -/
theorem test_decode_init : decodeTableWord 32 0b00000000_00001100_00000000_00000001 = some (.init 12#8) := by decide

/-- CONFIGURE csid=2, mode=3, w16=1: CSID 00000010, W16 1, MODE 11, OP 0010 (R106). -/
theorem test_decode_configure :
    decodeTableWord 32 0b00000000_00000000_00000010_01110010 = some (.configure 2#8 3#2 true) := by decide

/-- SELECT csid=129 and DESELECT csid=1: CSID, OP 0011 and 0100 (R96, R106). -/
theorem test_decode_select :
    decodeTableWord 32 0b00000000_00000000_10000001_00000011 = some (.select 129#8) ∧
    decodeTableWord 32 0b00000000_00000000_00000001_00000100 = some (.deselect 1#8) := by decide

/-- XFER8 txv=0, rxv=1 and XFER16 txv=1, rxv=0: RXV bit 25, TXV bit 24 (R96). -/
theorem test_decode_xfer :
    decodeTableWord 32 0b00000010_00000000_00000000_00000101 = some (.xfer8 false true) ∧
    decodeTableWord 32 0b00000001_00000000_00000000_00000110 = some (.xfer16 true false) := by decide

/-- DMATX txv=1 and DMARX (R106). -/
theorem test_decode_dma :
    decodeTableWord 32 0b00000001_00000000_00000000_00000111 = some (.dmatx true) ∧
    decodeTableWord 32 0b00000000_00000000_00000000_00001000 = some .dmarx := by decide

/-- The arbiter's codes: 32-bit read and write at offset 101100 (R92). -/
theorem test_decode_arbiter :
    decodeTableWord 8 0b01_101100 = some .acquire ∧ decodeTableWord 8 0b11_101100 = some (.release 0#32) := by decide

/-- 32-bit writes to the command port (R92). -/
theorem test_decode_port_writes :
    decodeTableWord 8 0b11_000000 = some (.wrCmd 0#32) ∧ decodeTableWord 8 0b11_000100 = some (.wrArg0 0#32) ∧
    decodeTableWord 8 0b11_001000 = some (.wrArg1 0#32) ∧ decodeTableWord 8 0b11_001100 = some (.wrArg2 0#32) := by decide

/-- 32-bit writes to the read-only registers (R92). -/
theorem test_decode_read_only_writes :
    decodeTableWord 8 0b11_010000 = some (.wrRoResult 0#32) ∧ decodeTableWord 8 0b11_010100 = some (.wrRoDone 0#32) ∧
    decodeTableWord 8 0b11_011000 = some (.wrRoStatus 0#32) ∧ decodeTableWord 8 0b11_011100 = some (.wrRoFill 0#32) ∧
    decodeTableWord 8 0b11_100000 = some (.wrRoCtrl 0#32) ∧ decodeTableWord 8 0b11_100100 = some (.wrRoDiv 0#32) ∧
    decodeTableWord 8 0b11_101000 = some (.wrRoCslines 0#32) := by decide

/-- 32-bit writes and reads at the reserved offsets (R92). -/
theorem test_decode_reserved_offsets :
    decodeTableWord 8 0b11_110000 = some (.wrRsvd30 0#32) ∧ decodeTableWord 8 0b11_110100 = some (.wrRsvd34 0#32) ∧
    decodeTableWord 8 0b11_111000 = some (.wrRsvd38 0#32) ∧ decodeTableWord 8 0b11_111100 = some (.wrRsvd3C 0#32) ∧
    decodeTableWord 8 0b01_110000 = some .rdRsvd30 ∧ decodeTableWord 8 0b01_110100 = some .rdRsvd34 ∧
    decodeTableWord 8 0b01_111000 = some .rdRsvd38 ∧ decodeTableWord 8 0b01_111100 = some .rdRsvd3C := by decide

/-- 32-bit reads, and the 8-bit read of FILL (R92). -/
theorem test_decode_reads :
    decodeTableWord 8 0b01_000000 = some .rdCmd ∧ decodeTableWord 8 0b01_000100 = some .rdArg0 ∧
    decodeTableWord 8 0b01_001000 = some .rdArg1 ∧ decodeTableWord 8 0b01_001100 = some .rdArg2 ∧
    decodeTableWord 8 0b01_010000 = some .rdResult ∧ decodeTableWord 8 0b01_010100 = some .rdDone ∧
    decodeTableWord 8 0b01_011000 = some .rdStatus ∧ decodeTableWord 8 0b01_011100 = some .rdFill ∧
    decodeTableWord 8 0b00_011100 = some .rdbFill ∧ decodeTableWord 8 0b01_100000 = some .rdCtrl ∧
    decodeTableWord 8 0b01_100100 = some .rdDiv ∧ decodeTableWord 8 0b01_101000 = some .rdCslines := by decide

/-- Words and codes that spell nothing (R101, R92; vectors I1 to I7, P7 to P9). -/
theorem test_decode_rejects :
    decodeCommand 0#32 = .reject .reservedOpcode ∧ decodeCommand 0xF#32 = .reject .reservedOpcode ∧
    decodeCommand 0x00100003#32 = .reject .reservedBits ∧ decodeCommand 0x00000182#32 = .reject .reservedBits ∧
    decodeCommandFor { Config.platform with word16 := false } 0x03000006#32 = .reject .absentCommand ∧
    decodeAccess 0x10#8 0#32 = .reject .noSuchAccess ∧ decodeAccess 0x9C#8 0#32 = .reject .noSuchAccess ∧
    decodeAccess 0x42#8 0#32 = .reject .noSuchAccess := by decide

/-- The assembler form of a command word and of an access (R104, program P1 lines 4 and 6). -/
theorem test_asm :
    asm (.wrCmd 0x00000102#32) = some "st.cmd CONFIGURE csid=1, mode=0, w16=0" ∧
    asm (.wrArg0 3#32) = some "st.arg0 3" ∧ asm .rdbFill = some "ldb.fill" := by decide

/-- The expansion of `xfer8` with a null transmit buffer (R105, program P2 lines 3 to 5). -/
theorem test_pseudo :
    (Pseudo.xfer8 none (some 0x20000200#32) 4#32).expand =
      [.wrArg0 0#32, .wrArg1 0x20000200#32, .wrArg2 4#32, .wrCmd 0x02000005#32] := by decide

/-! ### Single steps, from the vectors of 95_test_vectors.md -/

/-- N1: the first INIT. -/
theorem test_init_first :
    after (exec (.init 8#8) State.reset) (fun t => (t.ctrl, t.inited, t.trace)) =
      some (0x0000FF06#32, true, [.platformInit, .resetAll, .apply 0x0000FF06#32 0#32]) := by decide

/-- N2: a later INIT reports the width and records nothing. -/
theorem test_init_later :
    after (exec (.init 16#8) configured) (fun t => (t.result, t.ctrl, t.trace)) =
      some (0x00000100#32, 0x0000FF47#32, []) := by decide

/-- The CTRL table of L2.4 for mode 1 and for mode 3 with 16 bits; baud 4000000 gives divisor 21. -/
theorem test_configure_ctrl :
    after (exec (.configure 1#8 1#2 false) configured) (fun t => (t.ctrl, t.div)) = some (0x0000FF07#32, 21#32) ∧
    after (exec (.configure 2#8 3#2 true) configured) (fun t => (t.ctrl, t.cfgId)) =
      some (0x0000FF37#32, some 2#8) := by decide

/-- Divisors of L2.4: 329412 gives 255, 5000000 gives 17; 329000 is a misuse. -/
theorem test_configure_divisor :
    after (exec (.configure 1#8 0#2 false) { configured with opa0 := 329412#32 }) State.div = some 255#32 ∧
    after (exec (.configure 1#8 0#2 false) { configured with opa0 := 5000000#32 }) State.div = some 17#32 ∧
    after (exec (.configure 1#8 0#2 false) { configured with opa0 := 329000#32 }) State.faultMark =
      some (some .misuseDivisor) := by decide

/-- S2: a direct identifier on the decoder scheme. -/
theorem test_select_pattern :
    after (exec (.select 3#8) { configured with cfgId := some 3#8 }) (fun t => (t.ctrl, t.cslines, t.trace)) =
      some (0x0000F747#32, 0xFF#32, [.apply 0x0000F747#32 21#32]) := by decide

/-- S3, S4: a dedicated line, beyond NDIRECT and on the direct scheme. -/
theorem test_select_line :
    after (exec (.select 4#8) { configured with cfgId := some 4#8 }) (fun t => (t.ctrl, t.cslines, t.trace)) =
      some (0x0000FF47#32, 0xEF#32, [.cs 4 false]) ∧
    after (exec (.select 1#8) { configured with params := direct }) State.cslines = some 0xFD#32 := by decide

/-- S5: FINISH_DESELECT on the decoder scheme. -/
theorem test_deselect_finish :
    after (exec (.deselect 1#8) { selected with phase := .finishDeselect, drained := true })
      (fun t => (t.ctrl, t.cslines, t.result, t.trace)) =
      some (0x0000FF47#32, 0xFF#32, 0#32, [.lastXfer, .apply 0x0000FF47#32 21#32, .cs 1 true]) := by decide

/-- S8: a drain timeout is reported, and the line is driven high all the same (direct scheme: S7). -/
theorem test_deselect_timeout :
    after (exec (.deselect 1#8)
        { selected with phase := .finishDeselect, drained := false, params := direct, cslines := 0xFD#32 })
      (fun t => (t.cslines, t.result, t.trace)) = some (0xFF#32, 0x31#32, [.cs 1 true]) := by decide

/-- R192: the first unit of two is emitted from memory without the last marker, the filler with it when it is the last. -/
theorem test_xfer8_emit :
    after (exec (.xfer8 true true) (running .emit)) State.trace = some [.tx (.u8 0x34#8) false] ∧
    after (exec (.xfer8 false true) { running .emit with i := 1#32 }) State.trace = some [.tx (.u8 0xFF#8) true] := by decide

/-- X20: a receive write that Admit refuses. -/
theorem test_xfer8_recv_refused :
    after (exec (.xfer8 true true) { running .recv with opa1 := 0x2000FFFF#32, i := 1#32 })
      (fun t => (t.faultMark, t.done)) = some (some .busErr, 0#32) := by decide

/-- X17: a 16-bit unit is little-endian in memory, both ways. -/
theorem test_xfer16_units :
    after (exec (.xfer16 true true) { selected16 with phase := .emit }) State.trace = some [.tx (.u16 0x1234#16) true] ∧
    after (exec (.xfer16 true true) { selected16 with phase := .recv, units := [0x5678#16] })
      (fun t => (Memory.read t.mem 0x20000100, Memory.read t.mem 0x20000101, t.done)) =
      some (0x78#8, 0x56#8, 1#32) := by decide

/-- X10, X11: width before alignment. -/
theorem test_xfer16_misuse :
    after (exec (.xfer16 true true) { selected with opa0 := 0x20000001#32 }) State.faultMark = some (some .misuseWidth) ∧
    after (exec (.xfer16 true true) { selected16 with opa0 := 0x20000001#32 }) State.faultMark =
      some (some .misuseBuffer) := by decide

/-- M1, M2: DMATX from a buffer, and from the FILL byte at BASE + 0x1C. -/
theorem test_dmatx :
    after (exec (.dmatx true) { selected with opa1 := 1#32, opa2 := 64#32 })
      (fun t => (t.trace, t.refusedMark)) =
      some ([.dmaDisable 1#32, .dmaConfig 1#32 1#32 .memToPer,
        .dmaDesc 1#32 0x20000000#32 true 0x4000900C#32 false 64#32, .dmaEnable 1#32], some .extDma) ∧
    after (exec (.dmatx false) { selected with opa1 := 2#32, opa2 := 512#32 }) (fun t => t.trace[2]?) =
      some (some (.dmaDesc 2#32 0x4000801C#32 false 0x4000900C#32 false 512#32)) := by decide

/-- M3, M6: DMARX, and a buffer past the end of the address space. -/
theorem test_dmarx :
    after (exec .dmarx { selected with opa0 := 0x20001000#32, opa1 := 3#32, opa2 := 16#32 }) (fun t => t.trace[2]?) =
      some (some (.dmaDesc 3#32 0x40009008#32 false 0x20001000#32 true 16#32)) ∧
    after (exec .dmarx { selected with opa0 := 0xFFFFFFF0#32, opa1 := 3#32, opa2 := 32#32 }) State.faultMark =
      some (some .misuseBuffer) := by decide

/-- A1, A3: the lock is taken once and is not re-entrant. -/
theorem test_acquire :
    after (exec .acquire { State.reset with caller := 1 }) (fun t => (t.lock, t.owner, t.replies)) =
      some (true, some 1, [.word 1 1#32]) ∧
    after (exec .acquire configured) (fun t => (t.lock, t.owner, t.replies)) =
      some (true, some 1, [.word 1 0#32]) := by decide

/-- A4, A6: another caller's RELEASE clears the lock and leaves the session. -/
theorem test_release :
    after (exec (.release 0x12345678#32) { selected with caller := 2 }) (fun t => (t.lock, t.owner, t.session)) =
      some (false, none, .selected) := by decide

/-- P3: a command without the lock. -/
theorem test_wrCmd_misuse :
    after (exec (.wrCmd 0x00080001#32) { State.reset with caller := 1 }) (fun t => (t.faultMark, t.cmd)) =
      some (some .misuseLock, 0#32) := by decide

/-- Q2: an identifier out of range in a wrong session is accepted as an illegal word, not a misuse. -/
theorem test_wrCmd_illegal :
    after (exec (.wrCmd 0x00000803#32) selected) (fun t => (t.faultMark, t.cmd, t.busy)) =
      some (none, 0x00000803#32, true) := by decide

/-- P1, P2: the owner's and another caller's ARG write. -/
theorem test_wrArg :
    after (exec (.wrArg0 0x20000100#32) configured) State.arg0 = some 0x20000100#32 ∧
    after (exec (.wrArg1 5#32) { configured with caller := 2 }) (fun t => (t.faultMark, t.arg1)) =
      some (some .misuseLock, 0#32) := by decide

/-- P12: the reads after reset. -/
theorem test_reads_reset :
    after (exec .rdCtrl State.reset) State.replies = some [.word 1 0x0000FF00#32] ∧
    after (exec .rdDiv State.reset) State.replies = some [.word 1 0#32] ∧
    after (exec .rdCslines State.reset) State.replies = some [.word 1 0xFF#32] ∧
    after (exec .rdCmd State.reset) State.replies = some [.word 1 0#32] := by decide

/-- R143's example, P5 and P6: STATUS after ACQUIRE and INIT; FILL as a word and as a byte. -/
theorem test_reads_views :
    after (exec .rdStatus configured) State.replies = some [.word 1 3#32] ∧
    after (exec .rdFill configured) State.replies = some [.word 1 0xFF#32] ∧
    after (exec .rdbFill configured) State.replies = some [.byte 1 0xFF#8] := by decide

/-- A caller's 64-bit store and 16-bit load: the low byte at the lowest address (R64). -/
theorem test_caller_memory_wide :
    after (step { State.reset with turns := [.bus ⟨2, true, 64, 0x2000FFF8, 0x0807060504030201⟩] })
      (fun t => (Memory.read t.mem 0x2000FFF8, Memory.read t.mem 0x2000FFFF, t.replies)) =
      some (1#8, 8#8, [.written 2]) ∧
    after (step { selected with turns := [.bus ⟨2, false, 16, 0x20000000, 0⟩] }) State.replies =
      some [.loaded 2 [0x34#8, 0x12#8]] := by decide

/-- The example Admit accepts every access to 0x20000000 .. 0x2000FFFF, of any size, and refuses every other address. -/
theorem test_admit_example :
    admits Config.platform 0x20000000 0x10000 .read = true ∧ admits Config.platform 0x2000FFFD 3 .write = true ∧
    admits Config.platform 0x2000FFFE 3 .write = false ∧ admits Config.platform 0x1FFFFFFF 1 .read = false ∧
    admits Config.platform 0x20010000 1 .write = false := by decide

/-- A record with a size accepts that size alone (R61: a predicate on address, size and direction). -/
theorem test_admit_size :
    admits { Config.platform with admission := [⟨.read, some 2, 0x100, 2⟩] } 0x100 2 .read = true ∧
    admits { Config.platform with admission := [⟨.read, some 2, 0x100, 2⟩] } 0x100 1 .read = false ∧
    admits { Config.platform with admission := [⟨.read, some 2, 0x100, 2⟩] } 0x100 2 .write = false := by decide

/-- The callers are A and B of the example configuration (1 and 2); an access of any other context is refused (R6, D31). -/
theorem test_callers :
    fetch { State.reset with turns := [.bus ⟨3, false, 32, 0x4000802C, 0⟩] } = .refuse .noSuchCaller ∧
    after (step { State.reset with turns := [.bus ⟨2, false, 32, 0x4000802C, 0⟩] }) State.owner = some (some 2) := by decide

/-- R92, R130: a 64-bit access in the window. -/
theorem test_bad_access_wide :
    after (step { State.reset with turns := [.bus ⟨2, false, 64, 0x40008000, 0⟩] }) State.faultMark =
      some (some .badAccess) := by decide

/-! ### Witnesses -/

/-- A 32-bit access of caller 2 at an offset of the window. -/
def access (write : Bool) (off : Nat) (data : Word) : BusAccess := ⟨2, write, 32, 0x40008000 + off, data.toNat⟩

theorem witness_DecodeOfEncode : (Instr.xfer16 true true).present Config.platform = true := by decide

theorem witness_EncodeOfDecodedCommand : decodeCommand 0x03000005#32 = .ok (.xfer8 true true) := by decide

theorem witness_AbsentCommandIsReserved :
    (Instr.xfer16 true true).present { Config.platform with word16 := false } = false := by decide

theorem witness_NoWordMatchesTwoRows :
    ⟨.select, 0xFFFF00FF#32, 0x00000003#32⟩ ∈ commandRows ∧
    0x00000103#32 &&& 0xFFFF00FF#32 = 0x00000003#32 ∧ decodeCommand 0x00000103#32 = .ok (.select 1#8) := by decide

theorem witness_AcquireTestsAndSets : State.reset.lock = false ∧ configured.lock = true := by decide

theorem witness_LockMovesOnlyByArbiter :
    ∃ t, step { State.reset with turns := [.bus (access false 0x2C 0#32)] } = .next t ∧ t.lock ≠ State.reset.lock :=
  ⟨_, rfl, by decide⟩

theorem witness_LockMovesOnlyByArbiter_held :
    ∃ t, configured.lock = true ∧
      step { configured with turns := [.bus (access true 0x2C 0#32)] } = .next t ∧ t.lock = false :=
  ⟨_, rfl, rfl, by decide⟩

theorem witness_ArgWrites :
    configured.owner = some configured.caller ∧ State.reset.owner ≠ some State.reset.caller := by decide

/-- X14: a transmit buffer that ends exactly at BASE. -/
theorem witness_CommandAccepted_xfer :
    let s := { selected with arg0 := 0x40007FFE#32 }
    s.owner = some s.caller ∧ decodeCommandFor s.params 0x03000005#32 = .ok (.xfer8 true true) ∧
    ¬ outOfRange (.xfer8 true true) (latched s 0x03000005#32) ∧ allowed (.xfer8 true true) (latched s 0x03000005#32) ∧
    ∀ k, ¬ operandsRaise (.xfer8 true true) k (latched s 0x03000005#32) := by
  refine ⟨rfl, by decide, ?_, rfl, fun k => ?_⟩
  · rintro (h | ⟨⟨_, h⟩ | h, _⟩) <;> cases h
  · rintro (⟨_, h⟩ | ⟨_, _, _, ⟨_, h⟩ | ⟨_, h⟩⟩)
    · exact absurd h (by decide)
    · exact h ⟨⟨by decide, by decide⟩, by decide⟩
    · exact h ⟨⟨by decide, by decide⟩, by decide⟩

theorem witness_CommandAccepted_deselect :
    decodeCommandFor selected.params 0x00000104#32 = .ok (.deselect 1#8) ∧
    ¬ outOfRange (.deselect 1#8) (latched selected 0x00000104#32) ∧
    allowed (.deselect 1#8) (latched selected 0x00000104#32) ∧
    ∀ k, ¬ operandsRaise (.deselect 1#8) k (latched selected 0x00000104#32) :=
  ⟨by decide, fun h => h.elim (fun h => by cases h) (fun h => h.1.elim (fun ⟨_, h⟩ => by cases h) (fun h => by cases h)),
    ⟨Or.inl rfl, rfl⟩, fun _ h => h⟩

/-- The last identifier below NCS at the largest legal divisor (L2.4: baud 329412). -/
theorem witness_CommandAccepted_one_step :
    let s := { configured with arg0 := 329412#32 }
    s.owner = some s.caller ∧ decodeCommandFor s.params 0x00000702#32 = .ok (.configure 7#8 0#2 false) ∧
    ¬ outOfRange (.configure 7#8 0#2 false) (latched s 0x00000702#32) ∧
    allowed (.configure 7#8 0#2 false) (latched s 0x00000702#32) ∧
    ∀ k, ¬ operandsRaise (.configure 7#8 0#2 false) k (latched s 0x00000702#32) := by
  refine ⟨rfl, by decide, ?_, ⟨rfl, Or.inr (Or.inl rfl)⟩, fun k => ?_⟩
  · rintro (h | ⟨⟨_, h⟩ | h, _⟩)
    · exact absurd h (by decide)
    · cases h
    · cases h
  · rintro ⟨_, h | h⟩ <;> exact absurd h (by decide)

theorem witness_IllegalWordEnds :
    configured.owner = some configured.caller ∧ configured.faultMark = none ∧ configured.phase = .idle ∧
    configured.turns = [] ∧ decodeCommandFor configured.params 0x00000009#32 = .reject .reservedOpcode := by decide

theorem witness_IllegalWordEnds_range :
    decodeCommandFor configured.params 0x00000803#32 = .ok (.select 8#8) ∧
    outOfRange (.select 8#8) (latched configured 0x00000803#32) :=
  ⟨by decide, Or.inl (by decide)⟩

theorem witness_MisusedCommandWritePerformsNothing_lock : State.reset.owner ≠ some State.reset.caller := by decide

/-- DESELECT with no device selected. -/
theorem witness_MisusedCommandWritePerformsNothing_order :
    configured.owner = some configured.caller ∧ decodeCommandFor configured.params 0x00000104#32 = .ok (.deselect 1#8) ∧
    ¬ outOfRange (.deselect 1#8) (latched configured 0x00000104#32) ∧
    ¬ allowed (.deselect 1#8) (latched configured 0x00000104#32) :=
  ⟨rfl, by decide, fun h => h.elim (fun h => by cases h) (fun h => h.1.elim (fun ⟨_, h⟩ => by cases h) (fun h => by cases h)),
    fun h => absurd h.1 (by decide)⟩

/-- L2.4: baud 329000 gives a divisor above DIV_MAX. -/
theorem witness_MisusedCommandWritePerformsNothing_divisor :
    let s := { configured with arg0 := 329000#32 }
    decodeCommandFor s.params 0x00000102#32 = .ok (.configure 1#8 0#2 false) ∧
    allowed (.configure 1#8 0#2 false) (latched s 0x00000102#32) ∧
    operandsRaise (.configure 1#8 0#2 false) .misuseDivisor (latched s 0x00000102#32) :=
  ⟨by decide, ⟨rfl, Or.inr (Or.inl rfl)⟩, rfl, Or.inr (by decide)⟩

/-- X10, X12: the wrong width; the first length at which a byte buffer wraps. -/
theorem witness_MisusedCommandWritePerformsNothing_transfer :
    operandsRaise (.xfer16 true true) .misuseWidth (latched selected 0x03000006#32) ∧
    operandsRaise (.xfer8 true false) .misuseBuffer (latched { selected with arg0 := 0xFFFFFFFF#32 } 0x01000005#32) :=
  ⟨Or.inl ⟨rfl, by decide⟩, Or.inr ⟨rfl, by decide, by decide, Or.inl ⟨rfl, fun h => absurd h.1.1 (by decide)⟩⟩⟩

/-- A DMA length of 0, and a buffer past the end of the address space (M6). -/
theorem witness_MisusedCommandWritePerformsNothing_dma :
    operandsRaise .dmarx .misuseDma (latched { selected with arg2 := 0#32 } 0x00000008#32) ∧
    operandsRaise .dmarx .misuseBuffer (latched { selected with arg0 := 0xFFFFFFFF#32 } 0x00000008#32) :=
  ⟨Or.inl ⟨rfl, Or.inr rfl⟩, Or.inr ⟨rfl, by decide, by decide, rfl, fun h => absurd h.1 (by decide)⟩⟩

theorem witness_WrongSessionRaises :
    State.reset.phase = .idle ∧ isCommand .dmarx = true ∧ Instr.dmarx.present State.reset.params = true ∧
    ¬ outOfRange .dmarx State.reset ∧ ¬ allowed .dmarx State.reset := by
  refine ⟨rfl, rfl, rfl, ?_, fun h => absurd (show State.reset.session = .selected from h) (by decide)⟩
  rintro (h | ⟨_, h⟩)
  · exact absurd h (by decide)
  · exact absurd h (by decide)

theorem witness_OutOfRangeIsIllegal_identifier :
    State.reset.phase = .idle ∧ outOfRange (.select 8#8) State.reset ∧ outOfRange (.configure 255#8 0#2 false) State.reset :=
  ⟨rfl, Or.inl (by decide), Or.inl (by decide)⟩

theorem witness_OutOfRangeIsIllegal_channel : outOfRange .dmarx { State.reset with opa1 := 4#32 } :=
  Or.inr ⟨Or.inr rfl, by decide⟩

theorem witness_IllegalDivisorRaises :
    (1#8).toNat < configured.params.ncs ∧ allowed (.configure 1#8 0#2 false) configured ∧
    (configured.params.divMax < (configured.params.sysclk + (329000#32).toNat - 1) / (329000#32).toNat) :=
  ⟨by decide, ⟨rfl, Or.inr (Or.inl rfl)⟩, by decide⟩

theorem witness_IllegalDivisorRaises_zero :
    allowed (.configure 1#8 0#2 false) { configured with opa0 := 0#32 } ∧ ({ configured with opa0 := 0#32 } : State).opa0 = 0#32 :=
  ⟨⟨rfl, Or.inr (Or.inl rfl)⟩, rfl⟩

theorem witness_TransferOperandsRaise_width :
    selected.phase = .idle ∧ selected.session = .selected ∧ selected.params.word16 = true ∧
    selected.ctrl.getLsbD 4 ≠ true := by decide

/-- X12: the first length at which a byte buffer wraps; X13: a receive buffer over the window. -/
theorem witness_TransferOperandsRaise_buffer :
    selected.ctrl.getLsbD 4 = false ∧ selected.opa2 ≠ 0#32 ∧
    ¬ xferFits selected.params false (0xFFFFFFFF#32).toNat 2 ∧
    ¬ xferFits selected.params false (0x4000803F#32).toNat 1 := by
  refine ⟨by decide, by decide, ?_, ?_⟩
  · rintro ⟨⟨h, _⟩, _⟩; exact absurd h (by decide)
  · rintro ⟨⟨_, h⟩, _⟩; exact absurd h (by decide)

/-- X11: a misaligned 16-bit buffer. -/
theorem witness_TransferOperandsRaise_aligned :
    selected16.ctrl.getLsbD 4 = true ∧ ¬ xferFits selected16.params true (0x20000001#32).toNat 1 := by
  refine ⟨by decide, ?_⟩
  rintro ⟨_, h⟩; exact absurd (h rfl) (by decide)

theorem witness_DmaOperandsRaise :
    selected.session = .selected ∧ selected.params.dmaPresent = true ∧ (3#32).toNat < selected.params.ndma ∧
    selected16.ctrl.getLsbD 4 = true ∧ selected.ctrl.getLsbD 4 = false := by decide

theorem witness_DmaOperandsRaise_buffer : ¬ fits selected.params (0xFFFFFFF0#32).toNat 32 := by
  rintro ⟨h, _⟩; exact absurd h (by decide)

theorem witness_FirstInit : State.reset.inited = false := rfl

theorem witness_LaterInit : configured.inited = true := rfl

theorem witness_DivisorRoundsUp : 1 ≤ (1#32).toNat ∧ 1 ≤ Config.platform.sysclk := by decide

/-- The largest legal divisor (L2.4: baud 329412). -/
theorem witness_ConfigureApplies :
    (1#8).toNat < configured.params.ncs ∧ allowed (.configure 1#8 0#2 false) configured ∧ 329412#32 ≠ 0#32 ∧
    (configured.params.sysclk + (329412#32).toNat - 1) / (329412#32).toNat ≤ configured.params.divMax :=
  ⟨by decide, ⟨rfl, Or.inr (Or.inl rfl)⟩, by decide, by decide⟩

theorem witness_NoStaleSettings :
    configured.ctrl &&& 0xFFFFFF8C#32 = 0x0000FF27#32 &&& 0xFFFFFF8C#32 ∧ (7#8).toNat < configured.params.ncs ∧
    allowed (.configure 7#8 0#2 false) configured ∧
    allowed (.configure 7#8 0#2 false) { configured with ctrl := 0x0000FF27#32, cfgId := some 5#8 } ∧
    ¬ divisorRaises configured :=
  ⟨by decide, by decide, ⟨rfl, Or.inr (Or.inl rfl)⟩, ⟨rfl, Or.inr (Or.inl rfl)⟩, fun h => h.elim (by decide) (by decide)⟩

/-- The last direct identifier. -/
theorem witness_SelectByPattern :
    (3#8).toNat < configured.params.ncs ∧ allowed (.select 3#8) { configured with cfgId := some 3#8 } ∧
    configured.params.csScheme = .decoder ∧ (3#8).toNat < configured.params.ndirect :=
  ⟨by decide, ⟨Or.inl rfl, rfl⟩, rfl, by decide⟩

/-- The first identifier beyond the direct range, and the direct scheme. -/
theorem witness_SelectByLine :
    (4#8).toNat < configured.params.ncs ∧ allowed (.select 4#8) { configured with cfgId := some 4#8 } ∧
    configured.params.ndirect ≤ (4#8).toNat ∧ direct.csScheme = .direct :=
  ⟨by decide, ⟨Or.inl rfl, rfl⟩, by decide, rfl⟩

theorem witness_DeselectDrains :
    selected.phase = .idle ∧ (1#8).toNat < selected.params.ncs ∧ allowed (.deselect 1#8) selected ∧
    nextSample (running .pollDrain) = true :=
  ⟨rfl, by decide, ⟨Or.inl rfl, rfl⟩, by decide⟩

/-- The last poll of a wait of 3 and the one before it, both answered 0. -/
theorem witness_DeselectDrains_zero :
    nextSample { selected with phase := .pollDrain, samples := [false], p := 2, params := shortWait } = false ∧
    2 + 1 = shortWait.tlimit ∧ 1 + 1 ≠ shortWait.tlimit := by decide

theorem witness_DeselectDeasserts :
    ({ selected with phase := .finishDeselect } : State).phase = .finishDeselect ∧
    selected.params.csScheme = .decoder ∧ ({ selected with params := direct } : State).params.csScheme = .direct := by decide

/-- X2, X14: a length of 0 with any buffer; a buffer that ends exactly at BASE. -/
theorem witness_TransferStarts :
    selected.phase = .idle ∧ selected.session = .selected ∧ selected.ctrl.getLsbD 4 = false ∧
    ({ selected with opa2 := 0#32 } : State).opa2 = 0#32 ∧ xferFits selected.params false (0x40007FFC#32).toNat 4 :=
  ⟨rfl, rfl, by decide, rfl, ⟨⟨by decide, by decide⟩, by decide⟩⟩

theorem witness_TransmitWait :
    (running .pollTx).phase = .pollTx ∧ (running .pollTx).i.toNat < (running .pollTx).opa2.toNat ∧
    nextSample (running .pollTx) = true := by decide

theorem witness_TransmitWait_zero :
    nextSample { running .pollTx with samples := [false], p := 2, params := shortWait } = false ∧
    2 + 1 = shortWait.tlimit ∧ 1 + 1 ≠ shortWait.tlimit := by decide

theorem witness_TransferEnds :
    (running .pollTx).phase = .pollTx ∧
    ({ running .pollTx with i := 2#32 } : State).opa2.toNat ≤ ({ running .pollTx with i := 2#32 } : State).i.toNat := by decide

/-- X2: a length of 0. -/
theorem witness_TransferEnds_zero :
    ({ running .pollTx with opa2 := 0#32 } : State).phase = .pollTx ∧
    ({ running .pollTx with opa2 := 0#32 } : State).opa2.toNat ≤ ({ running .pollTx with opa2 := 0#32 } : State).i.toNat := by
  decide

theorem witness_EmitUnit :
    (running .emit).phase = .emit ∧
    admits Config.platform (addrOf false 0x20000000#32 1) (unitSize false) .read = true ∧
    admits Config.platform (addrOf false 0x2000FFFF#32 1) (unitSize false) .read = false := by decide

theorem witness_ReceiveWait :
    (running .pollRx).phase = .pollRx ∧ nextSample (running .pollRx) = true ∧
    nextSample { running .pollRx with samples := [false], p := 2, params := shortWait } = false := by decide

theorem witness_ReceiveUnit :
    (running .recv).phase = .recv ∧ Memory.wf (running .recv).mem = true ∧
    admits Config.platform (addrOf true 0x2000FFFC#32 1) (unitSize true) .write = true ∧
    admits Config.platform (addrOf true 0x2000FFFE#32 1) (unitSize true) .write = false := by decide

theorem witness_Draws :
    (running .recv).samples = [true, true, true, true] ∧ State.reset.samples = [] ∧
    (running .recv).units = [0x0034#16, 0x0012#16] ∧ State.reset.units = [] := by decide

/-- The last channel, the shortest length, a buffer that ends at the end of the address space. -/
theorem witness_DmatxArms :
    selected.params.dmaPresent = true ∧ (3#32).toNat < selected.params.ndma ∧ selected.session = .selected ∧
    selected.ctrl.getLsbD 4 = false ∧ 1#32 ≠ 0#32 ∧ fits selected.params (0xFFFFFFFF#32).toNat 1 :=
  ⟨rfl, by decide, rfl, by decide, by decide, ⟨by decide, by decide⟩⟩

theorem witness_DmarxArms : fits selected.params (0x40008040#32).toNat 16 := ⟨by decide, by decide⟩

theorem witness_StepRunsAccess :
    State.reset.faultMark = none ∧ State.reset.busy = false ∧ (access true 0x3C 5#32).caller ∈ State.reset.params.callers ∧
    accessInstr State.reset.params (access true 0x3C 5#32) = some (.wrRsvd3C 5#32) := by decide

theorem witness_StepRunsAccess_no_caller :
    ({ access true 0x3C 5#32 with caller := 3 } : BusAccess).caller ∉ State.reset.params.callers := by decide

theorem witness_StepRunsCommand :
    (running .emit).faultMark = none ∧ (running .emit).busy = true ∧ (running .emit).turns = [] ∧
    decodeCommandFor (running .emit).params (running .emit).opw = .ok (.xfer8 true true) ∧
    ({ running .emit with turns := [.block] } : State).turns = [.block] := by decide

theorem witness_PlacedInstructionRuns :
    Instr.acquire.present State.reset.params = true ∧ State.reset.caller ∈ State.reset.params.callers ∧ encode .acquire = .access 0x6C#8 0#32 ∧
    Instr.dmarx.present State.reset.params = true ∧ encode .dmarx = .command 0x00000008#32 := by decide

/-- A8: caller 2 reads LOCK while caller 1's transfer runs; caller 1, the issuer, has no step. -/
theorem witness_BusyHoldsAccesses :
    (running .emit).busy = true ∧ (access false 0x2C 0#32).caller ∈ (running .emit).params.callers ∧ accessInstr (running .emit).params (access false 0x2C 0#32) = some .acquire ∧
    (running .emit).issuer = 1 := by decide

/-- The forms of R92 at both ends of their range: the first and the last word, and the byte of FILL. -/
theorem witness_BadAccessRaises_admitted :
    admittedForm Config.platform ⟨2, true, 32, 0x40008000, 0⟩ ∧ admittedForm Config.platform ⟨2, false, 32, 0x4000803C, 0⟩ ∧
    admittedForm Config.platform ⟨2, false, 8, 0x4000801C, 0⟩ :=
  ⟨Or.inl (by decide), Or.inl (by decide), Or.inr (by decide)⟩

/-- P7 to P9: 16 bits, a byte write, an odd offset; then 64 bits, 1 bit, a byte read of another register, and accesses that
reach the window's first byte from below and touch only its last. -/
theorem witness_BadAccessRaises :
    ∀ a ∈ [(⟨2, false, 16, 0x40008010, 0⟩ : BusAccess), ⟨2, true, 8, 0x4000801C, 0⟩, ⟨2, false, 32, 0x40008002, 0⟩,
        ⟨2, false, 64, 0x40008000, 0⟩, ⟨2, false, 1, 0x4000801C, 0⟩, ⟨2, false, 8, 0x4000803F, 0⟩,
        ⟨2, false, 32, 0x40007FFD, 0⟩, ⟨2, true, 32, 0x4000803F, 0⟩],
      a.caller ∈ Config.platform.callers ∧ ¬ admittedForm Config.platform a ∧ Config.platform.base < a.addr + max 1 ((a.width + 7) / 8) ∧
        a.addr < Config.platform.base + 0x40 := by
  unfold admittedForm
  decide

theorem witness_MarkedStopsAndIdleStays :
    ({ State.reset with faultMark := some .busErr } : State).faultMark = some .busErr ∧ State.reset.faultMark = none ∧
    State.reset.busy = false ∧ State.reset.turns = [] := by decide

/-- The last admitted byte, the first, and the last admitted word. -/
theorem witness_CallerMemoryAccess :
    admits Config.platform 0x2000FFFF 1 .read = true ∧ admits Config.platform 0x20000000 1 .write = true ∧
    admits Config.platform 0x2000FFFC 4 .write = true ∧ 0x2000FFFC + 4 ≤ Config.platform.base ∧
    2 ∈ Config.platform.callers ∧ (running .emit).issuer ≠ 2 := by decide

theorem witness_ResetMeetsInvariant :
    Config.platform.wf = true ∧ Memory.wf [(0, 1#8), (0xFFFFFFFF, 2#8)] = true ∧
    ∀ c ∈ [((0, 1#8) : Host.Cell), (0xFFFFFFFF, 2#8)], c.1 < 2 ^ 32 := by decide

/-- A transfer in progress meets the invariant, with its device selected by the pattern. -/
theorem witness_StepKeepsInvariant : Invariant (running .pollTx) where
  params := by decide
  mem := by decide
  memBound := by decide
  owner := by decide
  ownerCaller := fun c h => by
    have : c = 1 := by simpa [running, selected, configured] using h.symm
    subst this; decide
  callerCaller := by decide
  issuerCaller := fun _ => by decide
  ctrlReserved := by decide
  pcs := by decide
  lines := by
    intro n
    show (255#32).getLsbD n = (decide (n < 8) && !(decide (1 = n) && !true))
    by_cases h : n < 8
    · interval_cases n <;> decide
    · have h2 : Nat.testBit 255 n = false :=
        Nat.testBit_eq_false_of_lt (lt_of_lt_of_le (by decide : 255 < 2 ^ 8) (Nat.pow_le_pow_right (by decide) (by omega)))
      rw [BitVec.getLsbD_ofNat, h2]
      simp [h]
  div := by decide
  result := by decide
  unconfigured := by decide
  configured := fun _ => by decide
  cfgRange := fun id h => by
    have : id = 1#8 := by simpa [running, selected, configured] using h.symm
    subst this; decide
  selected := by decide
  selCfg := fun _ => by decide
  polls := by decide
  idle := fun h => absurd h (by decide)
  phase := ⟨⟨false, true, true, by decide, by decide, rfl, rfl⟩, by decide, by decide⟩

theorem witness_StepOnlyAdds : ∃ t, step configured = .next t ∧ configured.inited = true := ⟨_, rfl, rfl⟩

/-- A run that arms a DMA transfer in its first step, and one that raised a fault before it. -/
theorem witness_StepOnlyAdds_marked :
    (∃ t, step { selected with busy := true, opw := 0x00000008#32, opa1 := 1#32 } = .next t ∧ t.refusedMark ≠ none ∧
      t.busy = false ∧ ∃ u, core.run 1 t = .next u) ∧
    core.run 0 { State.reset with faultMark := some .busErr } = .next { State.reset with faultMark := some .busErr } :=
  ⟨⟨_, rfl, by decide, by decide, _, rfl⟩, rfl⟩

theorem witness_MemoryChangesOnlyAtReceive :
    after (exec (.xfer8 true true) (running .recv)) (fun t => decide (t.mem ≠ (running .recv).mem)) = some true := by decide

theorem witness_WhoWritesWhat_port :
    after (exec (.wrCmd 9#32) configured) State.cmd = some 9#32 ∧
    after (exec (.wrArg0 9#32) configured) State.arg0 = some 9#32 ∧
    after (exec (.wrArg1 9#32) configured) State.arg1 = some 9#32 ∧
    after (exec (.wrArg2 9#32) configured) State.arg2 = some 9#32 ∧
    after (exec (.release 9#32) configured) State.lock = some false := by decide

theorem witness_WhoWritesWhat_commands :
    after (exec (.init 8#8) State.reset) State.inited = some true ∧
    after (exec (.configure 1#8 0#2 false) { configured with div := 1#32, ctrl := 0#32 }) (fun t => (t.div, t.ctrl)) =
      some (21#32, 0x43#32) ∧
    after (exec (.select 4#8) { configured with cfgId := some 4#8 }) State.cslines = some 0xEF#32 ∧
    after (exec (.xfer8 true true) (running .recv)) State.done = some 1#32 ∧
    after (exec (.wrCmd 0x03000005#32) { selected with done := 7#32 }) State.done = some 0#32 ∧
    after (exec (.init 16#8) configured) State.result = some 0x100#32 := by decide

/-- P2 of the command port, seen without the monitor: the same reads whoever owns the lock. -/
theorem witness_MonitorIsInvisible :
    hardware { configured with owner := some 2, session := .error } = hardware configured ∧
    (∃ t, step { configured with turns := [.bus (access false 0x10 0#32)] } = .next t ∧ t.faultMark = none) :=
  ⟨rfl, _, rfl, rfl⟩

/-- A transfer of two units, dispatched. -/
theorem witness_started : Started false true true (running .pollTx) :=
  ⟨by decide, rfl, rfl, rfl, rfl, by decide, rfl, rfl, rfl, rfl⟩

theorem witness_TransferCompletes :
    Started false true true (running .pollTx) ∧ Admitted false true true (running .pollTx) ∧
    (running .pollTx).units = [0x0034#16, 0x0012#16] ++ [] ∧
    (running .pollTx).samples = List.replicate (2 * (running .pollTx).opa2.toNat) true ++ [] := by
  refine ⟨witness_started, ⟨fun _ => ?_, fun _ => ?_⟩, rfl, rfl⟩
  · show ∀ k < 2, _
    decide
  · show ∀ k < 2, _
    decide

/-- A transfer of one unit to a buffer apart from its source, looped back (X3). -/
theorem witness_LoopbackRoundTrip :
    ∃ t, core.run 5 { running .pollTx with opa2 := 1#32 } = .next t ∧ final t = true ∧ t.result = 0#32 ∧
      loopback t.trace = true ∧ txMarks t.trace = [true] ∧ addrOf false 0x20000000#32 1 ≤ (0x20000100#32).toNat :=
  ⟨_, rfl, by decide, by decide, by decide, by decide, by decide⟩

/-- A transfer of one filler unit, looped back (L1.4). -/
theorem witness_FillerIsSentAndLoopedBack :
    Started false false true { running .pollTx with opw := 0x02000005#32, opa2 := 1#32, units := [0xFF#16] } ∧
    ∃ t, core.run 5 { running .pollTx with opw := 0x02000005#32, opa2 := 1#32, units := [0xFF#16] } = .next t ∧
      final t = true ∧ t.result = 0#32 ∧ loopback t.trace = true :=
  ⟨⟨by decide, rfl, rfl, rfl, rfl, by decide, rfl, rfl, rfl, rfl⟩, _, rfl, by decide, by decide, by decide⟩

/-- A transmit-ready timeout at the first unit, and a receive-ready timeout at the last of one, with a limit of one poll. -/
theorem witness_PartialResultsOnTimeout :
    Started false true true { running .pollTx with params := { Config.platform with tlimit := 1 } } ∧
    (∃ t, core.run 1 { running .pollTx with params := { Config.platform with tlimit := 1 }, samples := [false] } = .next t ∧
      final t = true ∧ t.result = 0x11#32) ∧
    ∃ t, core.run 3
      { running .pollTx with params := { Config.platform with tlimit := 1 }, opa2 := 1#32, samples := [true, false] } = .next t ∧
      final t = true ∧ t.result = 0x21#32 :=
  ⟨⟨by decide, rfl, rfl, rfl, rfl, by decide, rfl, rfl, rfl, rfl⟩, ⟨_, rfl, by decide, by decide⟩,
    _, rfl, by decide, by decide⟩

/-- The same runs, and one that ends OK, meet the premises. -/
theorem witness_LastMarkerOnFinalUnit :
    Started false true true (running .pollTx) ∧
    ∃ t, core.run 5 { running .pollTx with opa2 := 1#32 } = .next t ∧ final t = true ∧ t.result = 0#32 :=
  ⟨witness_started, _, rfl, by decide, by decide⟩

theorem witness_TransmitTimeoutIsExact :
    claimable (running .pollTx) = true ∧ (running .pollTx).turns = [] ∧ (running .pollTx).busy = true ∧
    decodeCommandFor shortWait (running .pollTx).opw = .ok (xferInstr false true true) ∧
    (running .pollTx).phase = .pollTx ∧ (running .pollTx).p = 0 ∧
    (running .pollTx).i.toNat < (running .pollTx).opa2.toNat ∧ 1 ≤ shortWait.tlimit ∧
    [false, false, false] = List.replicate shortWait.tlimit false ++ [] := by decide

theorem witness_CommandsEnd :
    Invariant (running .pollTx) ∧ claimable (running .pollTx) = true ∧ (running .pollTx).phase ≠ .idle ∧
    (running .pollTx).turns = [] :=
  ⟨witness_StepKeepsInvariant, by decide, by decide, rfl⟩

end Sys2Proof.Tests
end

/-! ## What an instruction and a step can do -/

namespace Sys2Proof.Machine

open Sys2Proof.Claims

/-! ### Commands and host accesses -/

@[simp] theorem isCommand_xferInstr (wide txv rxv : Bool) : isCommand (xferInstr wide txv rxv) = true := by
  cases wide <;> rfl

/-- What a command word spells is a command (R99). -/
theorem isCommand_of_decodeCommandFor {p : Params} {w : Word} {i : Instr} (h : decodeCommandFor p w = .ok i) :
    isCommand i = true := by
  obtain ⟨c, rfl⟩ := decodeCommandFor_instr h
  cases c <;> rfl

/-- What a window access spells is no command (R92). -/
theorem isCommand_of_accessInstr {p : Params} {a : BusAccess} {i : Instr} (h : accessInstr p a = some i) :
    isCommand i = false := by
  obtain ⟨code, hc⟩ := decodeAccess_of_accessInstr h
  unfold decodeAccess at hc
  split at hc <;> cases hc <;> rfl

/-! ### The micro-steps after a command's start -/

/-- What the micro-steps of a started transfer can do (R41, R190, R195). -/
inductive XferMove (wide txv rxv : Bool) (s : State) : State → Prop where
  | finished : s.phase = .pollTx → s.opa2.toNat ≤ s.i.toNat → XferMove wide txv rxv s (finish resultOk s)
  | txReady : s.phase = .pollTx → s.i.toNat < s.opa2.toNat → nextSample s = true →
      XferMove wide txv rxv s { pollEffect .txRdy s with phase := .emit }
  | txTimeout : s.phase = .pollTx → s.i.toNat < s.opa2.toNat → nextSample s = false → s.p + 1 = s.params.tlimit →
      XferMove wide txv rxv s (xferTimeout 1#2 (pollEffect .txRdy s))
  | txAgain : s.phase = .pollTx → s.i.toNat < s.opa2.toNat → nextSample s = false → s.p + 1 ≠ s.params.tlimit →
      XferMove wide txv rxv s (pollEffect .txRdy s)
  | sent : s.phase = .emit → txv = true → admits s.params (unitAddr wide s.opa0 s.i) (unitSize wide) .read = true →
      XferMove wide txv rxv s (emitUnit (readUnit wide s.mem (unitAddr wide s.opa0 s.i)) s)
  | readRefused : s.phase = .emit → txv = true →
      admits s.params (unitAddr wide s.opa0 s.i) (unitSize wide) .read = false →
      XferMove wide txv rxv s (raise .busErr s)
  | filled : s.phase = .emit → txv = false → XferMove wide txv rxv s (emitUnit (filler wide) s)
  | rxReady : s.phase = .pollRx → nextSample s = true →
      XferMove wide txv rxv s { pollEffect .rxRdy s with phase := .recv }
  | rxTimeout : s.phase = .pollRx → nextSample s = false → s.p + 1 = s.params.tlimit →
      XferMove wide txv rxv s (xferTimeout 2#2 (pollEffect .rxRdy s))
  | rxAgain : s.phase = .pollRx → nextSample s = false → s.p + 1 ≠ s.params.tlimit →
      XferMove wide txv rxv s (pollEffect .rxRdy s)
  | stored : s.phase = .recv → rxv = true → admits s.params (unitAddr wide s.opa1 s.i) (unitSize wide) .write = true →
      XferMove wide txv rxv s (nextUnitIndex (putMem
        (writeUnit s.mem (unitAddr wide s.opa1 s.i) (cutUnit wide (nextUnit s))) (phyRead wide s)))
  | storeRefused : s.phase = .recv → rxv = true →
      admits s.params (unitAddr wide s.opa1 s.i) (unitSize wide) .write = false →
      XferMove wide txv rxv s (raise .busErr (phyRead wide s))
  | discarded : s.phase = .recv → rxv = false → XferMove wide txv rxv s (nextUnitIndex (phyRead wide s))

/-- What the micro-steps of a started DESELECT can do (R172, R190). -/
inductive DeselectMove (id : Csid) (s : State) : State → Prop where
  | ready : s.phase = .pollDrain → nextSample s = true →
      DeselectMove id s { pollEffect .txEmpty s with drained := true, phase := .finishDeselect }
  | timeout : s.phase = .pollDrain → nextSample s = false → s.p + 1 = s.params.tlimit →
      DeselectMove id s { pollEffect .txEmpty s with drained := false, phase := .finishDeselect }
  | again : s.phase = .pollDrain → nextSample s = false → s.p + 1 ≠ s.params.tlimit →
      DeselectMove id s (pollEffect .txEmpty s)
  | finished : s.phase = .finishDeselect → DeselectMove id s (finishDeselect id s)

theorem xferPollTx_move (wide txv rxv : Bool) {s : State} (h : s.phase = .pollTx) :
    XferMove wide txv rxv s (xferPollTx s) := by
  unfold xferPollTx
  split
  case isTrue hi =>
    obtain ⟨e, hb⟩ | ⟨e, hb, hp⟩ | ⟨e, hb, hp⟩ := pollResult_cases s <;> rw [e]
    · exact .txReady h hi hb
    · exact .txTimeout h hi hb hp
    · exact .txAgain h hi hb hp
  case isFalse hi => exact .finished h (Nat.le_of_not_lt hi)

theorem xferEmit_move (wide txv rxv : Bool) {s : State} (h : s.phase = .emit) :
    XferMove wide txv rxv s (xferEmit wide txv s) := by
  unfold xferEmit
  split
  case isTrue ht =>
    split
    case isTrue ha => exact .sent h ht ha
    case isFalse ha => exact .readRefused h ht (by simpa using ha)
  case isFalse ht => exact .filled h (by simpa using ht)

theorem xferPollRx_move (wide txv rxv : Bool) {s : State} (h : s.phase = .pollRx) :
    XferMove wide txv rxv s (xferPollRx s) := by
  unfold xferPollRx
  obtain ⟨e, hb⟩ | ⟨e, hb, hp⟩ | ⟨e, hb, hp⟩ := pollResult_cases s <;> rw [e]
  · exact .rxReady h hb
  · exact .rxTimeout h hb hp
  · exact .rxAgain h hb hp

/-- RECV's checks, made after the read, are those of the state before it: a read leaves the operands and memory (R69, R195). -/
theorem xferRecv_eq (wide rxv : Bool) (s : State) : xferRecv wide rxv s =
    if rxv then
      if admits s.params (unitAddr wide s.opa1 s.i) (unitSize wide) .write then
        nextUnitIndex (putMem (writeUnit s.mem (unitAddr wide s.opa1 s.i) (cutUnit wide (nextUnit s))) (phyRead wide s))
      else raise .busErr (phyRead wide s)
    else nextUnitIndex (phyRead wide s) := by
  rw [← phyRead_params wide s, ← phyRead_opa1 wide s, ← phyRead_i wide s, ← phyRead_mem wide s]
  rfl

theorem xferRecv_move (wide txv rxv : Bool) {s : State} (h : s.phase = .recv) :
    XferMove wide txv rxv s (xferRecv wide rxv s) := by
  rw [xferRecv_eq]
  split
  case isTrue hr =>
    split
    case isTrue ha => exact .stored h hr ha
    case isFalse ha => exact .storeRefused h hr (by simpa using ha)
  case isFalse hr => exact .discarded h (by simpa using hr)

theorem pollDrainStep_move (id : Csid) {s : State} (h : s.phase = .pollDrain) :
    DeselectMove id s (pollDrainStep s) := by
  unfold pollDrainStep
  obtain ⟨e, hb⟩ | ⟨e, hb, hp⟩ | ⟨e, hb, hp⟩ := pollResult_cases s <;> rw [e]
  · exact .ready h hb
  · exact .timeout h hb hp
  · exact .again h hb hp

/-- What XferCore does at each PHASE (R195). -/
theorem xferStep_cases {wide txv rxv : Bool} {s t : State} (h : xferStep wide txv rxv s = .next t) :
    (s.phase = .idle ∧ guarded (verdictXfer wide txv rxv s) s (fun s => .next (beginXfer s)) = .next t) ∨
    XferMove wide txv rxv s t := by
  unfold xferStep at h
  split at h
  case h_1 hp => exact .inl ⟨hp, h⟩
  case h_2 hp => cases h; exact .inr (xferPollTx_move _ _ _ hp)
  case h_3 hp => cases h; exact .inr (xferEmit_move _ _ _ hp)
  case h_4 hp => cases h; exact .inr (xferPollRx_move _ _ _ hp)
  case h_5 hp => cases h; exact .inr (xferRecv_move _ _ _ hp)
  all_goals cases h

/-- What DESELECT does at each PHASE (R172). -/
theorem execDeselect_cases {id : Csid} {s t : State} (h : execDeselect id s = .next t) :
    (s.phase = .idle ∧ guarded (verdictDeselect id s) s (fun s => .next (beginDeselect s)) = .next t) ∨
    DeselectMove id s t := by
  unfold execDeselect at h
  split at h
  case h_1 hp => exact .inl ⟨hp, h⟩
  case h_2 hp => cases h; exact .inr (pollDrainStep_move _ hp)
  case h_3 hp => cases h; exact .inr (.finished hp)
  all_goals cases h

/-! ### An instruction -/

/-- The work of the first INIT: CTRL, INITED and three events (R151). -/
theorem firstInit_eq (s : State) : firstInit s = { s with
    inited := true, ctrl := ctrlInit s.ctrl,
    trace := s.trace ++ [.platformInit, .resetAll, .apply (ctrlInit s.ctrl) s.div] } := by
  simp [firstInit, phyApply, record]

/-- The events of `Arm` change the trace only (R220). -/
theorem arm_eq (ch hs : Word) (dir : DmaDir) (src : Word) (si : Bool) (dst : Word) (di : Bool) (len : Word) (s : State) :
    arm ch hs dir src si dst di len s = { s with trace := s.trace ++ [.dmaDisable ch, .dmaConfig ch hs dir,
      .dmaDesc ch src si dst di len, .dmaEnable ch] } := by
  simp [arm, record]

/-- What an instruction that answers a next state can do: one constructor per effect, under the conditions it needs. -/
inductive Effect (s : State) : Instr → State → Prop where
  /-- A misuse is marked, and nothing performed (R247). -/
  | raised (i : Instr) (k : Fault) : Effect s i (raise k s)
  /-- A command out of range ends (R137). -/
  | illegal (i : Instr) : isCommand i = true → Effect s i (endIllegal s)
  /-- A read answers, a write is ignored, an ACQUIRE finds the lock held (R120, R134, R139 to R148). -/
  | answered (i : Instr) (r : Reply) : isCommand i = false → Effect s i (reply r s)
  | acquired : s.lock = false → Effect s .acquire
      (reply (.word s.caller 0x00000001#32) { s with lock := true, owner := some s.caller })
  | released (v : Word) : Effect s (.release v) (reply (.written s.caller) { s with lock := false, owner := none })
  | wroteArg0 (v : Word) : s.owner = some s.caller →
      Effect s (.wrArg0 v) (reply (.written s.caller) { s with arg0 := v })
  | wroteArg1 (v : Word) : s.owner = some s.caller →
      Effect s (.wrArg1 v) (reply (.written s.caller) { s with arg1 := v })
  | wroteArg2 (v : Word) : s.owner = some s.caller →
      Effect s (.wrArg2 v) (reply (.written s.caller) { s with arg2 := v })
  /-- A word that is illegal, or a one-step command, is latched (R135, R137). -/
  | latched (w : Word) : s.owner = some s.caller → Effect s (.wrCmd w) (acceptCommand w s)
  /-- A transfer is latched and started (R135, R195; log 12). -/
  | latchedXfer (w : Word) (wide txv rxv : Bool) : s.owner = some s.caller →
      decodeCommandFor s.params w = .ok (xferInstr wide txv rxv) →
      verdictXfer wide txv rxv (acceptCommand w s) = .go →
      Effect s (.wrCmd w) (beginXfer (acceptCommand w s))
  /-- A DESELECT is latched and started (R135, R172; log 12). -/
  | latchedDeselect (w : Word) (id : Csid) : s.owner = some s.caller →
      decodeCommandFor s.params w = .ok (.deselect id) → verdictDeselect id (acceptCommand w s) = .go →
      Effect s (.wrCmd w) (beginDeselect (acceptCommand w s))
  | firstInit (b : BitVec 8) : s.inited = false →
      Effect s (.init b) (finish (resultInit (decide (mapWidth b = 16))) { s with
        inited := true, ctrl := ctrlInit s.ctrl,
        trace := s.trace ++ [.platformInit, .resetAll, .apply (ctrlInit s.ctrl) s.div] })
  | laterInit (b : BitVec 8) : s.inited = true →
      Effect s (.init b) (finish (resultInit (decide (mapWidth b = 16))) s)
  | configured (id : Csid) (m : BitVec 2) (x : Bool) : verdictConfigure id s = .go →
      Effect s (.configure id m x) (finish resultOk
        { phyApply { record .resetTxrx s with
            ctrl := ctrlConfigure s.ctrl m x, div := BitVec.ofNat 32 (divisor s.params s.opa0) } with
          session := .configured, cfgId := some id })
  | selectedByPattern (id : Csid) : verdictSelect id s = .go → usesPattern s.params id = true →
      Effect s (.select id) (finish resultOk
        { phyApply { s with ctrl := setPcs s.ctrl (pcsPattern id) } with session := .selected, selId := some id })
  | selectedByLine (id : Csid) : verdictSelect id s = .go → usesPattern s.params id = false →
      Effect s (.select id) (finish resultOk
        { driveCS id.toNat false s with session := .selected, selId := some id })
  | deselectStarted (id : Csid) : s.phase = .idle → verdictDeselect id s = .go →
      Effect s (.deselect id) (beginDeselect s)
  | deselect {t : State} (id : Csid) : DeselectMove id s t → Effect s (.deselect id) t
  | xferStarted (wide txv rxv : Bool) : s.phase = .idle → verdictXfer wide txv rxv s = .go →
      Effect s (xferInstr wide txv rxv) (beginXfer s)
  | xfer {t : State} (wide txv rxv : Bool) : XferMove wide txv rxv s t → Effect s (xferInstr wide txv rxv) t
  | armedTx (txv : Bool) : verdictDma txv s = .go →
      Effect s (.dmatx txv) (dmaArmed { s with trace := s.trace ++ [.dmaDisable s.opa1,
        .dmaConfig s.opa1 s.params.hsTx .memToPer,
        .dmaDesc s.opa1 (if txv then s.opa0 else BitVec.ofNat 32 (s.params.base + Config.fillOffset)) txv
          s.params.tdrAddr false s.opa2,
        .dmaEnable s.opa1] })
  | armedRx : verdictDma true s = .go →
      Effect s .dmarx (dmaArmed { s with trace := s.trace ++ [.dmaDisable s.opa1,
        .dmaConfig s.opa1 s.params.hsRx .perToMem, .dmaDesc s.opa1 s.params.rdrAddr false s.opa0 true s.opa2,
        .dmaEnable s.opa1] })

/-- A guarded command ends as illegal, raises, or does what it does once its checks pass (R136). -/
theorem effect_of_guarded {s t : State} {i : Instr} {v : Verdict} {act : State → Out} (hi : isCommand i = true)
    (h : guarded v s act = .next t) (hgo : v = .go → act s = .next t → Effect s i t) : Effect s i t := by
  obtain ⟨-, rfl⟩ | ⟨k, -, rfl⟩ | ⟨hv, ha⟩ := guarded_next h
  · exact .illegal i hi
  · exact .raised i k
  · exact hgo hv ha

/-- An owner's write raises MISUSE_LOCK, or does what it does (R251). -/
theorem effect_of_owned {s t : State} {i : Instr} {act : State → Out} (h : owned s act = .next t)
    (hgo : s.owner = some s.caller → act s = .next t → Effect s i t) : Effect s i t := by
  obtain ⟨-, rfl⟩ | ⟨ho, ha⟩ := owned_next h
  · exact .raised i _
  · exact hgo ho ha

theorem effect_of_acquire {s t : State} (h : execAcquire s = .next t) : Effect s .acquire t := by
  unfold execAcquire at h
  split at h
  · cases h; exact .answered _ _ rfl
  · cases h; exact .acquired (by simpa using ‹¬ s.lock = true›)

theorem effect_of_wrCmd {w : Word} {s t : State} (h : execWrCmd w s = .next t) : Effect s (.wrCmd w) t := by
  refine effect_of_owned h fun ho ha => ?_
  simp only [acceptCommand_params, acceptCommand_opw] at ha
  split at ha
  · cases ha; exact .latched w ho
  · rename_i i hd
    split at ha
    · cases ha; exact .latched w ho
    · cases ha; exact .raised _ _
    · rename_i hv
      cases ha
      obtain ⟨c, rfl⟩ := decodeCommandFor_instr hd
      cases c with
      | deselect => exact .latchedDeselect w _ ho hd hv
      | xfer8 => exact .latchedXfer w false _ _ ho hd hv
      | xfer16 => exact .latchedXfer w true _ _ ho hd hv
      | _ => exact .latched w ho

theorem effect_of_init {b : BitVec 8} {s t : State} (h : execInit b s = .next t) : Effect s (.init b) t := by
  refine effect_of_guarded rfl h fun _ ha => ?_
  cases hn : s.inited <;> simp only [hn, if_true, if_false, Bool.false_eq_true] at ha <;> cases ha
  · rw [firstInit_eq]
    exact .firstInit b hn
  · exact .laterInit b hn

theorem effect_of_configure {id : Csid} {m : BitVec 2} {x : Bool} {s t : State} (h : execConfigure id m x s = .next t) :
    Effect s (.configure id m x) t :=
  effect_of_guarded rfl h fun hv ha => by cases ha; exact .configured id m x hv

theorem effect_of_select {id : Csid} {s t : State} (h : execSelect id s = .next t) : Effect s (.select id) t := by
  refine effect_of_guarded rfl h fun hv ha => ?_
  cases hu : usesPattern s.params id <;>
    simp only [assertSelect, hu, if_true, if_false, Bool.false_eq_true] at ha <;> cases ha
  · exact .selectedByLine id hv hu
  · exact .selectedByPattern id hv hu

theorem effect_of_deselect {id : Csid} {s t : State} (h : execDeselect id s = .next t) : Effect s (.deselect id) t := by
  obtain ⟨hp, hg⟩ | hm := execDeselect_cases h
  · exact effect_of_guarded rfl hg fun hv ha => by cases ha; exact .deselectStarted id hp hv
  · exact .deselect id hm

theorem effect_of_xfer {wide txv rxv : Bool} {s t : State} (h : xferStep wide txv rxv s = .next t) :
    Effect s (xferInstr wide txv rxv) t := by
  obtain ⟨hp, hg⟩ | hm := xferStep_cases h
  · exact effect_of_guarded (by simp) hg fun hv ha => by cases ha; exact .xferStarted wide txv rxv hp hv
  · exact .xfer wide txv rxv hm

theorem effect_of_dmatx {txv : Bool} {s t : State} (h : execDmatx txv s = .next t) : Effect s (.dmatx txv) t := by
  refine effect_of_guarded rfl h fun hv ha => ?_
  cases txv <;> cases ha <;> rw [arm_eq]
  · exact .armedTx false hv
  · exact .armedTx true hv

theorem effect_of_dmarx {s t : State} (h : execDmarx s = .next t) : Effect s .dmarx t :=
  effect_of_guarded rfl h fun hv ha => by cases ha; rw [arm_eq]; exact .armedRx hv

theorem effect_of_wrArg0 {v : Word} {s t : State} (h : execWrArg0 v s = .next t) : Effect s (.wrArg0 v) t :=
  effect_of_owned h fun ho ha => by cases ha; exact .wroteArg0 v ho

theorem effect_of_wrArg1 {v : Word} {s t : State} (h : execWrArg1 v s = .next t) : Effect s (.wrArg1 v) t :=
  effect_of_owned h fun ho ha => by cases ha; exact .wroteArg1 v ho

theorem effect_of_wrArg2 {v : Word} {s t : State} (h : execWrArg2 v s = .next t) : Effect s (.wrArg2 v) t :=
  effect_of_owned h fun ho ha => by cases ha; exact .wroteArg2 v ho

/-- Every effect of an instruction is one of `Effect`. -/
theorem effect_of_exec {i : Instr} {s t : State} (h : exec i s = .next t) : Effect s i t := by
  cases i with
  | init b => exact effect_of_init h
  | configure c m x => exact effect_of_configure h
  | select c => exact effect_of_select h
  | deselect c => exact effect_of_deselect h
  | xfer8 t r => exact effect_of_xfer (wide := false) h
  | xfer16 t r => exact effect_of_xfer (wide := true) h
  | dmatx t => exact effect_of_dmatx h
  | dmarx => exact effect_of_dmarx h
  | acquire => exact effect_of_acquire h
  | release v => cases h; exact .released v
  | wrCmd w => exact effect_of_wrCmd h
  | wrArg0 v => exact effect_of_wrArg0 h
  | wrArg1 v => exact effect_of_wrArg1 h
  | wrArg2 v => exact effect_of_wrArg2 h
  | _ => cases h; exact .answered _ _ rfl

/-! ### A step -/

/-- What a step that answers a next state can do: a schedule move of `MoveOf` with the effect of the instruction it runs. -/
inductive StepTo (s : State) : State → Prop where
  | command {t : State} (i : Instr) (turns : List Turn) : fetch s = .run i (advance turns s) → s.busy = true →
      decodeCommandFor s.params s.opw = .ok i → Effect (advance turns s) i t → StepTo s t
  | access {t : State} (i : Instr) (a : BusAccess) (turns : List Turn) : fetch s = .run i (arrive turns a.caller s) →
      a.caller ∈ s.params.callers → s.busy = false → isCommand i = false → Effect (arrive turns a.caller s) i t → StepTo s t
  | illegal (turns : List Turn) : s.busy = true → StepTo s (endIllegal (advance turns s))
  | idle (turns : List Turn) : s.busy = false → StepTo s (advance turns s)
  | bad (a : BusAccess) (turns : List Turn) : a.caller ∈ s.params.callers →
      StepTo s (raise .badAccess (arrive turns a.caller s))
  | load (a : BusAccess) (turns : List Turn) (r : Reply) : a.caller ∈ s.params.callers →
      StepTo s (reply r (arrive turns a.caller s))
  | store (a : BusAccess) (turns : List Turn) (r : Reply) : a.caller ∈ s.params.callers →
      admits s.params a.addr a.bytes .write = true →
      StepTo s (reply r (putMem (Memory.writeBytes s.mem a.addr a.bytes a.data) (arrive turns a.caller s)))

/-- A step that answers a next state starts from no fault mark and does one of these (R247). -/
theorem stepTo_of_step {s t : State} (h : step s = .next t) : s.faultMark = none ∧ StepTo s t := by
  obtain ⟨m, hm, hmove, ⟨i, u, rfl, he⟩ | rfl⟩ := step_cases h
  · cases hmove with
    | command _ turns hf hb hd => exact ⟨hf, .command i turns hm hb hd (effect_of_exec he)⟩
    | access _ a turns hc hf hb ha =>
      exact ⟨hf, .access i a turns hm hc hb (isCommand_of_accessInstr ha) (effect_of_exec he)⟩
  · cases hmove with
    | illegal r turns hf hb => exact ⟨hf, .illegal turns hb⟩
    | idle turns hf hb => exact ⟨hf, .idle turns hb⟩
    | bad a turns hc hf => exact ⟨hf, .bad a turns hc⟩
    | load a turns hc hf => exact ⟨hf, .load a turns _ hc⟩
    | store a turns hc hf ha => exact ⟨hf, .store a turns _ hc ha⟩

end Sys2Proof.Machine

/-! ## The invariant -/

namespace Sys2Proof

/-! ### The parameters' ranges (R7) -/

theorem Params.ncs_le_of_wf {p : Params} (h : p.wf = true) : p.ncs ≤ 32 := by
  simp only [Params.wf, Bool.and_eq_true, decide_eq_true_eq] at h; omega

theorem Params.sysclk_pos_of_wf {p : Params} (h : p.wf = true) : 1 ≤ p.sysclk := by
  simp only [Params.wf, Bool.and_eq_true, decide_eq_true_eq] at h; omega

theorem Params.divMax_lt_of_wf {p : Params} (h : p.wf = true) : p.divMax < 2 ^ 32 := by
  simp only [Params.wf, Bool.and_eq_true, decide_eq_true_eq] at h; omega

theorem Params.tlimit_pos_of_wf {p : Params} (h : p.wf = true) : 0 < p.tlimit := by
  simp only [Params.wf, Bool.and_eq_true, decide_eq_true_eq] at h; omega

end Sys2Proof

namespace Sys2Proof.Machine

/-! ### The fields of CTRL (R27) -/

/-- Setting a bit outside a mask changes nothing under it. -/
theorem setBit_and_of_mask {mask : Word} {n : Nat} (h : mask.getLsbD n = false) (v : Word) (b : Bool) :
    setBit v n b &&& mask = v &&& mask := by
  refine word_ext fun k => ?_
  rw [BitVec.getLsbD_and, BitVec.getLsbD_and, getLsbD_setBit]
  by_cases hk : k.1 = n
  · simp [hk, h]
  · simp [hk]

/-- Clearing a bit keeps what is 0 under a mask 0. -/
theorem setBit_false_and {v mask : Word} (h : v &&& mask = 0#32) (n : Nat) : setBit v n false &&& mask = 0#32 := by
  refine word_ext fun k => ?_
  have hk := congrArg (fun w : Word => w.getLsbD k) h
  simp only [BitVec.getLsbD_and] at hk
  rw [BitVec.getLsbD_and, getLsbD_setBit]
  split
  · simp
  · exact hk

theorem ctrlPcs_setBit {n : Nat} (h : n < 8) (c : Word) (b : Bool) : ctrlPcs (setBit c n b) = ctrlPcs c := by
  refine BitVec.eq_of_getLsbD_eq fun k hk => ?_
  simp only [ctrlPcs, BitVec.getLsbD_extractLsb', getLsbD_setBit, show ¬ (8 + k = n ∧ 8 + k < 32) by omega, if_false]

@[simp] theorem ctrlPcs_setPcs (c : Word) (v : BitVec 8) : ctrlPcs (setPcs c v) = v := by
  refine BitVec.eq_of_getLsbD_eq fun k hk => ?_
  have : k = 0 ∨ k = 1 ∨ k = 2 ∨ k = 3 ∨ k = 4 ∨ k = 5 ∨ k = 6 ∨ k = 7 := by omega
  rcases this with rfl | rfl | rfl | rfl | rfl | rfl | rfl | rfl <;> simp [ctrlPcs, setPcs]

/-- Writing the pattern leaves every other bit of CTRL. -/
theorem setPcs_and_of_mask {mask : Word} (h : mask &&& 0x0000FF00#32 = 0#32) (c : Word) (v : BitVec 8) :
    setPcs c v &&& mask = c &&& mask := by
  refine word_ext fun k => ?_
  have hk := congrArg (fun w : Word => w.getLsbD k) h
  revert hk
  fin_cases k <;> simp +contextual [setPcs]

@[simp] theorem ctrlEnabled_setPcs (c : Word) (v : BitVec 8) : ctrlEnabled (setPcs c v) = ctrlEnabled c := by
  simp [ctrlEnabled, setPcs]

/-- The first INIT leaves the reserved bits and LLB 0 (R151). -/
theorem ctrlInit_reserved {c : Word} (h : c &&& 0xFFFF0088#32 = 0#32) : ctrlInit c &&& 0xFFFF0088#32 = 0#32 := by
  unfold ctrlInit
  rw [setPcs_and_of_mask (by decide)]
  refine setBit_false_and ?_ 3
  iterate 6 rw [setBit_and_of_mask (by decide)]
  exact h

theorem ctrlPcs_ctrlInit (c : Word) : ctrlPcs (ctrlInit c) = Config.pcsNone := ctrlPcs_setPcs _ _

/-- CONFIGURE leaves the reserved bits and LLB as they are (R156). -/
theorem ctrlConfigure_reserved (c : Word) (m : BitVec 2) (x : Bool) :
    ctrlConfigure c m x &&& 0xFFFF0088#32 = c &&& 0xFFFF0088#32 := by
  unfold ctrlConfigure
  iterate 6 rw [setBit_and_of_mask (by decide)]

theorem ctrlPcs_ctrlConfigure (c : Word) (m : BitVec 2) (x : Bool) : ctrlPcs (ctrlConfigure c m x) = ctrlPcs c := by
  unfold ctrlConfigure
  iterate 6 rw [ctrlPcs_setBit (by decide)]

theorem ctrlEnabled_ctrlConfigure (c : Word) (m : BitVec 2) (x : Bool) : ctrlEnabled (ctrlConfigure c m x) = true := by
  simp [ctrlEnabled, ctrlConfigure, getLsbD_setBit]

/-! ### Verdicts (R136, R252) -/

theorem verdictConfigure_go {id : Csid} {s : State} (h : verdictConfigure id s = .go) :
    id.toNat < s.params.ncs ∧ s.inited = true ∧
    (s.session = .unconfigured ∨ s.session = .configured ∨ s.session = .deselected) ∧
    divisorLegal s.params s.opa0 = true := by
  obtain ⟨hr, ho, hf⟩ := verdictOf_go.1 h
  simp only [Bool.and_eq_true, decide_eq_true_eq] at hr ho
  exact ⟨hr, ho.1, ho.2, by simpa using hf⟩

theorem verdictSelect_go {id : Csid} {s : State} (h : verdictSelect id s = .go) :
    id.toNat < s.params.ncs ∧ (s.session = .configured ∨ s.session = .deselected) ∧ s.cfgId = some id := by
  obtain ⟨hr, ho, -⟩ := verdictOf_go.1 h
  simp only [decide_eq_true_eq] at hr ho
  exact ⟨hr, ho⟩

theorem verdictDeselect_go {id : Csid} {s : State} (h : verdictDeselect id s = .go) :
    id.toNat < s.params.ncs ∧ (s.session = .selected ∨ s.session = .error) ∧ s.selId = some id := by
  obtain ⟨hr, ho, -⟩ := verdictOf_go.1 h
  simp only [decide_eq_true_eq] at hr ho
  exact ⟨hr, ho⟩

theorem verdictXfer_go {wide txv rxv : Bool} {s : State} (h : verdictXfer wide txv rxv s = .go) :
    s.session = .selected ∧ xferFault wide txv rxv s = none := by
  obtain ⟨-, ho, hf⟩ := verdictOf_go.1 h
  exact ⟨by simpa using ho, hf⟩

/-- A legal divisor is in `1 .. DIV_MAX` (R155). -/
theorem divisor_range {p : Params} {baud : Word} (hp : p.wf = true) (h : divisorLegal p baud = true) :
    1 ≤ (BitVec.ofNat 32 (divisor p baud)).toNat ∧ (BitVec.ofNat 32 (divisor p baud)).toNat ≤ p.divMax := by
  simp only [divisorLegal, decide_eq_true_eq] at h
  obtain ⟨hb, hd⟩ := h
  have h1 : 1 ≤ divisor p baud := by
    have := Params.sysclk_pos_of_wf hp
    exact (Nat.one_le_div_iff hb).2 (by omega)
  have hlt := Params.divMax_lt_of_wf hp
  rw [BitVec.toNat_ofNat, Nat.mod_eq_of_lt (by omega)]
  exact ⟨h1, hd⟩

/-! ### The selected device -/

/-- No device is selected in the sessions that allow CONFIGURE (R36, R38). -/
theorem Invariant.selId_eq_none {s : State} (h : Invariant s)
    (hs : s.session = .unconfigured ∨ s.session = .configured ∨ s.session = .deselected) : s.selId = none := by
  by_contra hn
  rcases h.selected.1 hn with e | e <;> simp [e] at hs

/-- With no device selected the pattern is PCS_NONE (R28). -/
theorem Invariant.pcs_of_selId_eq_none {s : State} (h : Invariant s) (hs : s.selId = none) :
    ctrlPcs s.ctrl = Config.pcsNone := by
  rw [h.pcs, hs]; rfl

/-- With no device selected every line is high (R30). -/
theorem Invariant.lines_of_selId_eq_none {s : State} (h : Invariant s) (hs : s.selId = none) (n : Nat) :
    s.cslines.getLsbD n = decide (n < s.params.ncs) := by
  rw [h.lines, hs, lineAsserted, Bool.not_false, Bool.and_true]

/-! ### Operations that keep the invariant -/

theorem Invariant.raise {s : State} (h : Invariant s) (k : Fault) : Invariant (raise k s) := { h with }

theorem Invariant.reply {s : State} (h : Invariant s) (r : Reply) : Invariant (reply r s) := { h with }

theorem Invariant.advance {s : State} (h : Invariant s) (turns : List Turn) : Invariant (advance turns s) := { h with }

theorem Invariant.arrive {s : State} (h : Invariant s) (turns : List Turn) {c : Caller} (hc : c ∈ s.params.callers) :
    Invariant (arrive turns c s) := { h with callerCaller := hc }

theorem Invariant.putMem {s : State} (h : Invariant s) {m : List Host.Cell} (hm : Memory.wf m = true)
    (hb : ∀ c ∈ m, c.1 < Config.addressSpace) : Invariant (putMem m s) := { h with mem := hm, memBound := hb }

/-- A command's end keeps the invariant, whatever its result of R241 (R138). -/
theorem Invariant.finish {s : State} (h : Invariant s) {r : Word}
    (hr : r ∈ [0x000#32, 0x100#32, 0x11#32, 0x21#32, 0x31#32, 0x2#32]) : Invariant (finish r s) :=
  { h with result := hr, issuerCaller := nofun, idle := fun _ => rfl, phase := trivial }

end Sys2Proof.Machine

namespace Sys2Proof.Machine

open Sys2Proof.Claims

/-! ### PHASE and the running command -/

theorem phaseOk_pollTx {s : State} (h : s.phase = .pollTx) :
    PhaseOk s ↔ XferRunning s ∧ s.i.toNat ≤ s.opa2.toNat ∧ s.p < s.params.tlimit := by simp [PhaseOk, h]

theorem phaseOk_emit {s : State} (h : s.phase = .emit) : PhaseOk s ↔ XferRunning s ∧ s.i.toNat < s.opa2.toNat := by
  simp [PhaseOk, h]

theorem phaseOk_pollRx {s : State} (h : s.phase = .pollRx) :
    PhaseOk s ↔ XferRunning s ∧ s.i.toNat < s.opa2.toNat ∧ s.p < s.params.tlimit := by simp [PhaseOk, h]

theorem phaseOk_recv {s : State} (h : s.phase = .recv) : PhaseOk s ↔ XferRunning s ∧ s.i.toNat < s.opa2.toNat := by
  simp [PhaseOk, h]

theorem phaseOk_pollDrain {s : State} (h : s.phase = .pollDrain) :
    PhaseOk s ↔ DeselectRunning s ∧ s.p < s.params.tlimit := by simp [PhaseOk, h]

theorem phaseOk_finishDeselect {s : State} (h : s.phase = .finishDeselect) :
    PhaseOk s ↔ DeselectRunning s ∧ s.trace.getLast? = some (.poll .txEmpty s.drained) := by simp [PhaseOk, h]

/-- A poll changes the trace, the count of polls and the coming draws (R70, R190). -/
theorem pollEffect_eq (c : Cond) (s : State) : ∃ l d, pollEffect c s =
    { s with trace := s.trace ++ [.poll c (nextSample s)], p := s.p + 1, samples := l, draws := d } := by
  unfold pollEffect dropSample
  split <;> exact ⟨_, _, rfl⟩

/-- Reading a unit changes the trace and the coming draws (R69). -/
theorem phyRead_eq (wide : Bool) (s : State) : ∃ l d, phyRead wide s =
    { s with trace := s.trace ++ [.rx (cutUnit wide (nextUnit s))], units := l, draws := d } := by
  unfold phyRead dropUnit
  split <;> exact ⟨_, _, rfl⟩

/-- A started command keeps the block busy (R40). -/
theorem Invariant.busy_of_phase {s : State} (h : Invariant s) (hp : s.phase ≠ .idle) : s.busy = true := by
  cases hb : s.busy with
  | true => rfl
  | false => exact absurd (h.idle hb) hp

/-! ### Micro-steps keep the invariant -/

/-- A poll that leaves PHASE where a running transfer or DESELECT may be keeps the invariant (R190). -/
theorem Invariant.polled {s : State} (h : Invariant s) (hb : s.phase ≠ .idle) (hp : s.p < s.params.tlimit)
    {tr : List Event} {l : List Bool} {n : Nat} {d : Bool} {ph : Phase}
    (hph : PhaseOk { s with trace := tr, p := s.p + 1, samples := l, draws := n, drained := d, phase := ph }) :
    Invariant { s with trace := tr, p := s.p + 1, samples := l, draws := n, drained := d, phase := ph } :=
  { h with
    polls := hp
    idle := fun hn => absurd (h.idle hn) hb
    phase := hph }

/-- A timeout of a running transfer keeps the invariant: the device stays selected, in session ERROR (R195). -/
theorem Invariant.xferTimeout {s : State} (h : Invariant s) (hr : XferRunning s) (hp : s.p + 1 = s.params.tlimit)
    (c : Cond) {tphase : BitVec 2} (ht : tphase = 1#2 ∨ tphase = 2#2) :
    Invariant (xferTimeout tphase (pollEffect c s)) := by
  obtain ⟨-, -, -, -, -, hs, -⟩ := hr
  obtain ⟨l, n, e⟩ := pollEffect_eq c s
  rw [e]
  exact { h with
    result := by rcases ht with rfl | rfl <;> simp [Machine.xferTimeout, resultTimeout]
    unconfigured := by simpa [Machine.xferTimeout, hs] using h.unconfigured
    selected := by simpa [Machine.xferTimeout, hs] using h.selected
    polls := hp.le
    issuerCaller := nofun
    idle := fun _ => rfl
    phase := trivial }

/-- EMIT keeps the invariant (R195). -/
theorem Invariant.emitUnit {s : State} (h : Invariant s) (hp : s.phase = .emit) (v : TUnit) : Invariant (emitUnit v s) := by
  obtain ⟨hr, hi⟩ := (phaseOk_emit hp).1 h.phase
  exact { h with
    polls := Nat.zero_le _
    idle := fun hn => absurd (h.idle hn) (by simp [hp])
    phase := ⟨hr, hi, Params.tlimit_pos_of_wf h.params⟩ }

/-- Counting a received unit keeps the invariant: no unit is counted past the length (R195). -/
theorem Invariant.nextUnitIndex {s : State} (h : Invariant s) (hp : s.phase = .recv) : Invariant (nextUnitIndex s) := by
  obtain ⟨⟨wide, txv, rxv, hd, hf, hs, -⟩, hi⟩ := (phaseOk_recv hp).1 h.phase
  have hn : (s.i + 1#32).toNat ≤ s.opa2.toNat := by bv_omega
  exact { h with
    polls := Nat.zero_le _
    idle := fun hn => absurd (h.idle hn) (by simp [hp])
    phase := ⟨⟨wide, txv, rxv, hd, hf, hs, rfl⟩, hn, Params.tlimit_pos_of_wf h.params⟩ }

/-- Reading a unit keeps the invariant in RECV (R69). -/
theorem Invariant.phyRead {s : State} (h : Invariant s) (hp : s.phase = .recv) (wide : Bool) :
    Invariant (phyRead wide s) := by
  have hph := (phaseOk_recv hp).1 h.phase
  obtain ⟨l, n, e⟩ := phyRead_eq wide s
  rw [e]
  exact { h with phase := (phaseOk_recv (by exact hp)).2 hph }

/-- Every micro-step of a started transfer keeps the invariant (R195). -/
theorem XferMove.keeps_invariant {wide txv rxv : Bool} {s t : State} (hm : XferMove wide txv rxv s t) (h : Invariant s) :
    Invariant t := by
  cases hm with
  | finished => exact h.finish (by decide)
  | txReady hp hi hb =>
    obtain ⟨hr, -, hlt⟩ := (phaseOk_pollTx hp).1 h.phase
    obtain ⟨l, n, e⟩ := pollEffect_eq .txRdy s
    rw [e]
    exact h.polled (by simp [hp]) hlt ⟨hr, hi⟩
  | txTimeout hp hi hb hl => exact h.xferTimeout ((phaseOk_pollTx hp).1 h.phase).1 hl _ (.inl rfl)
  | txAgain hp hi hb hl =>
    obtain ⟨hr, hn, hlt⟩ := (phaseOk_pollTx hp).1 h.phase
    obtain ⟨l, n, e⟩ := pollEffect_eq .txRdy s
    rw [e]
    exact h.polled (by simp [hp]) hlt ((phaseOk_pollTx (by exact hp)).2 ⟨hr, hn, Nat.lt_of_le_of_ne hlt hl⟩)
  | sent hp => exact h.emitUnit hp _
  | readRefused => exact h.raise _
  | filled hp => exact h.emitUnit hp _
  | rxReady hp hb =>
    obtain ⟨hr, hn, hlt⟩ := (phaseOk_pollRx hp).1 h.phase
    obtain ⟨l, n, e⟩ := pollEffect_eq .rxRdy s
    rw [e]
    exact h.polled (by simp [hp]) hlt ⟨hr, hn⟩
  | rxTimeout hp hb hl => exact h.xferTimeout ((phaseOk_pollRx hp).1 h.phase).1 hl _ (.inr rfl)
  | rxAgain hp hb hl =>
    obtain ⟨hr, hn, hlt⟩ := (phaseOk_pollRx hp).1 h.phase
    obtain ⟨l, n, e⟩ := pollEffect_eq .rxRdy s
    rw [e]
    exact h.polled (by simp [hp]) hlt ((phaseOk_pollRx (by exact hp)).2 ⟨hr, hn, Nat.lt_of_le_of_ne hlt hl⟩)
  | stored hp hr ha =>
    have hb := admits_bound ha
    exact ((h.phyRead hp wide).putMem (writeUnit_wf h.mem _ _)
      (writeUnit_bound h.memBound _ (by simpa using hb))).nextUnitIndex (by simpa using hp)
  | storeRefused hp => exact (h.phyRead hp wide).raise _
  | discarded hp => exact (h.phyRead hp wide).nextUnitIndex (by simpa using hp)

/-- FINISH_DESELECT's pattern actions leave PCS_NONE in CTRL and its other fields as they were (R172). -/
theorem Invariant.releasePattern_eq {s : State} (h : Invariant s) {id : Csid} (hs : s.selId = some id) :
    ∃ c tr, releasePattern s = { s with ctrl := c, trace := tr } ∧ c &&& 0xFFFF0088#32 = 0#32 ∧
      ctrlPcs c = Config.pcsNone ∧ ctrlEnabled c = ctrlEnabled s.ctrl := by
  unfold releasePattern
  split
  case isTrue =>
    exact ⟨_, _, rfl, by rw [record_ctrl, setPcs_and_of_mask (by decide), h.ctrlReserved], ctrlPcs_setPcs _ _,
      ctrlEnabled_setPcs _ _⟩
  case isFalse hd => exact ⟨_, _, rfl, h.ctrlReserved, by simp [h.pcs, hs, pcsOf, usesPattern, hd], rfl⟩

/-- FINISH_DESELECT keeps the invariant: pattern and line of the selected device go back to none (R172, R174). -/
theorem Invariant.finishDeselect {s : State} (h : Invariant s) {id : Csid} (hs : s.selId = some id) :
    Invariant (finishDeselect id s) := by
  have hcfg : s.cfgId ≠ none := by rw [← h.selCfg (by simp [hs])]; simp [hs]
  have hlt : id.toNat < s.params.ncs := h.cfgRange id (by rw [← h.selCfg (by simp [hs]), hs])
  have hncs := Params.ncs_le_of_wf h.params
  obtain ⟨c, tr, e, hc, hpcs, hen⟩ := h.releasePattern_eq hs
  unfold Machine.finishDeselect
  rw [e]
  exact { h with
    result := by cases s.drained <;> simp [resultOk, resultTimeout]
    ctrlReserved := hc
    pcs := hpcs
    lines := fun n => by
      simp only [finish_cslines, driveCS_cslines, finish_params, driveCS_params, finish_selId, getLsbD_setBit, h.lines, hs,
        lineAsserted]
      by_cases hn : n = id.toNat
      · simp [hn, hlt, show id.toNat < 32 by omega]
      · simp [hn, Ne.symm hn]
    unconfigured := by simpa using hcfg
    configured := fun hn => by
      obtain ⟨hi, he, hd⟩ := h.configured hn
      exact ⟨hi, hen.trans he, hd⟩
    selected := by simp
    selCfg := fun hn => absurd rfl hn
    issuerCaller := nofun
    idle := fun _ => rfl
    phase := trivial }

/-- Every micro-step of a started DESELECT keeps the invariant (R172). -/
theorem DeselectMove.keeps_invariant {id : Csid} {s t : State} (hm : DeselectMove id s t) (h : Invariant s)
    (hd : decodeCommandFor s.params s.opw = .ok (.deselect id)) : Invariant t := by
  cases hm with
  | ready hp hb =>
    obtain ⟨hr, hlt⟩ := (phaseOk_pollDrain hp).1 h.phase
    obtain ⟨l, n, e⟩ := pollEffect_eq .txEmpty s
    rw [e]
    exact h.polled (by simp [hp]) hlt ⟨hr, by simp [hb]⟩
  | timeout hp hb _ =>
    obtain ⟨hr, hlt⟩ := (phaseOk_pollDrain hp).1 h.phase
    obtain ⟨l, n, e⟩ := pollEffect_eq .txEmpty s
    rw [e]
    exact h.polled (by simp [hp]) hlt ⟨hr, by simp [hb]⟩
  | again hp hb hl =>
    obtain ⟨hr, hlt⟩ := (phaseOk_pollDrain hp).1 h.phase
    obtain ⟨l, n, e⟩ := pollEffect_eq .txEmpty s
    rw [e]
    exact h.polled (by simp [hp]) hlt ((phaseOk_pollDrain (by exact hp)).2 ⟨hr, Nat.lt_of_le_of_ne hlt hl⟩)
  | finished hp =>
    obtain ⟨⟨id', hd', -, hs⟩, -⟩ := (phaseOk_finishDeselect hp).1 h.phase
    rw [hd] at hd'
    cases hd'
    exact h.finishDeselect hs

/-! ### Instructions keep the invariant -/

/-- An accepted CMD write keeps the invariant: it finds the block idle (R132, R135). -/
theorem Invariant.acceptCommand {s : State} (h : Invariant s) (hb : s.busy = false) (w : Word) :
    Invariant (acceptCommand w s) :=
  { h with
    issuerCaller := fun _ => h.callerCaller
    idle := nofun
    phase := by simp [PhaseOk, h.idle hb] }

/-- The start of a transfer keeps the invariant (R193, R195). -/
theorem Invariant.beginXfer {s : State} (h : Invariant s) (hb : s.busy = true) {wide txv rxv : Bool}
    (hd : decodeCommandFor s.params s.opw = .ok (xferInstr wide txv rxv)) (hv : verdictXfer wide txv rxv s = .go) :
    Invariant (beginXfer s) := by
  obtain ⟨hs, hf⟩ := verdictXfer_go hv
  exact { h with
    polls := Nat.zero_le _
    idle := fun hn => nomatch hb.symm.trans hn
    phase := ⟨⟨wide, txv, rxv, hd, hf, hs, rfl⟩, Nat.zero_le _, Params.tlimit_pos_of_wf h.params⟩ }

/-- The start of a DESELECT keeps the invariant (R172). -/
theorem Invariant.beginDeselect {s : State} (h : Invariant s) (hb : s.busy = true) {id : Csid}
    (hd : decodeCommandFor s.params s.opw = .ok (.deselect id)) (hv : verdictDeselect id s = .go) :
    Invariant (beginDeselect s) := by
  obtain ⟨-, hs, hid⟩ := verdictDeselect_go hv
  exact { h with
    polls := Nat.zero_le _
    idle := fun hn => nomatch hb.symm.trans hn
    phase := ⟨⟨id, hd, hs, hid⟩, Params.tlimit_pos_of_wf h.params⟩ }

/-- The first INIT keeps the invariant: no device is configured yet, so none is selected (R151). -/
theorem Invariant.finish_firstInit {s : State} (h : Invariant s) (hi : s.inited = false) (w16 : Bool) :
    Invariant (Machine.finish (resultInit w16) { s with
      inited := true, ctrl := ctrlInit s.ctrl,
      trace := s.trace ++ [.platformInit, .resetAll, .apply (ctrlInit s.ctrl) s.div] }) := by
  have hcfg : s.cfgId = none := by
    by_contra hn
    simpa [hi] using (h.configured hn).1
  have hsel : s.selId = none := by
    by_contra hn
    exact hn (by rw [h.selCfg hn, hcfg])
  exact { h with
    result := by cases w16 <;> simp [resultInit]
    ctrlReserved := ctrlInit_reserved h.ctrlReserved
    pcs := (ctrlPcs_ctrlInit _).trans ((h.pcs_of_selId_eq_none hsel).symm.trans h.pcs)
    configured := fun hn => absurd hcfg hn
    issuerCaller := nofun
    idle := fun _ => rfl
    phase := trivial }

/-- CONFIGURE keeps the invariant: no device is selected (R156, R252). -/
theorem Invariant.finish_configure {s : State} (h : Invariant s) {id : Csid} (hv : verdictConfigure id s = .go)
    (m : BitVec 2) (x : Bool) :
    Invariant (Machine.finish resultOk { phyApply { record .resetTxrx s with
      ctrl := ctrlConfigure s.ctrl m x, div := BitVec.ofNat 32 (divisor s.params s.opa0) } with
        session := .configured, cfgId := some id }) := by
  obtain ⟨hid, hi, hs, hdiv⟩ := verdictConfigure_go hv
  obtain ⟨hd1, hd2⟩ := divisor_range h.params hdiv
  have hsel : s.selId = none := h.selId_eq_none hs
  exact { h with
    result := by simp [resultOk]
    ctrlReserved := (ctrlConfigure_reserved _ _ _).trans h.ctrlReserved
    pcs := (ctrlPcs_ctrlConfigure _ _ _).trans h.pcs
    div := hd2
    unconfigured := by simp
    configured := fun _ => ⟨hi, ctrlEnabled_ctrlConfigure _ _ _, hd1⟩
    cfgRange := fun _ e => Option.some.inj e ▸ hid
    selected := by simp [hsel]
    selCfg := fun hn => absurd hsel hn
    issuerCaller := nofun
    idle := fun _ => rfl
    phase := trivial }

/-- SELECT by the pattern keeps the invariant (R28, R170). -/
theorem Invariant.finish_selectByPattern {s : State} (h : Invariant s) {id : Csid} (hv : verdictSelect id s = .go)
    (hu : usesPattern s.params id = true) :
    Invariant (Machine.finish resultOk
      { phyApply { s with ctrl := setPcs s.ctrl (pcsPattern id) } with session := .selected, selId := some id }) := by
  obtain ⟨hid, hs, hcfg⟩ := verdictSelect_go hv
  have hsel : s.selId = none := h.selId_eq_none (.inr hs)
  exact { h with
    result := by simp [resultOk]
    ctrlReserved := (setPcs_and_of_mask (by decide) _ _).trans h.ctrlReserved
    pcs := (ctrlPcs_setPcs _ _).trans (by simp [pcsOf, hu])
    lines := fun n => by
      show s.cslines.getLsbD n = (decide (n < s.params.ncs) && !lineAsserted s.params (some id) n)
      rw [h.lines_of_selId_eq_none hsel]
      simp [lineAsserted, hu]
    unconfigured := by simp [hcfg]
    configured := fun hn => by
      obtain ⟨hi, he, hd⟩ := h.configured hn
      exact ⟨hi, (ctrlEnabled_setPcs _ _).trans he, hd⟩
    selected := by simp
    selCfg := fun _ => hcfg.symm
    issuerCaller := nofun
    idle := fun _ => rfl
    phase := trivial }

/-- SELECT by the dedicated line keeps the invariant (R30, R170, R173). -/
theorem Invariant.finish_selectByLine {s : State} (h : Invariant s) {id : Csid} (hv : verdictSelect id s = .go)
    (hu : usesPattern s.params id = false) :
    Invariant (Machine.finish resultOk { driveCS id.toNat false s with session := .selected, selId := some id }) := by
  obtain ⟨hid, hs, hcfg⟩ := verdictSelect_go hv
  have hsel : s.selId = none := h.selId_eq_none (.inr hs)
  have hncs := Params.ncs_le_of_wf h.params
  exact { h with
    result := by simp [resultOk]
    pcs := (h.pcs_of_selId_eq_none hsel).trans (by simp [pcsOf, hu])
    lines := fun n => by
      show (setBit s.cslines id.toNat false).getLsbD n =
        (decide (n < s.params.ncs) && !lineAsserted s.params (some id) n)
      rw [getLsbD_setBit, h.lines_of_selId_eq_none hsel]
      by_cases hn : n = id.toNat
      · simp [hn, lineAsserted, hu, show id.toNat < 32 by omega]
      · simp [hn, Ne.symm hn, lineAsserted]
    unconfigured := by simp [hcfg]
    selected := by simp
    selCfg := fun _ => hcfg.symm
    issuerCaller := nofun
    idle := fun _ => rfl
    phase := trivial }

/-- Arming a DMA transfer keeps the invariant (R220, R224). -/
theorem Invariant.dmaArmed {s : State} (h : Invariant s) (tr : List Event) :
    Invariant (dmaArmed { s with trace := tr }) :=
  { h with
    result := by simp [Machine.dmaArmed, resultOk]
    issuerCaller := nofun
    idle := fun _ => rfl
    phase := trivial }

/-- Every effect of an instruction keeps the invariant, if a command runs as the word in OPW spells it while the block is
busy, and a host access while it is idle (R40, R132). -/
theorem Effect.keeps_invariant {i : Instr} {s t : State} (he : Effect s i t) (h : Invariant s)
    (hcmd : isCommand i = true → s.busy = true ∧ decodeCommandFor s.params s.opw = .ok i)
    (hacc : isCommand i = false → s.busy = false) : Invariant t := by
  cases he with
  | raised _ k => exact h.raise k
  | illegal => exact h.finish (by decide)
  | answered _ r => exact h.reply r
  | acquired =>
    exact { h with
      owner := by simp
      ownerCaller := fun _ e => Option.some.inj e ▸ h.callerCaller }
  | released => exact { h with owner := by simp, ownerCaller := nofun }
  | wroteArg0 | wroteArg1 | wroteArg2 => exact { h with }
  | latched w => exact h.acceptCommand (hacc rfl) w
  | latchedXfer w _ _ _ _ hd hv => exact (h.acceptCommand (hacc rfl) w).beginXfer rfl hd hv
  | latchedDeselect w _ _ hd hv => exact (h.acceptCommand (hacc rfl) w).beginDeselect rfl hd hv
  | firstInit b hi => exact h.finish_firstInit hi _
  | laterInit b => exact h.finish (by cases decide (mapWidth b = 16) <;> simp [resultInit])
  | configured id m x hv => exact h.finish_configure hv m x
  | selectedByPattern id hv hu => exact h.finish_selectByPattern hv hu
  | selectedByLine id hv hu => exact h.finish_selectByLine hv hu
  | deselectStarted id _ hv => exact h.beginDeselect (hcmd rfl).1 (hcmd rfl).2 hv
  | deselect id hm => exact hm.keeps_invariant h (hcmd rfl).2
  | xferStarted wide txv rxv _ hv =>
    obtain ⟨hb, hd⟩ := hcmd (isCommand_xferInstr _ _ _)
    exact h.beginXfer hb hd hv
  | xfer wide txv rxv hm => exact hm.keeps_invariant h
  | armedTx | armedRx => exact h.dmaArmed _

theorem StepTo.keeps_invariant {s t : State} (hs : StepTo s t) (h : Invariant s) : Invariant t := by
  cases hs with
  | command i turns _ hb hd he =>
    refine he.keeps_invariant (h.advance turns) (fun _ => ⟨hb, hd⟩) fun hn => ?_
    rw [isCommand_of_decodeCommandFor hd] at hn
    cases hn
  | access i a turns _ hc hb hi he =>
    exact he.keeps_invariant (h.arrive turns hc) (fun hn => by rw [hi] at hn; cases hn) fun _ => hb
  | illegal turns => exact (h.advance turns).finish (by decide)
  | idle turns => exact h.advance turns
  | bad a turns hc => exact (h.arrive turns hc).raise _
  | load a turns r hc => exact (h.arrive turns hc).reply r
  | store a turns r hc ha =>
    exact ((h.arrive turns hc).putMem (Memory.wf_writeBytes h.mem _ _ _)
      (Memory.bound_writeBytes h.memBound (admits_bound ha) _)).reply r

end Sys2Proof.Machine

/-- Settles O49: every move of the schedule, with every effect of the instruction it runs, keeps the invariant. -/
theorem stepKeepsInvariant : Obligations.StepKeepsInvariant := by
  unfold Obligations.StepKeepsInvariant
  intro s t hinv hs
  obtain ⟨-, hto⟩ := Sys2Proof.Machine.stepTo_of_step hs
  exact hto.keeps_invariant hinv

/-! ## What instructions and steps leave unchanged -/

namespace Sys2Proof.Machine

open Sys2Proof.Claims

/-! ### Micro-steps -/

/-- What no micro-step of a started transfer or DESELECT changes; the trace and the record of accesses only grow. -/
structure Keeps (s t : State) : Prop where
  params : t.params = s.params
  cmd : t.cmd = s.cmd
  arg0 : t.arg0 = s.arg0
  arg1 : t.arg1 = s.arg1
  arg2 : t.arg2 = s.arg2
  div : t.div = s.div
  lock : t.lock = s.lock
  inited : t.inited = s.inited
  owner : t.owner = s.owner
  refusedMark : t.refusedMark = s.refusedMark
  opa2 : t.opa2 = s.opa2
  turns : t.turns = s.turns
  trace : s.trace <+: t.trace
  replies : s.replies <+: t.replies

theorem XferMove.keeps {wide txv rxv : Bool} {s t : State} (h : XferMove wide txv rxv s t) : Keeps s t := by
  cases h <;> constructor <;> simp [xferTimeout]

/-- A started transfer leaves the controller settings and the lines (R195). -/
theorem XferMove.keeps_lines {wide txv rxv : Bool} {s t : State} (h : XferMove wide txv rxv s t) :
    t.ctrl = s.ctrl ∧ t.cslines = s.cslines := by
  cases h <;> simp [xferTimeout]

theorem finishDeselect_keeps (id : Csid) (s : State) : Keeps s (finishDeselect id s) := by
  unfold finishDeselect releasePattern
  split <;> constructor <;> simp

theorem DeselectMove.keeps {id : Csid} {s t : State} (h : DeselectMove id s t) : Keeps s t := by
  cases h with
  | finished => exact finishDeselect_keeps id s
  | _ => constructor <;> simp

/-- A started DESELECT leaves host memory and DONE (R172). -/
theorem DeselectMove.keeps_mem {id : Csid} {s t : State} (h : DeselectMove id s t) : t.mem = s.mem ∧ t.done = s.done := by
  cases h with
  | finished => unfold finishDeselect releasePattern; split <;> simp
  | _ => simp

/-! ### Instructions, register by register (R46) -/

section
variable {i : Instr} {s t : State}

theorem Effect.params (h : Effect s i t) : t.params = s.params := by
  cases h with
  | deselect _ h => exact h.keeps.params
  | xfer _ _ _ h => exact h.keeps.params
  | _ => rfl

theorem Effect.cmd (h : Effect s i t) : t.cmd = s.cmd ∨ ∃ w, i = .wrCmd w := by
  cases h with
  | latched w | latchedXfer w | latchedDeselect w => exact .inr ⟨w, rfl⟩
  | deselect _ h => exact .inl h.keeps.cmd
  | xfer _ _ _ h => exact .inl h.keeps.cmd
  | _ => exact .inl rfl

theorem Effect.arg0 (h : Effect s i t) : t.arg0 = s.arg0 ∨ ∃ v, i = .wrArg0 v := by
  cases h with
  | wroteArg0 v => exact .inr ⟨v, rfl⟩
  | deselect _ h => exact .inl h.keeps.arg0
  | xfer _ _ _ h => exact .inl h.keeps.arg0
  | _ => exact .inl rfl

theorem Effect.arg1 (h : Effect s i t) : t.arg1 = s.arg1 ∨ ∃ v, i = .wrArg1 v := by
  cases h with
  | wroteArg1 v => exact .inr ⟨v, rfl⟩
  | deselect _ h => exact .inl h.keeps.arg1
  | xfer _ _ _ h => exact .inl h.keeps.arg1
  | _ => exact .inl rfl

theorem Effect.arg2 (h : Effect s i t) : t.arg2 = s.arg2 ∨ ∃ v, i = .wrArg2 v := by
  cases h with
  | wroteArg2 v => exact .inr ⟨v, rfl⟩
  | deselect _ h => exact .inl h.keeps.arg2
  | xfer _ _ _ h => exact .inl h.keeps.arg2
  | _ => exact .inl rfl

/-- LOCK and OWNER move by a RELEASE, or by an ACQUIRE that finds the lock free (R120, R123). -/
theorem Effect.lock (h : Effect s i t) :
    (t.lock = s.lock ∧ t.owner = s.owner) ∨ (i = .acquire ∧ s.lock = false) ∨ ∃ v, i = .release v := by
  cases h with
  | acquired hl => exact .inr (.inl ⟨rfl, hl⟩)
  | released v => exact .inr (.inr ⟨v, rfl⟩)
  | deselect _ h => exact .inl ⟨h.keeps.lock, h.keeps.owner⟩
  | xfer _ _ _ h => exact .inl ⟨h.keeps.lock, h.keeps.owner⟩
  | _ => exact .inl ⟨rfl, rfl⟩

/-- INITED is set by an INIT and never cleared (R32, R151). -/
theorem Effect.inited (h : Effect s i t) : t.inited = s.inited ∨ (t.inited = true ∧ ∃ b, i = .init b) := by
  cases h with
  | firstInit b => exact .inr ⟨rfl, b, rfl⟩
  | deselect _ h => exact .inl h.keeps.inited
  | xfer _ _ _ h => exact .inl h.keeps.inited
  | _ => exact .inl rfl

theorem Effect.div (h : Effect s i t) : t.div = s.div ∨ ∃ c m x, i = .configure c m x := by
  cases h with
  | configured c m x => exact .inr ⟨c, m, x, rfl⟩
  | deselect _ h => exact .inl h.keeps.div
  | xfer _ _ _ h => exact .inl h.keeps.div
  | _ => exact .inl rfl

theorem Effect.ctrl (h : Effect s i t) : t.ctrl = s.ctrl ∨
    (∃ b, i = .init b) ∨ (∃ c m x, i = .configure c m x) ∨ (∃ c, i = .select c) ∨ ∃ c, i = .deselect c := by
  cases h with
  | firstInit b => exact .inr (.inl ⟨b, rfl⟩)
  | configured c m x => exact .inr (.inr (.inl ⟨c, m, x, rfl⟩))
  | selectedByPattern c => exact .inr (.inr (.inr (.inl ⟨c, rfl⟩)))
  | deselect c => exact .inr (.inr (.inr (.inr ⟨c, rfl⟩)))
  | xfer _ _ _ h => exact .inl h.keeps_lines.1
  | _ => exact .inl rfl

theorem Effect.cslines (h : Effect s i t) : t.cslines = s.cslines ∨ (∃ c, i = .select c) ∨ ∃ c, i = .deselect c := by
  cases h with
  | selectedByLine c => exact .inr (.inl ⟨c, rfl⟩)
  | deselect c => exact .inr (.inr ⟨c, rfl⟩)
  | xfer _ _ _ h => exact .inl h.keeps_lines.2
  | _ => exact .inl rfl

/-- DONE is written by a transfer and by the WR_CMD that starts one (R24, R195; log 12). -/
theorem Effect.done (h : Effect s i t) : t.done = s.done ∨ ∃ wide txv rxv, i = xferInstr wide txv rxv ∨
    ∃ w, i = .wrCmd w ∧ decodeCommandFor s.params w = .ok (xferInstr wide txv rxv) := by
  cases h with
  | latchedXfer w wide txv rxv _ hd => exact .inr ⟨wide, txv, rxv, .inr ⟨w, rfl, hd⟩⟩
  | deselect _ h => exact .inl h.keeps_mem.2
  | xferStarted wide txv rxv | xfer wide txv rxv => exact .inr ⟨wide, txv, rxv, .inl rfl⟩
  | _ => exact .inl rfl

theorem Effect.result (h : Effect s i t) : t.result = s.result ∨ isCommand i = true := by
  cases h with
  | illegal _ hi => exact .inr hi
  | xferStarted | xfer => exact .inr (isCommand_xferInstr _ _ _)
  | raised | answered | acquired | released | wroteArg0 | wroteArg1 | wroteArg2 => exact .inl rfl
  | latched | latchedXfer | latchedDeselect => exact .inl rfl
  | _ => exact .inr rfl

/-- A started transfer writes host memory only as it stores a received unit (R195). -/
theorem XferMove.mem {wide txv rxv : Bool} (h : XferMove wide txv rxv s t) :
    t.mem = s.mem ∨ (s.phase = .recv ∧ rxv = true) := by
  cases h with
  | stored hp hr => exact .inr ⟨hp, hr⟩
  | _ => exact .inl (by simp [xferTimeout])

theorem Effect.mem (h : Effect s i t) :
    t.mem = s.mem ∨ (s.phase = .recv ∧ ∃ wide txv, i = xferInstr wide txv true) := by
  cases h with
  | deselect _ h => exact .inl h.keeps_mem.1
  | xfer wide txv rxv h => exact h.mem.imp_right fun ⟨hp, hr⟩ => ⟨hp, wide, txv, by rw [hr]⟩
  | _ => exact .inl rfl

theorem Effect.refusedMark (h : Effect s i t) : t.refusedMark = s.refusedMark ∨ t.refusedMark = some .extDma := by
  cases h with
  | deselect _ h => exact .inl h.keeps.refusedMark
  | xfer _ _ _ h => exact .inl h.keeps.refusedMark
  | armedTx | armedRx => exact .inr rfl
  | _ => exact .inl rfl

theorem Effect.trace (h : Effect s i t) : s.trace <+: t.trace := by
  cases h with
  | deselect _ h => exact h.keeps.trace
  | xfer _ _ _ h => exact h.keeps.trace
  | _ => simp [endIllegal, dmaArmed]

theorem Effect.replies (h : Effect s i t) : s.replies <+: t.replies := by
  cases h with
  | deselect _ h => exact h.keeps.replies
  | xfer _ _ _ h => exact h.keeps.replies
  | _ => simp [endIllegal, dmaArmed]

end

/-! ### Steps -/

/-- What every step of the machine keeps or only adds to. -/
structure Grows (s t : State) : Prop where
  inited : s.inited = true → t.inited = true
  refusedMark : s.refusedMark ≠ none → t.refusedMark = s.refusedMark
  params : t.params = s.params
  trace : s.trace <+: t.trace
  replies : s.replies <+: t.replies

theorem Effect.grows {i : Instr} {s t : State} (h : Effect s i t) : Grows s t where
  inited hs := h.inited.elim (fun e => e.trans hs) And.left
  refusedMark hs := h.refusedMark.elim id fun e => by
    rw [e]
    cases hm : s.refusedMark with
    | none => exact absurd hm hs
    | some k => cases k; rfl
  params := h.params
  trace := h.trace
  replies := h.replies

theorem StepTo.grows {s t : State} (h : StepTo s t) : Grows s t := by
  cases h with
  | command i turns _ _ _ he => exact { he.grows with }
  | access i a turns _ _ _ _ he => exact { he.grows with }
  | _ => constructor <;> simp [endIllegal]

/-- LOCK and OWNER move only in a step that runs an ACQUIRE with the lock free, or a RELEASE (R120, R123). -/
theorem StepTo.lock {s t : State} (h : StepTo s t) : (t.lock = s.lock ∧ t.owner = s.owner) ∨
    ∃ i u, fetch s = .run i u ∧ ((i = .acquire ∧ s.lock = false) ∨ ∃ v, i = .release v) := by
  cases h with
  | command i turns hf _ _ he => exact he.lock.imp_right fun hi => ⟨i, _, hf, hi⟩
  | access i a turns hf _ _ _ he => exact he.lock.imp_right fun hi => ⟨i, _, hf, hi⟩
  | _ => exact .inl ⟨rfl, rfl⟩

/-- No run goes on from a marked state to a final one (R248, R249). -/
theorem final_run_of_marked {n : Nat} {s t : State} (hs : s.faultMark ≠ none ∨ s.refusedMark ≠ none)
    (h : core.run n s = .next t) : final t = false := by
  have marked : t.faultMark ≠ none ∨ t.refusedMark ≠ none :=
    run_keeps (Q := fun s => s.faultMark ≠ none ∨ s.refusedMark ≠ none)
      (fun s t hs hst => by
        obtain ⟨hf, hto⟩ := stepTo_of_step hst
        have hr := hs.resolve_left (not_not_intro hf)
        exact .inr (by rw [hto.grows.refusedMark hr]; exact hr)) hs h
  by_contra hn
  obtain ⟨-, hf, hr⟩ := final_iff.1 (by simpa using hn)
  exact marked.elim (· hf) (· hr)

/-- The block's turn runs the command in OPW while one is in progress (R40, R41). -/
theorem blockTurn_of_busy {s : State} {i : Instr} (hb : s.busy = true) (hd : decodeCommandFor s.params s.opw = .ok i) :
    blockTurn s = .run i s := by
  simp [blockTurn, blockMove, hb, hd]

/-- With no turn listed a step is the next micro-step of the command in OPW (R40, R41). -/
theorem step_of_busy {s : State} {i : Instr} (hf : s.faultMark = none) (hb : s.busy = true)
    (hd : decodeCommandFor s.params s.opw = .ok i) (ht : s.turns = []) : step s = exec i s := by
  simp [step, fetch, hf, ht, blockTurn_of_busy hb hd]

/-- At the block's turn a step is the next micro-step of the command in OPW (R40, R41). -/
theorem step_of_busy_block {s : State} {i : Instr} (hf : s.faultMark = none) (hb : s.busy = true)
    (hd : decodeCommandFor s.params s.opw = .ok i) {rest : List Turn} (ht : s.turns = .block :: rest) :
    step s = exec i (advance rest s) := by
  simp [step, fetch, hf, ht, blockTurn_of_busy (s := advance rest s) hb hd]

end Sys2Proof.Machine

open Sys2Proof.Machine in
/-- Settles O10: of all effects of an instruction, only those of ACQUIRE and RELEASE touch LOCK and OWNER. -/
theorem lockMovesOnlyByArbiter : Obligations.LockMovesOnlyByArbiter := by
  unfold Obligations.LockMovesOnlyByArbiter
  intro s t hs
  obtain ⟨-, hto⟩ := stepTo_of_step hs
  obtain ⟨hl, ho⟩ | ⟨i, u, hf, hi⟩ := hto.lock
  · exact ⟨fun hne => (hne.elim (· hl) (· ho)).elim, fun h => .inl ⟨hl.trans h, ho⟩⟩
  · refine ⟨fun _ => ⟨i, u, hf, hi.imp_left And.left⟩, fun h => ?_⟩
    obtain ⟨-, hfree⟩ | ⟨v, rfl⟩ := hi
    · simp [h] at hfree
    · exact .inr ⟨v, u, hf⟩

open Sys2Proof.Machine in
/-- Settles O50: every effect only grows these parts, and a mark once set stays along the run. -/
theorem stepOnlyAdds : Obligations.StepOnlyAdds := by
  unfold Obligations.StepOnlyAdds
  refine ⟨fun s t hs => ?_, fun n t u hm hr => final_run_of_marked hm hr⟩
  obtain ⟨hf, hto⟩ := stepTo_of_step hs
  obtain ⟨hi, hm, hp, ⟨es, he⟩, rs, hr⟩ := hto.grows
  exact ⟨hf, hi, hm, hp, ⟨es, he.symm⟩, rs, hr.symm⟩

open Sys2Proof.Machine in
/-- Settles O51: of all effects of an instruction, only the stored unit of a RECV touches host memory. -/
theorem memoryChangesOnlyAtReceive : Obligations.MemoryChangesOnlyAtReceive := by
  unfold Obligations.MemoryChangesOnlyAtReceive
  exact fun s t i h hne => (effect_of_exec h).mem.resolve_left hne

open Sys2Proof.Machine in
/-- Settles O52, register by register. -/
theorem whoWritesWhat : Obligations.WhoWritesWhat := by
  unfold Obligations.WhoWritesWhat
  intro s t i h
  have he := effect_of_exec h
  exact ⟨he.cmd.resolve_left, he.arg0.resolve_left, he.arg1.resolve_left, he.arg2.resolve_left,
    fun hne => (he.lock.resolve_left fun e => hne e.1).imp_left And.left,
    fun hne => (he.inited.resolve_left hne).2, he.div.resolve_left, he.ctrl.resolve_left, he.cslines.resolve_left,
    he.done.resolve_left, he.result.resolve_left⟩

open Sys2Proof.Machine in
/-- Settles O41: neither turn changes the command in OPW. -/
theorem stepRunsCommand : Obligations.StepRunsCommand := by
  unfold Obligations.StepRunsCommand
  exact fun s i hf hb hd => ⟨step_of_busy hf hb hd, fun rest ht => step_of_busy_block hf hb hd ht⟩

/-! ## Every started command ends (R41) -/

namespace Sys2Proof.Machine

/-- A bound on the micro-steps a started command still makes. A wait of `TLIMIT` polls and the micro-step after it are
`TLIMIT + 1` micro-steps; each unit of a transfer has two of these, and its final micro-step is one more (R41). -/
def microStepsLeft (s : State) : Nat :=
  let wait := s.params.tlimit + 1
  let units := s.opa2.toNat - s.i.toNat
  match s.phase with
  | .idle => 0
  | .pollTx => 2 * units * wait - s.p + 1
  | .emit => 2 * units * wait - s.params.tlimit + 1
  | .pollRx => 2 * (units - 1) * wait + wait - s.p + 1
  | .recv => 2 * (units - 1) * wait + wait - s.params.tlimit + 1
  | .pollDrain => wait - s.p
  | .finishDeselect => 1

/-- The first of the units left takes two waits (R195). -/
theorem two_waits_of_unit {units wait : Nat} (h : 0 < units) : 2 * units * wait = 2 * (units - 1) * wait + 2 * wait := by
  obtain ⟨k, rfl⟩ := Nat.exists_eq_add_one.2 h
  rw [Nat.add_sub_cancel, Nat.mul_add, Nat.add_mul]

theorem exec_xferInstr (wide txv rxv : Bool) (s : State) : exec (xferInstr wide txv rxv) s = xferStep wide txv rxv s := by
  cases wide <;> rfl

/-- Where a step has come to: the run has ended, or the command goes on with fewer micro-steps left. -/
def Progress (s t : State) : Prop :=
  (final t = true ∨ t.faultMark ≠ none) ∨ (claimable t = true ∧ t.phase ≠ .idle ∧ microStepsLeft t < microStepsLeft s)

/-- A command's end is final where neither mark is set (R138, R249). -/
theorem final_finish {r : Word} {s : State} (h : claimable s = true) : final (finish r s) = true :=
  final_iff.2 ⟨rfl, claimable_iff.1 h⟩

theorem final_finishDeselect (id : Csid) {s : State} (h : claimable s = true) : final (finishDeselect id s) = true := by
  refine final_finish (claimable_iff.2 ?_)
  unfold releasePattern
  split <;> simpa using claimable_iff.1 h

/-- EMIT ends the transmit wait of a unit; its receive wait is left (R195). -/
theorem emitUnit_progress {s : State} (hp : s.phase = .emit) (hi : s.i.toNat < s.opa2.toNat) (v : TUnit) :
    microStepsLeft (emitUnit v s) < microStepsLeft s := by
  simp only [microStepsLeft, hp, emitUnit_phase, emitUnit_params, emitUnit_opa2, emitUnit_i, emitUnit_p]
  have := two_waits_of_unit (wait := s.params.tlimit + 1) (Nat.sub_pos_of_lt hi)
  omega

/-- RECV ends the receive wait of a unit; the units after it are left (R195). -/
theorem nextUnitIndex_progress {s t : State} (hp : s.phase = .recv) (hi : s.i.toNat < s.opa2.toNat)
    (hparams : t.params = s.params) (hn : t.opa2 = s.opa2) (hti : t.i = s.i) :
    microStepsLeft (nextUnitIndex t) < microStepsLeft s := by
  have hsucc : s.opa2.toNat - (s.i + 1#32).toNat = s.opa2.toNat - s.i.toNat - 1 := by bv_omega
  simp only [microStepsLeft, hp, nextUnitIndex_phase, nextUnitIndex_params, nextUnitIndex_opa2, nextUnitIndex_i,
    nextUnitIndex_p, hparams, hn, hti, hsucc]
  omega

/-- A micro-step of a transfer ends it, raises, or comes closer to its end (R41, R190, R195). -/
theorem XferMove.progress {wide txv rxv : Bool} {s t : State} (hm : XferMove wide txv rxv s t) (h : Invariant s)
    (hc : claimable s = true) : Progress s t := by
  obtain ⟨hf, hr⟩ := claimable_iff.1 hc
  have two_waits (hi : s.i.toNat < s.opa2.toNat) :=
    two_waits_of_unit (wait := s.params.tlimit + 1) (Nat.sub_pos_of_lt hi)
  cases hm with
  | finished => exact .inl (.inl (final_finish hc))
  | txReady hp hi =>
    obtain ⟨-, -, hlt⟩ := (phaseOk_pollTx hp).1 h.phase
    refine .inr ⟨claimable_iff.2 (by simp [hf, hr]), by simp, ?_⟩
    simp only [microStepsLeft, hp, pollEffect_params, pollEffect_opa2, pollEffect_i]
    have := two_waits hi
    omega
  | txTimeout => exact .inl (.inl (final_finish (claimable_iff.2 (by simp [hf, hr]))))
  | txAgain hp hi =>
    obtain ⟨-, -, hlt⟩ := (phaseOk_pollTx hp).1 h.phase
    refine .inr ⟨claimable_iff.2 (by simp [hf, hr]), by simp [hp], ?_⟩
    simp only [microStepsLeft, pollEffect_phase, hp, pollEffect_params, pollEffect_opa2, pollEffect_i, pollEffect_p]
    have := two_waits hi
    omega
  | sent hp =>
    exact .inr ⟨claimable_iff.2 (by simp [hf, hr]), by simp, emitUnit_progress hp ((phaseOk_emit hp).1 h.phase).2 _⟩
  | readRefused => exact .inl (.inr (by simp))
  | filled hp =>
    exact .inr ⟨claimable_iff.2 (by simp [hf, hr]), by simp, emitUnit_progress hp ((phaseOk_emit hp).1 h.phase).2 _⟩
  | rxReady hp =>
    obtain ⟨-, -, hlt⟩ := (phaseOk_pollRx hp).1 h.phase
    refine .inr ⟨claimable_iff.2 (by simp [hf, hr]), by simp, ?_⟩
    simp only [microStepsLeft, hp, pollEffect_params, pollEffect_opa2, pollEffect_i]
    omega
  | rxTimeout => exact .inl (.inl (final_finish (claimable_iff.2 (by simp [hf, hr]))))
  | rxAgain hp =>
    obtain ⟨-, -, hlt⟩ := (phaseOk_pollRx hp).1 h.phase
    refine .inr ⟨claimable_iff.2 (by simp [hf, hr]), by simp [hp], ?_⟩
    simp only [microStepsLeft, pollEffect_phase, hp, pollEffect_params, pollEffect_opa2, pollEffect_i, pollEffect_p]
    omega
  | stored hp =>
    exact .inr ⟨claimable_iff.2 (by simp [hf, hr]), by simp,
      nextUnitIndex_progress hp ((phaseOk_recv hp).1 h.phase).2 (by simp) (by simp) (by simp)⟩
  | storeRefused => exact .inl (.inr (by simp))
  | discarded hp =>
    exact .inr ⟨claimable_iff.2 (by simp [hf, hr]), by simp,
      nextUnitIndex_progress hp ((phaseOk_recv hp).1 h.phase).2 (by simp) (by simp) (by simp)⟩

/-- A micro-step of a DESELECT ends it or comes closer to its end (R41, R172, R190). -/
theorem DeselectMove.progress {id : Csid} {s t : State} (hm : DeselectMove id s t) (h : Invariant s)
    (hc : claimable s = true) : Progress s t := by
  obtain ⟨hf, hr⟩ := claimable_iff.1 hc
  cases hm with
  | ready hp =>
    obtain ⟨-, hlt⟩ := (phaseOk_pollDrain hp).1 h.phase
    refine .inr ⟨claimable_iff.2 (by simp [hf, hr]), by simp, ?_⟩
    simp only [microStepsLeft, hp]
    omega
  | timeout hp =>
    obtain ⟨-, hlt⟩ := (phaseOk_pollDrain hp).1 h.phase
    refine .inr ⟨claimable_iff.2 (by simp [hf, hr]), by simp, ?_⟩
    simp only [microStepsLeft, hp]
    omega
  | again hp =>
    obtain ⟨-, hlt⟩ := (phaseOk_pollDrain hp).1 h.phase
    refine .inr ⟨claimable_iff.2 (by simp [hf, hr]), by simp [hp], ?_⟩
    simp only [microStepsLeft, pollEffect_phase, hp, pollEffect_params, pollEffect_p]
    omega
  | finished hp => exact .inl (.inl (final_finishDeselect id hc))

/-- A started command is a transfer at one of its four micro-steps or a DESELECT at one of its two (R40, R41). -/
theorem Invariant.running_cases {s : State} (h : Invariant s) (hne : s.phase ≠ .idle) :
    (XferRunning s ∧ (s.phase = .pollTx ∨ s.phase = .emit ∨ s.phase = .pollRx ∨ s.phase = .recv)) ∨
    (DeselectRunning s ∧ (s.phase = .pollDrain ∨ s.phase = .finishDeselect)) := by
  cases hp : s.phase with
  | idle => exact absurd hp hne
  | pollTx => exact .inl ⟨((phaseOk_pollTx hp).1 h.phase).1, by simp⟩
  | emit => exact .inl ⟨((phaseOk_emit hp).1 h.phase).1, by simp⟩
  | pollRx => exact .inl ⟨((phaseOk_pollRx hp).1 h.phase).1, by simp⟩
  | recv => exact .inl ⟨((phaseOk_recv hp).1 h.phase).1, by simp⟩
  | pollDrain => exact .inr ⟨((phaseOk_pollDrain hp).1 h.phase).1, by simp⟩
  | finishDeselect => exact .inr ⟨((phaseOk_finishDeselect hp).1 h.phase).1, by simp⟩

/-- A transfer has a micro-step at each of its PHASEs (R40, R195). -/
theorem exists_xferMove (wide txv rxv : Bool) {s : State}
    (hp : s.phase = .pollTx ∨ s.phase = .emit ∨ s.phase = .pollRx ∨ s.phase = .recv) :
    ∃ t, exec (xferInstr wide txv rxv) s = .next t ∧ XferMove wide txv rxv s t := by
  rw [exec_xferInstr, xferStep]
  rcases hp with hp | hp | hp | hp <;> rw [hp]
  · exact ⟨_, rfl, xferPollTx_move _ _ _ hp⟩
  · exact ⟨_, rfl, xferEmit_move _ _ _ hp⟩
  · exact ⟨_, rfl, xferPollRx_move _ _ _ hp⟩
  · exact ⟨_, rfl, xferRecv_move _ _ _ hp⟩

/-- A DESELECT has a micro-step at each of its PHASEs (R40, R172). -/
theorem exists_deselectMove (id : Csid) {s : State} (hp : s.phase = .pollDrain ∨ s.phase = .finishDeselect) :
    ∃ t, exec (.deselect id) s = .next t ∧ DeselectMove id s t := by
  change ∃ t, execDeselect id s = .next t ∧ _
  rw [execDeselect]
  rcases hp with hp | hp <;> rw [hp]
  · exact ⟨_, rfl, pollDrainStep_move _ hp⟩
  · exact ⟨_, rfl, .finished hp⟩

/-- With no other agent moving, a step of a started command makes progress (R41, R132). -/
theorem Invariant.step_progress {s : State} (h : Invariant s) (hc : claimable s = true) (hne : s.phase ≠ .idle)
    (ht : s.turns = []) : ∃ t, step s = .next t ∧ t.turns = [] ∧ Progress s t := by
  have hf := (claimable_iff.1 hc).1
  have hb := h.busy_of_phase hne
  obtain ⟨⟨wide, txv, rxv, hd, -⟩, hp⟩ | ⟨⟨id, hd, -⟩, hp⟩ := h.running_cases hne
  · obtain ⟨t, he, hm⟩ := exists_xferMove wide txv rxv hp
    exact ⟨t, (step_of_busy hf hb hd ht).trans he, hm.keeps.turns.trans ht, hm.progress h hc⟩
  · obtain ⟨t, he, hm⟩ := exists_deselectMove id hp
    exact ⟨t, (step_of_busy hf hb hd ht).trans he, hm.keeps.turns.trans ht, hm.progress h hc⟩

/-- A started command has a micro-step left. -/
theorem Invariant.microStepsLeft_pos {s : State} (h : Invariant s) (hne : s.phase ≠ .idle) : 0 < microStepsLeft s := by
  cases hp : s.phase with
  | idle => exact absurd hp hne
  | pollDrain =>
    have hlt := ((phaseOk_pollDrain hp).1 h.phase).2
    simp only [microStepsLeft, hp]
    omega
  | _ => simp [microStepsLeft, hp]

/-- A started command ends, or a fault ends the run, within the bound (R41, R190). -/
theorem Invariant.ends {s : State} (h : Invariant s) (hc : claimable s = true) (hne : s.phase ≠ .idle)
    (ht : s.turns = []) :
    ∃ k t, core.run k s = .next t ∧ (final t = true ∨ t.faultMark ≠ none) ∧ k ≤ microStepsLeft s := by
  induction hn : microStepsLeft s using Nat.strong_induction_on generalizing s with
  | h n ih =>
    obtain ⟨u, hu, hut, hp⟩ := h.step_progress hc hne ht
    obtain hend | ⟨huc, hune, hlt⟩ := hp
    · exact ⟨1, u, run_succ hu, hend, hn ▸ h.microStepsLeft_pos hne⟩
    · obtain ⟨k, t, hk, hend, hle⟩ := ih _ (hn ▸ hlt) ((stepTo_of_step hu).2.keeps_invariant h) huc hune hut rfl
      exact ⟨k + 1, t, (run_succ hu).trans hk, hend, by omega⟩

/-- The bound of R41 for a DESELECT. -/
theorem microStepsLeft_deselect {s : State} (hp : s.phase = .pollDrain ∨ s.phase = .finishDeselect) :
    microStepsLeft s ≤ s.params.tlimit + 1 := by
  rcases hp with hp | hp <;> simp only [microStepsLeft, hp] <;> omega

/-- The bound of R41 for a transfer. -/
theorem Invariant.microStepsLeft_xfer {s : State} (h : Invariant s)
    (hp : s.phase = .pollTx ∨ s.phase = .emit ∨ s.phase = .pollRx ∨ s.phase = .recv) :
    microStepsLeft s ≤ 2 * s.opa2.toNat * (s.params.tlimit + 1) + 1 := by
  have hle : 2 * (s.opa2.toNat - s.i.toNat) * (s.params.tlimit + 1) ≤ 2 * s.opa2.toNat * (s.params.tlimit + 1) :=
    Nat.mul_le_mul_right _ (Nat.mul_le_mul_left _ (Nat.sub_le _ _))
  have two_waits (hi : s.i.toNat < s.opa2.toNat) :=
    two_waits_of_unit (wait := s.params.tlimit + 1) (Nat.sub_pos_of_lt hi)
  rcases hp with hp | hp | hp | hp <;> simp only [microStepsLeft, hp]
  · omega
  · omega
  · have := two_waits ((phaseOk_pollRx hp).1 h.phase).2.1
    omega
  · have := two_waits ((phaseOk_recv hp).1 h.phase).2
    omega

end Sys2Proof.Machine

/-- Settles O60, by induction on the bound of micro-steps left. -/
theorem commandsEnd : Obligations.CommandsEnd := by
  unfold Obligations.CommandsEnd
  intro s h hc hne ht
  obtain ⟨k, t, hk, hend, hle⟩ := h.ends hc hne ht
  exact ⟨k, t, hk, hend, fun hp => hle.trans (Sys2Proof.Machine.microStepsLeft_deselect hp),
    fun hp => hle.trans (h.microStepsLeft_xfer hp)⟩

/-! ## Host memory and the PHY's draws -/

namespace Sys2Proof.Machine

/-! ### A caller's own access to host memory (R60, R132) -/

/-- With no fault mark, the access at the head of the schedule is the one a step decides. -/
theorem fetch_of_bus {s : State} {a : BusAccess} {rest : List Turn} (hf : s.faultMark = none)
    (ht : s.turns = .bus a :: rest) : fetch s = busTurn a rest s := by
  rw [fetch, hf, ht]

/-- A step whose move only changes the state answers that state. -/
theorem step_of_fetch_moved {s t : State} (h : fetch s = .moved t) : step s = .next t := by
  rw [step, h]

/-- An access wholly below or above the window touches none of its bytes (R20). -/
theorem touchesWindow_eq_false {p : Params} {a : BusAccess}
    (h : a.addr + a.bytes ≤ p.base ∨ p.base + Config.windowSize ≤ a.addr) : touchesWindow p a = false :=
  decide_eq_false (by omega)

/-- The access outside the window of a caller that is not held as the issuer is its own, busy or not (R132). -/
theorem busTurn_of_outside_window {a : BusAccess} {s : State} (hm : a.caller ∈ s.params.callers)
    (hi : s.busy = true → a.caller ≠ s.issuer) (hw : touchesWindow s.params a = false) (rest : List Turn) :
    busTurn a rest s = callerMemory a (arrive rest a.caller s) := by
  rw [busTurn, if_neg (by simpa using hm), if_neg (by simpa using hi), if_neg (by simp [hw])]

/-- A caller's admitted load answers the bytes of host memory (R61, R64). -/
theorem callerMemory_of_load {a : BusAccess} {s : State} (hb : a.wholeBytes = true) (hl : a.write = false)
    (ha : admits s.params a.addr a.bytes .read = true) :
    callerMemory a s = .moved (reply (.loaded a.caller (Memory.readBytes s.mem a.addr a.bytes)) s) := by
  simp [callerMemory, hb, hl, ha]

/-- A caller's admitted store writes the bytes of its value to host memory (R61, R64). -/
theorem callerMemory_of_store {a : BusAccess} {s : State} (hb : a.wholeBytes = true) (hs : a.write = true)
    (ha : admits s.params a.addr a.bytes .write = true) :
    callerMemory a s =
      .moved (reply (.written a.caller) (putMem (Memory.writeBytes s.mem a.addr a.bytes a.data) s)) := by
  simp [callerMemory, hb, hs, ha]

/-! ### Draws (R69, R70) -/

/-- A listed answer is drawn first and is then used up. -/
theorem sample_of_listed {s : State} {b : Bool} {rest : List Bool} (h : s.samples = b :: rest) :
    nextSample s = b ∧ dropSample s = { s with samples := rest } := by
  rw [nextSample, dropSample, h]
  exact ⟨rfl, rfl⟩

/-- With no answer listed the draw is a free one, and is counted. -/
theorem sample_of_none_listed {s : State} (h : s.samples = []) :
    nextSample s = Config.freeSample s.draws ∧ dropSample s = { s with draws := s.draws + 1 } := by
  rw [nextSample, dropSample, h]
  exact ⟨rfl, rfl⟩

/-- A listed unit is drawn first and is then used up. -/
theorem unit_of_listed {s : State} {v : BitVec 16} {rest : List (BitVec 16)} (h : s.units = v :: rest) :
    nextUnit s = v ∧ dropUnit s = { s with units := rest } := by
  rw [nextUnit, dropUnit, h]
  exact ⟨rfl, rfl⟩

/-- With no unit listed the draw is a free one, and is counted. -/
theorem unit_of_none_listed {s : State} (h : s.units = []) :
    nextUnit s = Config.freeUnit s.draws ∧ dropUnit s = { s with draws := s.draws + 1 } := by
  rw [nextUnit, dropUnit, h]
  exact ⟨rfl, rfl⟩

end Sys2Proof.Machine

open Sys2Proof.Machine in
/-- Settles O46: an access outside the window is the caller's own, and the load and the store are those of host memory. -/
theorem callerMemoryAccess : Obligations.CallerMemoryAccess := by
  unfold Obligations.CallerMemoryAccess
  intro s a rest n hf ht hm hi hn hw hout
  obtain ⟨rfl, hb⟩ := BusAccess.bytes_of_width hn hw
  have hown : fetch s = callerMemory a (arrive rest a.caller s) :=
    (fetch_of_bus hf ht).trans (busTurn_of_outside_window hm hi (touchesWindow_eq_false hout) rest)
  constructor
  · intro hl ha
    rw [← Memory.readBytes_eq_map]
    exact step_of_fetch_moved (hown.trans (callerMemory_of_load hb hl ha))
  · intro hs ha
    exact ⟨Memory.writeBytes s.mem a.addr a.bytes a.data,
      step_of_fetch_moved (hown.trans (callerMemory_of_store hb hs ha)),
      fun hwf _ hk => Memory.read_writeBytes_same hwf _ _ _ hk,
      fun _ hx => Memory.read_writeBytes_other _ _ _ _ hx⟩

open Sys2Proof.Machine in
/-- Settles O37: the listed and the free draw, of a sample and of a unit. -/
theorem draws : Obligations.Draws := by
  unfold Obligations.Draws
  exact fun _ => ⟨fun _ _ => sample_of_listed, sample_of_none_listed, fun _ _ => unit_of_listed, unit_of_none_listed⟩

/-! ## Decoding and encoding -/

namespace Sys2Proof

/-! ### A command word and its fields (R96) -/

/-- The bits of a command word that are in no field: bit 7 and bits 26 to 31 (R96). -/
def reservedMask : Word := 0xFC000080#32

theorem fieldOp_and (a b : Word) : fieldOp (a &&& b) = fieldOp a &&& fieldOp b := BitVec.extractLsb'_and

theorem fieldMode_and (a b : Word) : fieldMode (a &&& b) = fieldMode a &&& fieldMode b := BitVec.extractLsb'_and

theorem fieldCsid_and (a b : Word) : fieldCsid (a &&& b) = fieldCsid a &&& fieldCsid b := BitVec.extractLsb'_and

theorem fieldWbits_and (a b : Word) : fieldWbits (a &&& b) = fieldWbits a &&& fieldWbits b := BitVec.extractLsb'_and

theorem fieldW16_and (a b : Word) : fieldW16 (a &&& b) = (fieldW16 a && fieldW16 b) := BitVec.getLsbD_and

theorem fieldTxv_and (a b : Word) : fieldTxv (a &&& b) = (fieldTxv a && fieldTxv b) := BitVec.getLsbD_and

theorem fieldRxv_and (a b : Word) : fieldRxv (a &&& b) = (fieldRxv a && fieldRxv b) := BitVec.getLsbD_and

/-- Every bit outside the fields of an assembled word is 0 (R97). -/
theorem assemble_and_reservedMask (op : BitVec 4) (m : BitVec 2) (x : Bool) (c b : BitVec 8) (t r : Bool) :
    assemble op m x c b t r &&& reservedMask = 0#32 :=
  assemble_on_row fun i => by
    rw [getLsbD_assemble]
    fin_cases i <;> simp [reservedMask]

/-- A word is made of its fields and the bits outside them (R96). -/
theorem eq_assemble_or_reserved (w : Word) :
    w = assemble (fieldOp w) (fieldMode w) (fieldW16 w) (fieldCsid w) (fieldWbits w) (fieldTxv w) (fieldRxv w) |||
      (w &&& reservedMask) := by
  refine word_ext fun i => ?_
  rw [BitVec.getLsbD_or, BitVec.getLsbD_and, getLsbD_assemble]
  fin_cases i <;>
    simp [reservedMask, fieldOp, fieldMode, fieldW16, fieldCsid, fieldWbits, fieldTxv, fieldRxv]

/-- Words are equal if they have equal fields and equal bits outside them. -/
theorem word_eq_iff_fields {a b : Word} : a = b ↔
    fieldOp a = fieldOp b ∧ fieldMode a = fieldMode b ∧ fieldW16 a = fieldW16 b ∧ fieldCsid a = fieldCsid b ∧
    fieldWbits a = fieldWbits b ∧ fieldTxv a = fieldTxv b ∧ fieldRxv a = fieldRxv b ∧
    a &&& reservedMask = b &&& reservedMask := by
  refine ⟨fun h => by simp [h], fun ⟨ho, hm, hx, hc, hb, ht, hr, hz⟩ => ?_⟩
  rw [eq_assemble_or_reserved a, ho, hm, hx, hc, hb, ht, hr, hz, ← eq_assemble_or_reserved b]

/-- A word is a given assembled one exactly if its fields are the given ones and every other bit is 0 (R97). -/
theorem assemble_eq_iff {op : BitVec 4} {m : BitVec 2} {x : Bool} {c b : BitVec 8} {t r : Bool} {w : Word} :
    assemble op m x c b t r = w ↔ fieldOp w = op ∧ fieldMode w = m ∧ fieldW16 w = x ∧ fieldCsid w = c ∧
      fieldWbits w = b ∧ fieldTxv w = t ∧ fieldRxv w = r ∧ w &&& reservedMask = 0#32 := by
  rw [eq_comm, word_eq_iff_fields, fieldOp_assemble, fieldMode_assemble, fieldW16_assemble, fieldCsid_assemble,
    fieldWbits_assemble, fieldTxv_assemble, fieldRxv_assemble, assemble_and_reservedMask]

/-- A word agrees with a value under a mask exactly if each field does and the bits outside the fields do. -/
theorem and_eq_iff_fields {w mask value : Word} : w &&& mask = value ↔
    fieldOp w &&& fieldOp mask = fieldOp value ∧ fieldMode w &&& fieldMode mask = fieldMode value ∧
    (fieldW16 w && fieldW16 mask) = fieldW16 value ∧ fieldCsid w &&& fieldCsid mask = fieldCsid value ∧
    fieldWbits w &&& fieldWbits mask = fieldWbits value ∧ (fieldTxv w && fieldTxv mask) = fieldTxv value ∧
    (fieldRxv w && fieldRxv mask) = fieldRxv value ∧ w &&& (mask &&& reservedMask) = value &&& reservedMask := by
  rw [word_eq_iff_fields, fieldOp_and, fieldMode_and, fieldW16_and, fieldCsid_and, fieldWbits_and, fieldTxv_and,
    fieldRxv_and, BitVec.and_assoc]

/-! ### The rows of R99 are the encodings of their commands (R97) -/

/-- A word is on a row of R99 exactly if it is the encoding of the row's command with the word's own fields (R97). -/
theorem on_row_iff_encode {r : CommandRow} (hr : r ∈ commandRows) {w : Word} :
    w &&& r.mask = r.value ↔ encode (r.command.instr w) = .command w := by
  have ones4 : ∀ v : BitVec 4, v &&& 15#4 = v := fun v => BitVec.and_allOnes
  have ones2 : ∀ v : BitVec 2, v &&& 3#2 = v := fun v => BitVec.and_allOnes
  have ones8 : ∀ v : BitVec 8, v &&& 255#8 = v := fun v => BitVec.and_allOnes
  rw [and_eq_iff_fields]
  simp only [commandRows, List.mem_cons, List.not_mem_nil, or_false] at hr
  rcases hr with rfl | rfl | rfl | rfl | rfl | rfl | rfl | rfl
  all_goals
    simp only [Command.instr, encode, Encoded.command.injEq, assemble_eq_iff]
    simp [fieldOp, fieldMode, fieldW16, fieldCsid, fieldWbits, fieldTxv, fieldRxv, reservedMask, ones2, ones4, ones8]

/-- A word decodes to an instruction exactly if it is on the row of its command, with the fields of R102. -/
theorem decodeCommand_ok_iff {w : Word} {i : Instr} :
    decodeCommand w = .ok i ↔ ∃ r ∈ commandRows, w &&& r.mask = r.value ∧ i = r.command.instr w :=
  ⟨decodeCommand_ok, fun ⟨_, hr, hw, hi⟩ => hi ▸ decodeCommand_of_row hr hw⟩

/-- Every command has a row in R99's table. -/
theorem exists_row (c : Command) : ∃ r ∈ commandRows, r.command = c := by
  cases c <;> decide

/-- A word that encodes an instruction carries its command and its fields (R97, R102). -/
theorem exists_command_of_encode {i : Instr} {w : Word} (h : encode i = .command w) : ∃ c : Command, c.instr w = i := by
  cases i <;> cases h
  case init => exact ⟨.init, by rw [Command.instr, fieldWbits_assemble]⟩
  case configure =>
    exact ⟨.configure, by rw [Command.instr, fieldCsid_assemble, fieldMode_assemble, fieldW16_assemble]⟩
  case select => exact ⟨.select, by rw [Command.instr, fieldCsid_assemble]⟩
  case deselect => exact ⟨.deselect, by rw [Command.instr, fieldCsid_assemble]⟩
  case xfer8 => exact ⟨.xfer8, by rw [Command.instr, fieldTxv_assemble, fieldRxv_assemble]⟩
  case xfer16 => exact ⟨.xfer16, by rw [Command.instr, fieldTxv_assemble, fieldRxv_assemble]⟩
  case dmatx => exact ⟨.dmatx, by rw [Command.instr, fieldTxv_assemble]⟩
  case dmarx => exact ⟨.dmarx, rfl⟩

/-- The word of a command decodes to the command, presence aside (R97, R100). -/
theorem decodeCommand_of_encode {i : Instr} {w : Word} (h : encode i = .command w) : decodeCommand w = .ok i := by
  obtain ⟨c, rfl⟩ := exists_command_of_encode h
  obtain ⟨r, hr, rfl⟩ := exists_row c
  exact decodeCommand_of_row hr ((on_row_iff_encode hr).2 h)

/-- The code and data of a host access decode to it (R92). -/
theorem decodeAccess_of_encode {i : Instr} {code : BitVec 8} {data : Word} (h : encode i = .access code data) :
    decodeAccess code data = .ok i := by
  cases i <;> cases h <;> rfl

/-- Every block has every host access (R92). -/
theorem present_of_encode_access {p : Params} {i : Instr} {code : BitVec 8} {data : Word}
    (h : encode i = .access code data) : i.present p = true := by
  cases i <;> cases h <;> rfl

/-- The command of an absent command's word is not found (R99, R101). -/
theorem decodeCommandFor_of_absent {p : Params} {w : Word} {i : Instr} (h : decodeCommand w = .ok i)
    (hp : i.present p = false) : decodeCommandFor p w = .reject .absentCommand := by
  simp [decodeCommandFor, h, hp]

end Sys2Proof

namespace Sys2Proof.Machine

/-! ### Running what is placed (log 27) -/

/-- An access code is its write bit, its width bit and its offset (R91). -/
theorem accessCode_bits (code : BitVec 8) :
    BitVec.ofBool (code.getLsbD 7) ++ BitVec.ofBool (code.getLsbD 6) ++ code.extractLsb' 0 6 = code := by
  refine BitVec.eq_of_getLsbD_eq fun k hk => ?_
  simp only [BitVec.getLsbD_append]
  obtain h | rfl | rfl : k < 6 ∨ k = 6 ∨ k = 7 := by omega
  · simp [h]
  · simp
  · simp

/-- The code that an access is placed from is its access code (R91). -/
theorem accessCode_codeAccess (s : State) (code : BitVec 8) (data : Word) :
    accessCode s.params (codeAccess s code data) = some code := by
  have off : (code.extractLsb' 0 6).toNat < Config.windowSize := BitVec.isLt _
  have low : BitVec.ofNat 6 (s.params.base + (code.extractLsb' 0 6).toNat - s.params.base) = code.extractLsb' 0 6 := by
    rw [Nat.add_sub_cancel_left, BitVec.ofNat_toNat, BitVec.setWidth_eq]
  have bits := accessCode_bits code
  rw [accessCode, if_pos ⟨Nat.le_add_right _ _, Nat.add_lt_add_left off _⟩]
  simp only [codeAccess, low]
  cases hw : code.getLsbD 6 <;> rw [hw] at bits
  · exact congrArg some bits
  · exact congrArg some bits

/-- The access placed from a code and its data is the host access they decode to (R91, R92). -/
theorem accessInstr_codeAccess {s : State} {code : BitVec 8} {data : Word} {i : Instr}
    (h : decodeAccess code data = .ok i) : accessInstr s.params (codeAccess s code data) = some i := by
  have hw : (codeAccess s code data).word = data := by simp [BusAccess.word, codeAccess]
  simp [accessInstr, accessCode_codeAccess, hw, h]

/-- The state that runs a placed host access (log 27). -/
theorem arrive_placeNext (s : State) (code : BitVec 8) (data : Word) :
    arrive s.turns s.caller (placeNext s (.access code data)) =
      { s with faultMark := none, busy := false, phase := .idle } := rfl

/-- The state that runs a placed command word (log 27). -/
theorem advance_placeNext (s : State) (w : Word) :
    advance s.turns (placeNext s (.command w)) =
      { s with faultMark := none, busy := true, phase := .idle, opw := w } := rfl

/-- With the block idle a caller's access of an admitted form runs as its instruction (R130, R131). -/
theorem busTurn_of_accessInstr {a : BusAccess} {s : State} {i : Instr} (hm : a.caller ∈ s.params.callers)
    (hb : s.busy = false) (h : accessInstr s.params a = some i) (rest : List Turn) :
    busTurn a rest s = .run i (arrive rest a.caller s) := by
  simp [busTurn, hm, hb, touchesWindow_of_accessInstr h, h]

/-- With the block idle the access at the head of the schedule is run by its caller (R130, R131). -/
theorem step_of_accessInstr {s : State} {a : BusAccess} {rest : List Turn} {i : Instr} (hf : s.faultMark = none)
    (ht : s.turns = .bus a :: rest) (hm : a.caller ∈ s.params.callers) (hb : s.busy = false)
    (h : accessInstr s.params a = some i) : step s = exec i (arrive rest a.caller s) := by
  rw [step, fetch_of_bus hf ht, busTurn_of_accessInstr hm hb h]

end Sys2Proof.Machine

open Sys2Proof in
/-- Settles O1: a command by the fields of its word, a host access by its code. -/
theorem decodeOfEncode : Obligations.DecodeOfEncode := by
  unfold Obligations.DecodeOfEncode
  intro p i hp
  cases he : encode i with
  | command w => exact decodeCommandFor_ok.2 ⟨decodeCommand_of_encode he, hp⟩
  | access code data => exact decodeAccess_of_encode he

open Sys2Proof in
/-- Settles O2: the word is on a row, and a word on a row is an encoding. -/
theorem encodeOfDecodedCommand : Obligations.EncodeOfDecodedCommand := by
  unfold Obligations.EncodeOfDecodedCommand
  intro w i h
  obtain ⟨r, hr, hw, rfl⟩ := decodeCommand_ok h
  exact (on_row_iff_encode hr).1 hw

open Sys2Proof in
/-- Settles O3: an absent instruction is a command, and its word decodes to it, presence aside. -/
theorem absentCommandIsReserved : Obligations.AbsentCommandIsReserved := by
  unfold Obligations.AbsentCommandIsReserved
  intro p i hp
  cases he : encode i with
  | command w => exact decodeCommandFor_of_absent (decodeCommand_of_encode he) hp
  | access code data => simp [present_of_encode_access he] at hp

open Sys2Proof in
/-- Settles O4: the rows have distinct opcodes, and what decodes is on a row. -/
theorem noWordMatchesTwoRows : Obligations.NoWordMatchesTwoRows := by
  unfold Obligations.NoWordMatchesTwoRows
  refine ⟨fun r hr q hq w hw hw' => commandRows_op_injective r hr q hq ?_, fun w i => ?_⟩
  · rw [← fieldOp_of_and hw (commandRows_op r hr), fieldOp_of_and hw' (commandRows_op q hq)]
  · rw [decodeCommand_ok_iff]
    simp only [commandRows, List.exists_mem_cons_iff, List.not_mem_nil, false_and, exists_false, or_false]
    exact Iff.rfl

open Sys2Proof in
/-- Settles O5: the codes of the decoder's rows are those of R92. -/
theorem accessCodesOfTable : Obligations.AccessCodesOfTable := by
  unfold Obligations.AccessCodesOfTable
  intro code data
  constructor
  · intro ⟨i, h⟩
    have hc : code = BitVec.ofNat 8 code.toNat := by simp
    rw [hc]
    unfold decodeAccess at h
    generalize code.toNat = n at h ⊢
    split at h
    case h_34 => cases h
    all_goals decide
  · intro hc
    fin_cases hc <;> exact ⟨_, rfl⟩

open Sys2Proof Sys2Proof.Machine in
/-- Settles O42: an access is placed with the code it has, and a command word where the block's turn reads it. -/
theorem placedInstructionRuns : Obligations.PlacedInstructionRuns := by
  unfold Obligations.PlacedInstructionRuns
  intro s i hp
  constructor
  · intro code data hm he
    rw [he, ← arrive_placeNext s code data]
    exact step_of_accessInstr (a := codeAccess s code data) rfl rfl hm rfl
      (accessInstr_codeAccess (s := s) (decodeAccess_of_encode he))
  · intro w he
    rw [he, ← advance_placeNext]
    exact step_of_busy_block (s := placeNext s (.command w)) rfl rfl
      (decodeCommandFor_ok.2 ⟨decodeCommand_of_encode he, hp⟩) rfl

/-- Settles O6, by evaluation of the decoder at each word. -/
theorem encodingExamples : Obligations.EncodingExamples := by
  unfold Obligations.EncodingExamples
  decide

/-! ## The arbiter (R120 to R124) -/

namespace Sys2Proof.Machine

/-- ACQUIRE of a clear lock: the caller becomes its owner and reads 1 (R120). -/
theorem exec_acquire_of_clear {s : State} (h : s.lock = false) : exec .acquire s =
    .next (reply (.word s.caller 0x00000001#32) { s with lock := true, owner := some s.caller }) := by
  simp [exec, execAcquire, h]

/-- ACQUIRE of a set lock: the caller reads 0, and no register moves (R120). -/
theorem exec_acquire_of_set {s : State} (h : s.lock = true) :
    exec .acquire s = .next (reply (.word s.caller 0x00000000#32) s) := by
  simp [exec, execAcquire, h]

/-- RELEASE from any state, whatever the value written (R123). -/
theorem exec_release (v : Word) (s : State) :
    exec (.release v) s = .next (reply (.written s.caller) { s with lock := false, owner := none }) := rfl

end Sys2Proof.Machine

open Sys2Proof.Machine in
/-- Settles O7: ACQUIRE tests LOCK, and each outcome is one case of that test. -/
theorem acquireTestsAndSets : Obligations.AcquireTestsAndSets := by
  unfold Obligations.AcquireTestsAndSets
  intro s
  exact ⟨exec_acquire_of_clear, exec_acquire_of_set⟩

open Sys2Proof.Machine in
/-- Settles O8: RELEASE writes constants, so that a second one writes what already stands there. -/
theorem releaseClearsTheLock : Obligations.ReleaseClearsTheLock := by
  unfold Obligations.ReleaseClearsTheLock
  intro s v w
  exact ⟨exec_release v s, _, _, exec_release v s, exec_release w _, rfl⟩

open Sys2Proof.Machine in
/-- Settles O9: a RELEASE leaves the lock clear, and an ACQUIRE of a clear lock takes it for its caller. -/
theorem acquireAfterReleaseSucceeds : Obligations.AcquireAfterReleaseSucceeds := by
  unfold Obligations.AcquireAfterReleaseSucceeds
  intro s v c
  exact ⟨_, _, exec_release v s, exec_acquire_of_clear rfl, rfl, rfl, rfl⟩

/-! ## The command port (R130 to R148) -/

namespace Sys2Proof.Machine

open Sys2Proof.Claims

/-! ### The operand checks are those of the rules (R156, R193, R223) -/

/-- The divisor check (R155, R156, D13). -/
theorem divisorLegal_iff (s : State) : divisorLegal s.params s.opa0 = true ↔ ¬ divisorRaises s := by
  have hz : s.opa0 = 0#32 ↔ s.opa0.toNat = 0 := BitVec.toNat_inj.symm
  rw [divisorLegal, decide_eq_true_eq, divisorRaises, hz, divisor, ceilDiv]
  omega

/-- A buffer of bytes is inside the address space and clear of the window (R193, R223). -/
theorem fits_iff {p : Params} {a len : Nat} :
    (decide (a + len ≤ Config.addressSpace) && clearOfWindow p a len) = true ↔ fits p a len := by
  simp only [clearOfWindow, Bool.and_eq_true, decide_eq_true_eq]
  exact Iff.rfl

/-- The buffer check of a transfer of at least one unit (R193). -/
theorem bufferLegal_iff {p : Params} {wide : Bool} {a n : Nat} : bufferLegal p wide a n = true ↔ xferFits p wide a n := by
  have hsize : unitSize wide * n = if wide then 2 * n else n := by cases wide <;> simp [unitSize]
  rw [xferFits, ← hsize, ← fits_iff, bufferLegal]
  cases wide <;> simp [and_right_comm]

/-- The operand checks of a transfer, in their order (R193). -/
theorem xferFault_eq_some_iff {wide txv rxv : Bool} {s : State} {k : Fault} :
    xferFault wide txv rxv s = some k ↔ transferRaises wide txv rxv k s := by
  have hw : ctrlW16 s.ctrl = s.ctrl.getLsbD 4 := rfl
  simp only [transferRaises, ← bufferLegal_iff, ← hw]
  unfold xferFault
  split
  case isTrue h => simp_all [eq_comm (a := k)]
  case isFalse h =>
    have h : ctrlW16 s.ctrl = wide := by simpa using h
    split
    case isTrue hn => simp [h, hn]
    case isFalse hn =>
      split
      case isTrue ht => simp_all [eq_comm (a := k)]
      case isFalse ht => split <;> simp_all [eq_comm (a := k)]

/-- The operand checks of a DMA arming, in their order (R223). -/
theorem dmaFault_eq_some_iff {given : Bool} {s : State} {k : Fault} :
    dmaFault given s = some k ↔ dmaRaises given k s := by
  have hw : ctrlW16 s.ctrl = s.ctrl.getLsbD 4 := rfl
  simp only [dmaRaises, ← fits_iff, ← hw]
  unfold dmaFault
  generalize (decide (s.opa0.toNat + s.opa2.toNat ≤ Config.addressSpace) &&
    clearOfWindow s.params s.opa0.toNat s.opa2.toNat) = inside
  split
  case isTrue h => simp [h, eq_comm (a := k)]
  case isFalse h =>
    split
    case isTrue hn => simp [h, hn, eq_comm (a := k)]
    case isFalse hn => split <;> simp_all [eq_comm (a := k)]

/-! ### What dispatch decides (R136, R252, R253) -/

/-- Dispatch decides the command by three checks in the order of R253, and they are those the rules state: presence and range,
the session row, the operands. -/
structure Checks (i : Instr) (s : State) (inRange sessionOk : Bool) (operands : Option Fault) : Prop where
  verdict : verdict i s = verdictOf inRange sessionOk operands
  range : inRange = true ↔ i.present s.params = true ∧ ¬ outOfRange i s
  session : sessionOk = true ↔ allowed i s
  operands : ∀ k, operands = some k ↔ operandsRaise i k s

theorem Checks.init (b : BitVec 8) (s : State) : Checks (.init b) s true true none where
  verdict := rfl
  range := by simp [Instr.present, outOfRange, Instr.csidInRange]
  session := by simp [allowed]
  operands := by simp [operandsRaise]

theorem Checks.configure (c : Csid) (m : BitVec 2) (x : Bool) (s : State) : Checks (.configure c m x) s
    (decide (c.toNat < s.params.ncs))
    (s.inited && decide (s.session = .unconfigured ∨ s.session = .configured ∨ s.session = .deselected))
    (if divisorLegal s.params s.opa0 then none else some .misuseDivisor) where
  verdict := rfl
  range := by simp [Instr.present, outOfRange, Instr.csidInRange]
  session := by simp [allowed]
  operands k := by
    have hd := divisorLegal_iff s
    split <;> simp_all [operandsRaise, eq_comm (a := k)]

theorem Checks.select (c : Csid) (s : State) : Checks (.select c) s (decide (c.toNat < s.params.ncs))
    (decide ((s.session = .configured ∨ s.session = .deselected) ∧ s.cfgId = some c)) none where
  verdict := rfl
  range := by simp [Instr.present, outOfRange, Instr.csidInRange]
  session := by simp [allowed]
  operands := by simp [operandsRaise]

theorem Checks.deselect (c : Csid) (s : State) : Checks (.deselect c) s (decide (c.toNat < s.params.ncs))
    (decide ((s.session = .selected ∨ s.session = .error) ∧ s.selId = some c)) none where
  verdict := rfl
  range := by simp [Instr.present, outOfRange, Instr.csidInRange]
  session := by simp [allowed]
  operands := by simp [operandsRaise]

theorem Checks.xfer8 (txv rxv : Bool) (s : State) : Checks (.xfer8 txv rxv) s true
    (decide (s.session = .selected)) (xferFault false txv rxv s) where
  verdict := rfl
  range := by simp [Instr.present, outOfRange, Instr.csidInRange]
  session := by simp [allowed]
  operands _ := xferFault_eq_some_iff

theorem Checks.xfer16 (txv rxv : Bool) (s : State) : Checks (.xfer16 txv rxv) s s.params.word16
    (decide (s.session = .selected)) (xferFault true txv rxv s) where
  verdict := rfl
  range := by simp [Instr.present, outOfRange, Instr.csidInRange]
  session := by simp [allowed]
  operands _ := xferFault_eq_some_iff

theorem Checks.dmatx (txv : Bool) (s : State) : Checks (.dmatx txv) s
    (s.params.dmaPresent && decide (s.opa1.toNat < s.params.ndma)) (decide (s.session = .selected)) (dmaFault txv s) where
  verdict := rfl
  range := by simp [Instr.present, outOfRange, Instr.csidInRange]
  session := by simp [allowed]
  operands _ := dmaFault_eq_some_iff

theorem Checks.dmarx (s : State) : Checks .dmarx s
    (s.params.dmaPresent && decide (s.opa1.toNat < s.params.ndma)) (decide (s.session = .selected)) (dmaFault true s) where
  verdict := rfl
  range := by simp [Instr.present, outOfRange, Instr.csidInRange]
  session := by simp [allowed]
  operands _ := dmaFault_eq_some_iff

/-- Every command has its checks. -/
theorem exists_checks {i : Instr} (h : isCommand i = true) (s : State) : ∃ r o f, Checks i s r o f := by
  cases i with
  | init b => exact ⟨_, _, _, .init b s⟩
  | configure c m x => exact ⟨_, _, _, .configure c m x s⟩
  | select c => exact ⟨_, _, _, .select c s⟩
  | deselect c => exact ⟨_, _, _, .deselect c s⟩
  | xfer8 t r => exact ⟨_, _, _, .xfer8 t r s⟩
  | xfer16 t r => exact ⟨_, _, _, .xfer16 t r s⟩
  | dmatx t => exact ⟨_, _, _, .dmatx t s⟩
  | dmarx => exact ⟨_, _, _, .dmarx s⟩
  | _ => cases h

section
variable {i : Instr} {s : State}

/-- Only commands have an identifier or a channel (R102, R136). -/
theorem isCommand_of_outOfRange (h : outOfRange i s) : isCommand i = true := by
  obtain h | ⟨⟨t, rfl⟩ | rfl, -⟩ := h
  · cases i with
    | configure | select | deselect => rfl
    | _ => cases h
  · rfl
  · rfl

/-- The range is checked before the session and the operands (R253). -/
theorem verdict_of_outOfRange (h : outOfRange i s) : verdict i s = .illegal := by
  obtain ⟨r, o, f, hc⟩ := exists_checks (isCommand_of_outOfRange h) s
  have hr : r = false := by simpa [h] using hc.range
  rw [hc.verdict, verdictOf_illegal.2 hr]

/-- The session is checked before the operands (R253). -/
theorem verdict_of_not_allowed (hi : isCommand i = true) (hp : i.present s.params = true) (hr : ¬ outOfRange i s)
    (h : ¬ allowed i s) : verdict i s = .fault .misuseOrder := by
  obtain ⟨r, o, f, hc⟩ := exists_checks hi s
  obtain rfl : r = true := hc.range.2 ⟨hp, hr⟩
  obtain rfl : o = false := by simpa [h] using hc.session
  exact hc.verdict

/-- The operands are checked last (R253). -/
theorem verdict_of_operandsRaise (hi : isCommand i = true) (hp : i.present s.params = true) (hr : ¬ outOfRange i s)
    (ho : allowed i s) {k : Fault} (h : operandsRaise i k s) : verdict i s = .fault k := by
  obtain ⟨r, o, f, hc⟩ := exists_checks hi s
  obtain rfl : r = true := hc.range.2 ⟨hp, hr⟩
  obtain rfl : o = true := hc.session.2 ho
  obtain rfl : f = some k := (hc.operands k).2 h
  exact hc.verdict

/-- A command that passes every check is performed (R136). -/
theorem verdict_of_passes (hi : isCommand i = true) (hp : i.present s.params = true) (hr : ¬ outOfRange i s)
    (ho : allowed i s) (h : ∀ k, ¬ operandsRaise i k s) : verdict i s = .go := by
  obtain ⟨r, o, f, hc⟩ := exists_checks hi s
  have hf : f = none := Option.eq_none_iff_forall_ne_some.2 fun k e => h k ((hc.operands k).1 e)
  rw [hc.verdict, verdictOf_go.2 ⟨hc.range.2 ⟨hp, hr⟩, hc.session.2 ho, hf⟩]

/-- At IDLE a command is dispatched: its checks come before everything it does (R136). -/
theorem exec_of_idle (hp : s.phase = .idle) (hi : isCommand i = true) :
    ∃ act, exec i s = guarded (verdict i s) s act := by
  cases i with
  | deselect c => exact ⟨_, by rw [exec, execDeselect, hp]; rfl⟩
  | xfer8 t r => exact ⟨_, by rw [exec, execXfer8, xferStep, hp]; rfl⟩
  | xfer16 t r => exact ⟨_, by rw [exec, execXfer16, xferStep, hp]; rfl⟩
  | init b => exact ⟨_, by rw [exec, execInit]; rfl⟩
  | configure c m x => exact ⟨_, by rw [exec, execConfigure]; rfl⟩
  | select c => exact ⟨_, by rw [exec, execSelect]; rfl⟩
  | dmatx t => exact ⟨_, by rw [exec, execDmatx]; rfl⟩
  | dmarx => exact ⟨_, by rw [exec, execDmarx]; rfl⟩
  | _ => cases hi

/-- A command out of range ends as illegal, in any session (R136, R137). -/
theorem exec_of_outOfRange (hp : s.phase = .idle) (h : outOfRange i s) : exec i s = .next (endIllegal s) := by
  obtain ⟨act, he⟩ := exec_of_idle hp (isCommand_of_outOfRange h)
  rw [he, verdict_of_outOfRange h, guarded_illegal]

end

/-! ### A write to CMD (R135, R251) -/

section
variable {s : State} {w : Word}

/-- A CMD write of another caller raises, whatever the word (R251). -/
theorem exec_wrCmd_of_not_owner (h : s.owner ≠ some s.caller) (w : Word) :
    exec (.wrCmd w) s = .next (raise .misuseLock s) := by
  rw [exec, execWrCmd, owned_of_not_owner h]

/-- A word that spells no present command is latched (R137). -/
theorem exec_wrCmd_of_reject {r : Reject} (h : s.owner = some s.caller) (hd : decodeCommandFor s.params w = .reject r) :
    exec (.wrCmd w) s = .next (acceptCommand w s) := by
  simp [exec, execWrCmd, owned_of_owner h, hd]

variable {i : Instr} (h : s.owner = some s.caller) (hd : decodeCommandFor s.params w = .ok i)
include h hd

/-- A command out of range is latched, to be ended by its micro-step (R137). -/
theorem exec_wrCmd_of_illegal (hv : verdict i (acceptCommand w s) = .illegal) :
    exec (.wrCmd w) s = .next (acceptCommand w s) := by
  simp [exec, execWrCmd, owned_of_owner h, hd, hv]

/-- A check that raises leaves its mark on the state before the write (R247). -/
theorem exec_wrCmd_of_fault {k : Fault} (hv : verdict i (acceptCommand w s) = .fault k) :
    exec (.wrCmd w) s = .next (raise k s) := by
  simp [exec, execWrCmd, owned_of_owner h, hd, hv]

/-- A command whose checks pass is latched and started (R135, R136). -/
theorem exec_wrCmd_of_go (hv : verdict i (acceptCommand w s) = .go) :
    exec (.wrCmd w) s = .next (begin i (acceptCommand w s)) := by
  simp [exec, execWrCmd, owned_of_owner h, hd, hv]

end

/-! ### The other accesses (R133, R134, R139 to R148) -/

theorem exec_wrArg0 (v : Word) (s : State) :
    exec (.wrArg0 v) s = owned s fun s => .next (reply (.written s.caller) { s with arg0 := v }) := rfl

theorem exec_wrArg1 (v : Word) (s : State) :
    exec (.wrArg1 v) s = owned s fun s => .next (reply (.written s.caller) { s with arg1 := v }) := rfl

theorem exec_wrArg2 (v : Word) (s : State) :
    exec (.wrArg2 v) s = owned s fun s => .next (reply (.written s.caller) { s with arg2 := v }) := rfl

/-- STATUS as a number (R25, R143). -/
theorem statusView_eq (s : State) : statusView s = BitVec.ofNat 32 (2 * s.inited.toNat + s.lock.toNat) := by
  unfold statusView
  cases s.inited <;> cases s.lock <;> rfl

/-! ### The forms of a window access (R91, R92) -/

/-- A 32-bit access has a code of R92 exactly at a multiple of 4. -/
theorem decodeAccess_word_iff (write : Bool) {n : Nat} (hn : n < 64) (data : Word) :
    (∃ i, decodeAccess (BitVec.ofBool write ++ 1#1 ++ BitVec.ofNat 6 n) data = .ok i) ↔ n % 4 = 0 := by
  rw [accessCodesOfTable]
  interval_cases n <;> cases write <;> decide

/-- An 8-bit access has a code of R92 exactly as the read at 0x1C. -/
theorem decodeAccess_byte_iff (write : Bool) {n : Nat} (hn : n < 64) (data : Word) :
    (∃ i, decodeAccess (BitVec.ofBool write ++ 0#1 ++ BitVec.ofNat 6 n) data = .ok i) ↔ write = false ∧ n = 0x1C := by
  rw [accessCodesOfTable]
  interval_cases n <;> cases write <;> decide

/-- An access spells an instruction exactly if it has a code and the code decodes (R91). -/
theorem exists_accessInstr_iff {p : Params} {a : BusAccess} : (∃ i, accessInstr p a = some i) ↔
    ∃ code, accessCode p a = some code ∧ ∃ i, decodeAccess code a.word = .ok i := by
  unfold accessInstr
  cases accessCode p a with
  | none => simp
  | some code => cases hd : decodeAccess code a.word <;> simp [hd]

/-- The accesses that spell an instruction are those of the forms of R92. -/
theorem admittedForm_iff {p : Params} {a : BusAccess} : admittedForm p a ↔ ∃ i, accessInstr p a = some i := by
  rw [exists_accessInstr_iff, admittedForm, accessCode, Config.windowSize]
  split
  case isTrue hw =>
    have hoff : a.addr - p.base < 64 := by omega
    split
    case isTrue h8 =>
      have hfill : a.addr = p.base + 0x1C ↔ a.addr - p.base = 0x1C := by omega
      simp [decodeAccess_byte_iff _ hoff, h8, hfill]
    case isFalse h8 =>
      split
      case isTrue h32 =>
        simp only [Option.some.injEq, exists_eq_left', decodeAccess_word_iff _ hoff]
        omega
      case isFalse h32 => simp [h8, h32]
  case isFalse hw =>
    simp only [reduceCtorEq, false_and, exists_false, iff_false]
    omega

/-! ### A bus access at the head of the schedule (R130 to R132) -/

/-- An access that touches the window in no form of R92 raises, busy or not, unless its caller is held as the issuer
(R130, R253). -/
theorem busTurn_of_bad_form {a : BusAccess} {s : State} (hm : a.caller ∈ s.params.callers)
    (hi : s.busy = true → a.caller ≠ s.issuer) (hw : touchesWindow s.params a = true)
    (hn : accessInstr s.params a = none) (rest : List Turn) :
    busTurn a rest s = .moved (raise .badAccess (arrive rest a.caller s)) := by
  rw [busTurn, if_neg (by simpa using hm), if_neg (by simpa using hi), if_pos hw, hn]

/-- While a command runs, its issuer's accesses and those of an admitted form are held, and the block moves (R132). -/
theorem busTurn_of_held {a : BusAccess} {s : State} (hb : s.busy = true) (hm : a.caller ∈ s.params.callers)
    (h : a.caller = s.issuer ∨ ∃ i, accessInstr s.params a = some i) (rest : List Turn) :
    busTurn a rest s = blockMove s := by
  rw [busTurn, if_neg (by simpa using hm)]
  by_cases hi : a.caller = s.issuer
  · rw [if_pos (by simp [hb, hi])]
  · obtain ⟨i, hs⟩ := h.resolve_left hi
    rw [if_neg (by simp [hi]), if_pos (touchesWindow_of_accessInstr hs), hs]
    simp [hb]

/-- The block's turn at the head of the schedule (R41, R77). -/
theorem fetch_of_block {s : State} {rest : List Turn} (hf : s.faultMark = none) (ht : s.turns = .block :: rest) :
    fetch s = blockTurn (advance rest s) := by
  rw [fetch, hf, ht]

/-- The block's turn put before a schedule gives the block's move, with the schedule kept (R41, R77). -/
theorem fetch_of_block_first {s : State} (hf : s.faultMark = none) (hb : s.busy = true) :
    fetch { s with turns := .block :: s.turns } = blockMove s :=
  (fetch_of_block (s := { s with turns := .block :: s.turns }) hf rfl).trans (if_pos hb)

/-- With no turn listed the block ends a word that spells no present command (R137). -/
theorem fetch_of_busy_reject {s : State} {r : Reject} (hf : s.faultMark = none) (hb : s.busy = true)
    (hd : decodeCommandFor s.params s.opw = .reject r) (ht : s.turns = []) : fetch s = .moved (endIllegal s) := by
  simp [fetch, hf, ht, blockTurn, hb, blockMove, hd]

/-- A marked state has no step but its fault (R247). -/
theorem step_of_marked {s : State} {k : Fault} (h : s.faultMark = some k) : step s = .fault k := by
  rw [step, fetch, h]

end Sys2Proof.Machine

open Sys2Proof Sys2Proof.Machine in
/-- Settles O14: every check passes, and each form of command starts as `begin` says. -/
theorem commandAccepted : Obligations.CommandAccepted := by
  unfold Obligations.CommandAccepted
  intro s w i howner hd hr ho hk
  have hgo := exec_wrCmd_of_go howner hd
    (verdict_of_passes (isCommand_of_decodeCommandFor hd) (decodeCommandFor_ok.1 hd).2 hr ho hk)
  refine ⟨?_, ?_, ?_⟩
  · rintro ⟨t, r, rfl | rfl⟩ <;> exact hgo
  · rintro ⟨id, rfl⟩
    exact hgo
  · rintro (⟨b, rfl⟩ | ⟨c, m, x, rfl⟩ | ⟨c, rfl⟩ | ⟨t, rfl⟩ | rfl) <;> exact hgo

open Sys2Proof Sys2Proof.Machine Sys2Proof.Claims in
/-- Settles O16: the lock, the session row and the operands are checked in this order, and each check leaves its mark. -/
theorem misusedCommandWritePerformsNothing : Obligations.MisusedCommandWritePerformsNothing := by
  unfold Obligations.MisusedCommandWritePerformsNothing
  intro s w
  refine ⟨fun h => exec_wrCmd_of_not_owner h w, fun i howner hd hr => ?_⟩
  have hi := isCommand_of_decodeCommandFor hd
  have hp : i.present (latched s w).params = true := (decodeCommandFor_ok.1 hd).2
  exact ⟨fun ho => exec_wrCmd_of_fault howner hd (verdict_of_not_allowed hi hp hr ho),
    fun k ho hk => exec_wrCmd_of_fault howner hd (verdict_of_operandsRaise hi hp hr ho hk)⟩

open Sys2Proof.Machine in
/-- Settles O44: an access of no form of R92 spells no instruction, and its turn only raises. -/
theorem badAccessRaises : Obligations.BadAccessRaises := by
  unfold Obligations.BadAccessRaises
  refine ⟨fun p a => admittedForm_iff, fun s a rest hf ht hm hi hlo hhi hbad => ?_⟩
  have hw : touchesWindow s.params a = true := decide_eq_true ⟨hlo, hhi⟩
  have hn : accessInstr s.params a = none :=
    Option.eq_none_iff_forall_ne_some.2 fun i h => hbad (admittedForm_iff.2 ⟨i, h⟩)
  exact step_of_fetch_moved ((fetch_of_bus hf ht).trans (busTurn_of_bad_form hm hi hw hn rest))

open Sys2Proof.Machine in
/-- Settles O11: the three writes are under the lock check, which decides by OWNER alone. -/
theorem argWrites : Obligations.ArgWrites := by
  unfold Obligations.ArgWrites
  intro s v
  rw [exec_wrArg0, exec_wrArg1, exec_wrArg2]
  exact ⟨fun h => ⟨owned_of_owner h _, owned_of_owner h _, owned_of_owner h _⟩,
    fun h => ⟨owned_of_not_owner h _, owned_of_not_owner h _, owned_of_not_owner h _⟩⟩

open Sys2Proof.Machine in
/-- Settles O12: every one of them is the same completed write. -/
theorem ignoredWrites : Obligations.IgnoredWrites := by
  unfold Obligations.IgnoredWrites
  intro s v
  have ignored : ignoredWrite s = .next { s with replies := s.replies ++ [.written s.caller] } := rfl
  exact ⟨ignored, ignored, ignored, ignored, ignored, ignored, ignored, ignored, ignored, ignored, ignored⟩

open Sys2Proof Sys2Proof.Machine in
/-- Settles O13: every read answers its register, and STATUS the number of its two bits. -/
theorem readsAnswer : Obligations.ReadsAnswer := by
  unfold Obligations.ReadsAnswer
  intro s
  have answers (v : Word) : answered v s = .next { s with replies := s.replies ++ [.word s.caller v] } := rfl
  exact ⟨answers _, answers _, answers _, answers _, answers _, answers _, statusView_eq s ▸ answers _, answers _, rfl,
    answers _, answers _, answers _, answers _, answers _, answers _, answers _⟩

open Sys2Proof.Machine Sys2Proof.Claims in
/-- Settles O15: the word is latched either way; what spells no command ends by the block's own move, and a command out of
range by its dispatch. -/
theorem illegalWordEnds : Obligations.IllegalWordEnds := by
  unfold Obligations.IllegalWordEnds
  rintro s w howner hf hp ht (⟨r, hd⟩ | ⟨i, hd, hr⟩)
  · exact ⟨exec_wrCmd_of_reject howner hd, step_of_fetch_moved (fetch_of_busy_reject hf rfl hd ht)⟩
  · exact ⟨exec_wrCmd_of_illegal howner hd (verdict_of_outOfRange hr),
      (step_of_busy (s := latched s w) hf rfl hd ht).trans (exec_of_outOfRange hp hr)⟩

open Sys2Proof.Machine in
/-- Settles O18: dispatch checks the range first, and an illegal verdict ends the command. -/
theorem outOfRangeIsIllegal : Obligations.OutOfRangeIsIllegal := by
  unfold Obligations.OutOfRangeIsIllegal
  exact fun _ _ hp h => exec_of_outOfRange hp h

open Sys2Proof.Machine in
/-- Settles O40: an idle block holds nothing, and a context that is no caller has no turn. -/
theorem stepRunsAccess : Obligations.StepRunsAccess := by
  unfold Obligations.StepRunsAccess
  intro s a rest hf ht
  refine ⟨fun i hm hb h => step_of_accessInstr hf ht hm hb h, fun hm => ?_⟩
  rw [step, fetch_of_bus hf ht, busTurn_of_not_caller hm]

open Sys2Proof.Machine in
/-- Settles O43: the held access and the block's turn come to the same move of the block. -/
theorem busyHoldsAccesses : Obligations.BusyHoldsAccesses := by
  unfold Obligations.BusyHoldsAccesses
  intro s a rest hb ht hm h
  obtain hf | ⟨k, hf⟩ := s.faultMark.eq_none_or_eq_some
  · rw [step, step, fetch_of_bus hf ht, busTurn_of_held hb hm h, fetch_of_block_first hf hb]
  · rw [step_of_marked hf, step_of_marked (s := { s with turns := .block :: s.turns }) hf]

/-! ## Initialisation and setup (R150 to R157) -/

namespace Sys2Proof.Machine

open Sys2Proof.Claims

/-! ### The divisor (R155) -/

/-- The model's rounded quotient is the library's, which is adjoint to multiplication (R9, R155). -/
theorem divisor_le_iff {p : Params} {b : Word} (hb : 0 < b.toNat) {q : Nat} :
    divisor p b ≤ q ↔ p.sysclk ≤ q * b.toNat := by
  rw [divisor, ceilDiv, ← Nat.ceilDiv_eq_add_pred_div, ceilDiv_le_iff_le_mul hb, Nat.mul_comm]

/-- A running clock has a divisor of at least 1 (R155). -/
theorem divisor_pos {p : Params} {b : Word} (hb : 0 < b.toNat) (hc : 0 < p.sysclk) : 0 < divisor p b := by
  refine Nat.not_le.1 fun h => ?_
  have hzero : p.sysclk ≤ 0 * b.toNat := (divisor_le_iff hb).1 h
  omega

/-! ### What INIT writes (R150, R151) -/

/-- INIT reports a width of 16 exactly if 16 was requested (R150, R151). -/
theorem resultInit_mapWidth (b : BitVec 8) :
    resultInit (decide (mapWidth b = 16)) = if b = 16#8 then 0x00000100#32 else 0x00000000#32 := by
  by_cases h : b = 16#8 <;> simp [resultInit, mapWidth, h]

/-- The CTRL writes of the first INIT as a kept mask and a written one (R27, R151). -/
theorem ctrlInit_eq (c : Word) : ctrlInit c = (c &&& 0xFFFF0080#32) ||| 0x0000FF06#32 := by
  refine word_ext fun k => ?_
  simp only [ctrlInit, setPcs, BitVec.getLsbD_or, BitVec.getLsbD_and, getLsbD_setBit]
  fin_cases k <;> simp [Config.pcsNone]

/-- INIT has no check: it does its first-call work if INITED is clear, and ends (R151). -/
theorem exec_init (b : BitVec 8) (s : State) :
    exec (.init b) s = .next (finish (resultInit (decide (mapWidth b = 16))) (if s.inited then s else firstInit s)) := rfl

/-! ### What CONFIGURE writes (R156) -/

/-- The bits CONFIGURE writes, of the number that writes them out (R156). -/
theorem getLsbD_configureBits (x cpol ncpha : Bool) (k : Fin 32) :
    (BitVec.ofNat 32 (0x03 + 16 * x.toNat + 32 * cpol.toNat + 64 * ncpha.toNat)).getLsbD k =
      if k = 0 ∨ k = 1 then true else if k = 4 then x else if k = 5 then cpol else if k = 6 then ncpha else false := by
  revert x cpol ncpha k
  decide

/-- The CTRL writes of CONFIGURE as a kept mask and the number of the written bits (R27, R156). -/
theorem ctrlConfigure_eq (c : Word) (m : BitVec 2) (x : Bool) : ctrlConfigure c m x = (c &&& 0xFFFFFF8C#32) |||
    BitVec.ofNat 32 (0x03 + 16 * x.toNat + 32 * (m.getLsbD 1).toNat + 64 * (!m.getLsbD 0).toNat) := by
  refine word_ext fun k => ?_
  simp only [ctrlConfigure, BitVec.getLsbD_or, BitVec.getLsbD_and, getLsbD_setBit, getLsbD_configureBits]
  fin_cases k <;> simp

section
variable {s : State} {id : Csid}

/-- The range of CONFIGURE is that of its identifier (R136). -/
theorem not_outOfRange_configure (h : id.toNat < s.params.ncs) (m : BitVec 2) (x : Bool) :
    ¬ outOfRange (.configure id m x) s := by
  simpa [outOfRange, Instr.csidInRange] using h

variable {m : BitVec 2} {x : Bool} (hid : id.toNat < s.params.ncs) (ho : allowed (.configure id m x) s)
include hid ho

/-- An illegal divisor is marked, and nothing performed (R155, R156). -/
theorem exec_configure_of_divisorRaises (h : divisorRaises s) :
    exec (.configure id m x) s = .next (raise .misuseDivisor s) := by
  have hv : verdictConfigure id s = .fault .misuseDivisor :=
    verdict_of_operandsRaise (i := .configure id m x) rfl rfl (not_outOfRange_configure hid m x) ho ⟨rfl, h⟩
  rw [exec, execConfigure, hv, guarded_fault]

/-- With a legal divisor CONFIGURE does its writes and its two events in one step (R156). -/
theorem exec_configure_of_legal (h : ¬ divisorRaises s) : exec (.configure id m x) s = .next (finish resultOk { s with
    ctrl := ctrlConfigure s.ctrl m x
    div := BitVec.ofNat 32 (divisor s.params s.opa0)
    trace := s.trace ++
      [.resetTxrx, .apply (ctrlConfigure s.ctrl m x) (BitVec.ofNat 32 (divisor s.params s.opa0))]
    session := .configured
    cfgId := some id }) := by
  have hv : verdictConfigure id s = .go :=
    verdict_of_passes rfl rfl (not_outOfRange_configure hid m x) ho fun _ hk => h hk.2
  rw [exec, execConfigure, hv, guarded_go]
  simp [phyApply, record]

end

end Sys2Proof.Machine

open Sys2Proof.Machine in
/-- Settles O24: rounding up is adjoint to multiplication, and each part is one use of that. -/
theorem divisorRoundsUp : Obligations.DivisorRoundsUp := by
  unfold Obligations.DivisorRoundsUp
  intro p b hb hc
  have hpos : 1 ≤ divisor p b := divisor_pos hb hc
  refine ⟨(divisor_le_iff hb).1 le_rfl, fun q => (divisor_le_iff hb).2, hpos, ?_⟩
  calc divisor p b = 1 ↔ divisor p b ≤ 1 := ⟨le_of_eq, fun h => le_antisymm h hpos⟩
    _ ↔ p.sysclk ≤ 1 * b.toNat := divisor_le_iff hb
    _ ↔ p.sysclk ≤ b.toNat := by rw [Nat.one_mul]

open Sys2Proof.Machine in
/-- Settles O19: range and session pass, and the operand check raises. -/
theorem illegalDivisorRaises : Obligations.IllegalDivisorRaises := by
  unfold Obligations.IllegalDivisorRaises
  exact fun _ _ _ _ hid ho h => exec_configure_of_divisorRaises hid ho h

open Sys2Proof.Machine in
/-- Settles O22: the first-call work, then the width's end. -/
theorem firstInit : Obligations.FirstInit := by
  unfold Obligations.FirstInit
  intro s b h
  rw [exec_init, h, if_neg Bool.false_ne_true, firstInit_eq, ctrlInit_eq, resultInit_mapWidth]
  rfl

open Sys2Proof.Machine in
/-- Settles O23: with INITED set only the width's end is left. -/
theorem laterInit : Obligations.LaterInit := by
  unfold Obligations.LaterInit
  intro s b h
  rw [exec_init, h, if_pos rfl, resultInit_mapWidth]
  rfl

open Sys2Proof.Machine Sys2Proof.Claims in
/-- Settles O25: every check passes, and CTRL's writes are the stated word. -/
theorem configureApplies : Obligations.ConfigureApplies := by
  unfold Obligations.ConfigureApplies
  intro s id m x hid ho hz hd c d
  have hlegal : ¬ divisorRaises s := fun h => h.elim hz hd.not_gt
  rw [exec_configure_of_legal hid ho hlegal, ctrlConfigure_eq]
  rfl

/-! ## The chip select (R170 to R174, R190) -/

namespace Sys2Proof.Machine

open Sys2Proof.Claims

section
variable {s : State} {id : Csid}

/-! ### SELECT (R170, R252) -/

/-- In range and in an allowed session SELECT asserts the device's select and ends (R170). -/
theorem exec_select_of_allowed (hid : id.toNat < s.params.ncs) (ho : allowed (.select id) s) :
    exec (.select id) s =
      .next (finish resultOk { assertSelect id s with session := .selected, selId := some id }) := by
  have hv : verdictSelect id s = .go :=
    verdictOf_go.2 ⟨decide_eq_true hid, (Checks.select id s).session.2 ho, rfl⟩
  rw [exec, execSelect, hv, guarded_go]

/-- The pattern serves the direct identifiers of the decoder scheme (R170). -/
theorem usesPattern_iff {p : Params} : usesPattern p id = true ↔ p.csScheme = .decoder ∧ id.toNat < p.ndirect :=
  decide_eq_true_iff

/-- The line serves the direct scheme and the identifiers from NDIRECT on (R170). -/
theorem not_usesPattern_iff {p : Params} :
    ¬ usesPattern p id = true ↔ p.csScheme = .direct ∨ p.ndirect ≤ id.toNat := by
  rw [usesPattern_iff, not_and_or, Nat.not_lt]
  cases p.csScheme <;> simp

/-! ### DESELECT (R172, R190, R252) -/

/-- In range and in an allowed session DESELECT starts its drain wait (R172). -/
theorem exec_deselect_of_allowed (hp : s.phase = .idle) (hid : id.toNat < s.params.ncs)
    (ho : allowed (.deselect id) s) : exec (.deselect id) s = .next (beginDeselect s) := by
  have hv : verdictDeselect id s = .go :=
    verdictOf_go.2 ⟨decide_eq_true hid, (Checks.deselect id s).session.2 ho, rfl⟩
  simp only [exec, execDeselect, hp, hv, guarded_go]

theorem exec_deselect_of_pollDrain (hp : s.phase = .pollDrain) :
    exec (.deselect id) s = .next (pollDrainStep s) := by
  rw [exec, execDeselect, hp]

theorem exec_deselect_of_finishDeselect (hp : s.phase = .finishDeselect) :
    exec (.deselect id) s = .next (finishDeselect id s) := by
  rw [exec, execDeselect, hp]

end

/-- A poll's draw leaves the trace and the count that the poll then extends (R70, R190). -/
theorem pollEffect_eq_polled (c : Cond) (s : State) : pollEffect c s = polled c s := by
  simp [pollEffect, polled, record]

/-- A drain poll by its answer and its number (R172, R190). -/
theorem pollDrainStep_eq (s : State) : pollDrainStep s =
    if nextSample s then { polled .txEmpty s with drained := true, phase := .finishDeselect }
    else if s.p + 1 = s.params.tlimit then { polled .txEmpty s with drained := false, phase := .finishDeselect }
    else polled .txEmpty s := by
  rw [← pollEffect_eq_polled, pollDrainStep]
  obtain ⟨e, hb⟩ | ⟨e, hb, hp⟩ | ⟨e, hb, hp⟩ := pollResult_cases s
  · simp [e, hb]
  · simp [e, hb, hp]
  · simp [e, hb, hp]

/-- Deasserting the pattern sets the eight bits of CTRL.PCS (R27, R28, R172). -/
theorem setPcs_pcsNone (c : Word) : setPcs c Config.pcsNone = c ||| 0x0000FF00#32 := by
  refine word_ext fun k => ?_
  simp only [setPcs, BitVec.getLsbD_or, BitVec.getLsbD_and]
  fin_cases k <;> simp [Config.pcsNone]

/-- On the decoder scheme FINISH_DESELECT records LASTXFER, clears the pattern and applies it (R172). -/
theorem releasePattern_of_decoder {s : State} (h : s.params.csScheme = .decoder) :
    releasePattern s = { s with
      ctrl := s.ctrl ||| 0x0000FF00#32
      trace := s.trace ++ [.lastXfer, .apply (s.ctrl ||| 0x0000FF00#32) s.div] } := by
  simp [releasePattern, h, setPcs_pcsNone, phyApply, record]

/-- On the direct scheme there is no pattern to deassert (R172). -/
theorem releasePattern_of_direct {s : State} (h : s.params.csScheme = .direct) : releasePattern s = s := by
  simp [releasePattern, h]

end Sys2Proof.Machine

open Sys2Proof.Machine in
/-- Settles O27: the checks pass, and the pattern serves the identifier. -/
theorem selectByPattern : Obligations.SelectByPattern := by
  unfold Obligations.SelectByPattern
  intro s id hid ho hscheme hdirect c
  rw [exec_select_of_allowed hid ho, assertSelect, if_pos (usesPattern_iff.2 ⟨hscheme, hdirect⟩)]
  rfl

open Sys2Proof.Machine in
/-- Settles O28: the checks pass, and the identifier's line serves it. -/
theorem selectByLine : Obligations.SelectByLine := by
  unfold Obligations.SelectByLine
  intro s id hid ho hline
  rw [exec_select_of_allowed hid ho, assertSelect, if_neg (not_usesPattern_iff.2 hline)]
  rfl

open Sys2Proof.Machine in
/-- Settles O29: the start, then a drain poll by its three ends. -/
theorem deselectDrains : Obligations.DeselectDrains := by
  unfold Obligations.DeselectDrains
  intro s id
  refine ⟨exec_deselect_of_allowed, fun hp hb => ?ready, fun hp hb hl => ?exhausted, fun hp hb hl => ?again⟩
  all_goals rw [exec_deselect_of_pollDrain hp, pollDrainStep_eq]
  case ready => rw [if_pos hb]
  case exhausted => rw [hb, if_neg Bool.false_ne_true, if_pos hl]
  case again => rw [hb, if_neg Bool.false_ne_true, if_neg hl]

open Sys2Proof.Machine in
/-- Settles O30: what is deasserted before the line depends on the scheme, and the end on the drain's outcome. -/
theorem deselectDeasserts : Obligations.DeselectDeasserts := by
  unfold Obligations.DeselectDeasserts
  intro s id hp c r t
  rw [exec_deselect_of_finishDeselect hp, finishDeselect]
  constructor
  · intro hscheme
    have htrace : s.trace ++ [.lastXfer, .apply c s.div, .cs id.toNat true] =
        (s.trace ++ [.lastXfer, .apply c s.div]) ++ [.cs id.toNat true] := by simp
    rw [releasePattern_of_decoder hscheme, htrace]
    rfl
  · intro hscheme
    rw [releasePattern_of_direct hscheme]
    rfl

/-! ## Transfers: dispatch and micro-steps (R190 to R195) -/

namespace Sys2Proof.Machine

open Sys2Proof.Claims

/-- The model's address of the unit at the index is the rules' (R195). -/
theorem unitAddr_eq_addrOf (wide : Bool) (buffer i : Word) : unitAddr wide buffer i = addrOf wide buffer i.toNat := by
  cases wide <;> simp [unitAddr, addrOf, unitSize]

/-! ### Dispatch from IDLE (R193, R252) -/

section
variable {s : State} {wide txv rxv : Bool}

/-- In session SELECTED a present transfer is decided by its operand checks alone (R193, R252). -/
theorem exec_xfer_of_selected (hp : s.phase = .idle) (hs : s.session = .selected)
    (hw : wide = true → s.params.word16 = true) :
    exec (xferInstr wide txv rxv) s =
      guarded (verdictOf true true (xferFault wide txv rxv s)) s fun s => .next (beginXfer s) := by
  have hpresent : (!wide || s.params.word16) = true := by
    cases wide with
    | false => rfl
    | true => exact hw rfl
  rw [exec_xferInstr, xferStep, hp]
  simp only [verdictXfer, hpresent, hs, decide_true]

/-- An operand check that fails is marked, and nothing performed (R193, R247). -/
theorem exec_xfer_of_transferRaises (hp : s.phase = .idle) (hs : s.session = .selected)
    (hw : wide = true → s.params.word16 = true) {k : Fault} (h : transferRaises wide txv rxv k s) :
    exec (xferInstr wide txv rxv) s = .next (raise k s) := by
  rw [exec_xfer_of_selected hp hs hw, xferFault_eq_some_iff.2 h]
  rfl

/-- With every operand check passed the transfer starts (R195). -/
theorem exec_xfer_of_legal (hp : s.phase = .idle) (hs : s.session = .selected)
    (hw : wide = true → s.params.word16 = true) (h : ∀ k, ¬ transferRaises wide txv rxv k s) :
    exec (xferInstr wide txv rxv) s = .next (beginXfer s) := by
  have hnone : xferFault wide txv rxv s = none :=
    Option.eq_none_iff_forall_ne_some.2 fun k e => h k (xferFault_eq_some_iff.1 e)
  rw [exec_xfer_of_selected hp hs hw, hnone]
  rfl

/-! ### The micro-step that PHASE names (R195) -/

theorem exec_xfer_of_pollTx (hp : s.phase = .pollTx) : exec (xferInstr wide txv rxv) s = .next (xferPollTx s) := by
  rw [exec_xferInstr, xferStep, hp]

/-- With no unit left the loop head ends the command (R195; log 13). -/
theorem xferPollTx_of_done (h : s.opa2.toNat ≤ s.i.toNat) : xferPollTx s = finish resultOk s :=
  if_neg (Nat.not_lt.2 h)

theorem exec_xfer_of_emit (hp : s.phase = .emit) : exec (xferInstr wide txv rxv) s = .next (xferEmit wide txv s) := by
  rw [exec_xferInstr, xferStep, hp]

theorem exec_xfer_of_pollRx (hp : s.phase = .pollRx) : exec (xferInstr wide txv rxv) s = .next (xferPollRx s) := by
  rw [exec_xferInstr, xferStep, hp]

theorem exec_xfer_of_recv (hp : s.phase = .recv) : exec (xferInstr wide txv rxv) s = .next (xferRecv wide rxv s) := by
  rw [exec_xferInstr, xferStep, hp]

end

/-! ### A poll by its answer and its number (R190) -/

section
variable {s : State}

theorem pollResult_of_ready (h : nextSample s = true) : pollResult s = .ready := if_pos h

theorem pollResult_of_exhausted (h : nextSample s = false) (hp : s.p + 1 = s.params.tlimit) : pollResult s = .exhausted := by
  rw [pollResult, h, if_neg Bool.false_ne_true, if_pos hp]

theorem pollResult_of_again (h : nextSample s = false) (hp : s.p + 1 ≠ s.params.tlimit) : pollResult s = .again := by
  rw [pollResult, h, if_neg Bool.false_ne_true, if_neg hp]

/-- A transfer's timeout ends the command in session ERROR (R195). -/
theorem xferTimeout_eq_ended (tphase : BitVec 2) (s : State) :
    xferTimeout tphase s = ended { s with session := .error } (resultTimeout tphase) := rfl

theorem resultTimeout_transmit : resultTimeout 1#2 = 0x00000011#32 := by decide

theorem resultTimeout_receive : resultTimeout 2#2 = 0x00000021#32 := by decide

end

end Sys2Proof.Machine

open Sys2Proof.Machine in
/-- Settles O20: the width is checked first, then each given buffer, and each check leaves its mark. -/
theorem transferOperandsRaise : Obligations.TransferOperandsRaise := by
  unfold Obligations.TransferOperandsRaise
  exact fun s wide txv rxv hp hs hw =>
    ⟨fun hwidth => exec_xfer_of_transferRaises hp hs hw (.inl ⟨rfl, hwidth⟩),
      fun hwidth hn hbuf => exec_xfer_of_transferRaises hp hs hw (.inr ⟨rfl, hwidth, hn, hbuf⟩)⟩

open Sys2Proof.Machine in
/-- Settles O31: under these conditions no operand check raises. -/
theorem transferStarts : Obligations.TransferStarts := by
  unfold Obligations.TransferStarts
  intro s wide txv rxv hp hs hw hwidth hfits
  refine exec_xfer_of_legal hp hs hw fun k hk => ?_
  obtain ⟨-, hne⟩ | ⟨-, -, hn, hbuf⟩ := hk
  · exact hne hwidth
  · obtain ⟨htx, hrx⟩ := hfits.resolve_left hn
    obtain ⟨ht, hbad⟩ | ⟨hr, hbad⟩ := hbuf
    · exact hbad (htx ht)
    · exact hbad (hrx hr)

open Sys2Proof.Machine in
/-- Settles O32: the three ends of a poll. -/
theorem transmitWait : Obligations.TransmitWait := by
  unfold Obligations.TransmitWait
  intro s wide txv rxv hp hi
  rw [exec_xfer_of_pollTx hp, xferPollTx, if_pos hi, ← pollEffect_eq_polled]
  refine ⟨fun hb => ?ready, fun hb hl => ?exhausted, fun hb hl => ?again⟩
  case ready => rw [pollResult_of_ready hb]
  case exhausted => simp only [pollResult_of_exhausted hb hl, xferTimeout_eq_ended, resultTimeout_transmit]
  case again => rw [pollResult_of_again hb hl]

open Sys2Proof.Machine in
/-- Settles O33: at the loop head no unit is left. -/
theorem transferEnds : Obligations.TransferEnds := by
  unfold Obligations.TransferEnds
  intro s wide txv rxv hp hi
  rw [exec_xfer_of_pollTx hp, xferPollTx_of_done hi]
  rfl

open Sys2Proof.Machine in
/-- Settles O34: the unit from memory, the refused read, and the filler. -/
theorem emitUnit : Obligations.EmitUnit := by
  unfold Obligations.EmitUnit
  intro s wide txv rxv hp a v last
  rw [exec_xfer_of_emit hp, xferEmit, unitAddr_eq_addrOf]
  refine ⟨?given, ?refused, ?filler⟩
  case given =>
    rintro rfl ha
    rw [if_pos rfl, if_pos ha]
    rfl
  case refused =>
    rintro rfl ha
    rw [if_pos rfl, if_neg (Bool.eq_false_iff.1 ha)]
    rfl
  case filler =>
    rintro rfl
    rw [if_neg Bool.false_ne_true]
    rfl

open Sys2Proof.Machine in
/-- Settles O35: the three ends of a poll. -/
theorem receiveWait : Obligations.ReceiveWait := by
  unfold Obligations.ReceiveWait
  intro s wide txv rxv hp
  rw [exec_xfer_of_pollRx hp, xferPollRx, ← pollEffect_eq_polled]
  refine ⟨fun hb => ?ready, fun hb hl => ?exhausted, fun hb hl => ?again⟩
  case ready => rw [pollResult_of_ready hb]
  case exhausted => simp only [pollResult_of_exhausted hb hl, xferTimeout_eq_ended, resultTimeout_receive]
  case again => rw [pollResult_of_again hb hl]

open Sys2Proof.Machine in
/-- Settles O36: the unit is read, then stored, refused or discarded. -/
theorem receiveUnit : Obligations.ReceiveUnit := by
  unfold Obligations.ReceiveUnit
  intro s wide txv rxv hp hwf a v t u
  have hread : phyRead wide s = t := by simp [phyRead, record, t, v]
  have hcount : nextUnitIndex t = u := by simp [nextUnitIndex, u, t]
  rw [exec_xfer_of_recv hp, xferRecv_eq, unitAddr_eq_addrOf, hread]
  refine ⟨?stored, ?refused, ?discarded⟩
  case stored =>
    rintro rfl ha
    rw [if_pos rfl, if_pos ha]
    refine ⟨writeUnit s.mem a v, ?_, readUnit_writeUnit hwf a wide _, fun x hx => ?_⟩
    · rw [← hcount]
      rfl
    · exact writeUnit_other s.mem a v (by rwa [cutUnit_bytes])
  case refused =>
    rintro rfl ha
    rw [if_pos rfl, if_neg (Bool.eq_false_iff.1 ha)]
    rfl
  case discarded =>
    rintro rfl
    rw [if_neg Bool.false_ne_true, hcount]

/-! ## A transmit-ready timeout (R190) -/

namespace Sys2Proof.Machine

open Sys2Proof.Claims

/-- A transmit-ready wait after `k` more polls that all answered 0 (R190). -/
def afterFailedPolls (s : State) (k : Nat) : State :=
  { s with p := s.p + k, samples := s.samples.drop k, trace := s.trace ++ List.replicate k (.poll .txRdy false) }

theorem afterFailedPolls_zero (s : State) : afterFailedPolls s 0 = s := by
  simp [afterFailedPolls]

section
variable {s : State} {n k : Nat} {rest : List Bool}

/-- The answers left after `k` of `n` listed failures. -/
theorem samples_afterFailedPolls (h : s.samples = List.replicate n false ++ rest) (hk : k < n) :
    (afterFailedPolls s k).samples = false :: (s.samples.drop (k + 1)) := by
  have hlen : k < s.samples.length := by simp [h]; omega
  have hfirst : s.samples[k] = false := by simp [h, hk]
  rw [← hfirst]
  exact List.drop_eq_getElem_cons hlen

/-- The next poll answers 0 (R70). -/
theorem nextSample_afterFailedPolls (h : s.samples = List.replicate n false ++ rest) (hk : k < n) :
    nextSample (afterFailedPolls s k) = false :=
  (sample_of_listed (samples_afterFailedPolls h hk)).1

/-- One more failed poll (R70, R190). -/
theorem polled_afterFailedPolls (h : s.samples = List.replicate n false ++ rest) (hk : k < n) :
    polled .txRdy (afterFailedPolls s k) = afterFailedPolls s (k + 1) := by
  obtain ⟨hb, hdrop⟩ := sample_of_listed (samples_afterFailedPolls h hk)
  rw [polled, hb, hdrop]
  simp [afterFailedPolls, Nat.add_assoc, List.replicate_succ']

/-- A transfer at the first poll of the transmit-ready wait of a unit, with no other agent moving (R190, R195). -/
structure TransmitWaiting (wide txv rxv : Bool) (s : State) : Prop where
  unmarked : s.faultMark = none
  turns : s.turns = []
  busy : s.busy = true
  word : decodeCommandFor s.params s.opw = .ok (xferInstr wide txv rxv)
  phase : s.phase = .pollTx
  wait : s.p = 0
  left : s.i.toNat < s.opa2.toNat

variable {wide txv rxv : Bool}

/-- With no other agent moving, the step after failed polls is the transfer's own (R132). -/
theorem TransmitWaiting.step_eq (h : TransmitWaiting wide txv rxv s) (k : Nat) :
    step (afterFailedPolls s k) = exec (xferInstr wide txv rxv) (afterFailedPolls s k) :=
  step_of_busy (s := afterFailedPolls s k) h.unmarked h.busy h.word h.turns

/-- The number of the poll after `k` failed ones. -/
theorem TransmitWaiting.poll_number (h : TransmitWaiting wide txv rxv s) (k : Nat) :
    (afterFailedPolls s k).p + 1 = k + 1 := by
  simp [afterFailedPolls, h.wait]

variable (h : TransmitWaiting wide txv rxv s) (hs : s.samples = List.replicate s.params.tlimit false ++ rest)
include h hs

/-- Before poll TLIMIT a failed poll leaves the wait going on (R190). -/
theorem TransmitWaiting.step_again (hk : k + 1 < s.params.tlimit) :
    step (afterFailedPolls s k) = .next (afterFailedPolls s (k + 1)) := by
  obtain ⟨-, -, again⟩ := transmitWait (afterFailedPolls s k) wide txv rxv h.phase h.left
  have hlimit : (afterFailedPolls s k).p + 1 ≠ s.params.tlimit := by rw [h.poll_number]; exact hk.ne
  rw [h.step_eq, again (nextSample_afterFailedPolls hs (by omega)) hlimit, polled_afterFailedPolls hs (by omega)]

/-- Failed poll TLIMIT ends the transfer (R190, R195). -/
theorem TransmitWaiting.step_exhausted (hk : k + 1 = s.params.tlimit) : step (afterFailedPolls s k) =
    .next (ended { afterFailedPolls s (k + 1) with session := .error } 0x00000011#32) := by
  obtain ⟨-, exhausted, -⟩ := transmitWait (afterFailedPolls s k) wide txv rxv h.phase h.left
  have hlimit : (afterFailedPolls s k).p + 1 = s.params.tlimit := by rw [h.poll_number, hk]
  rw [h.step_eq, exhausted (nextSample_afterFailedPolls hs (by omega)) hlimit, polled_afterFailedPolls hs (by omega)]

/-- Fewer than TLIMIT failed polls do not end the wait (R190). -/
theorem TransmitWaiting.run_again (hk : k < s.params.tlimit) : core.run k s = .next (afterFailedPolls s k) := by
  induction k with
  | zero => rw [afterFailedPolls_zero]; rfl
  | succ k ih =>
    rw [run_add (ih (by omega)), run_succ (h.step_again hs hk)]
    rfl

/-- TLIMIT failed polls end the transfer (R190, R195; log 14). -/
theorem TransmitWaiting.run_exhausted (hl : 1 ≤ s.params.tlimit) : core.run s.params.tlimit s =
    .next (ended { afterFailedPolls s s.params.tlimit with session := .error } 0x00000011#32) := by
  obtain ⟨k, hk⟩ := Nat.exists_eq_add_one.2 hl
  rw [hk, run_add (h.run_again hs (by omega)), run_succ (h.step_exhausted hs hk.symm)]
  rfl

end

end Sys2Proof.Machine

open Sys2Proof.Machine Sys2Proof.Claims in
/-- Settles O59, by induction on the failed polls: the wait goes on after each but the last. -/
theorem transmitTimeoutIsExact : Obligations.TransmitTimeoutIsExact := by
  unfold Obligations.TransmitTimeoutIsExact
  intro s wide txv rxv rest hc ht hb hd hp hw hi hl hs
  have hmarks := claimable_iff.1 hc
  have h : TransmitWaiting wide txv rxv s := ⟨hmarks.1, ht, hb, hd, hp, hw, hi⟩
  exact ⟨fun k hk => ⟨_, h.run_again hs hk, hb⟩, _, h.run_exhausted hs hl, final_iff.2 ⟨rfl, hmarks⟩,
    rfl, rfl, rfl, rfl, rfl, rfl, rfl, rfl⟩

/-! ## The history of a transfer (R195 to R199) -/

namespace Sys2Proof.Machine

open Sys2Proof.Claims

/-! ### The units of a trace -/

/-- The units sent, in order (R68). -/
def txUnits : List Event → List TUnit
  | [] => []
  | .tx v _ :: rest => v :: txUnits rest
  | _ :: rest => txUnits rest

@[simp] theorem txUnits_append (es fs : List Event) : txUnits (es ++ fs) = txUnits es ++ txUnits fs := by
  induction es with
  | nil => rfl
  | cons e es ih => cases e <;> simp [txUnits, ih]

@[simp] theorem txMarks_append (es fs : List Event) : txMarks (es ++ fs) = txMarks es ++ txMarks fs := by
  induction es with
  | nil => rfl
  | cons e es ih => cases e <;> simp [txMarks, ih]

@[simp] theorem rxUnits_append (es fs : List Event) : rxUnits (es ++ fs) = rxUnits es ++ rxUnits fs := by
  induction es with
  | nil => rfl
  | cons e es ih => cases e <;> simp [rxUnits, ih]

/-- Every unit is sent with a marker (R68). -/
theorem length_txUnits (es : List Event) : (txUnits es).length = (txMarks es).length := by
  induction es with
  | nil => rfl
  | cons e es ih => cases e <;> simp [txUnits, txMarks, ih]

theorem mem_txUnits_of_tx {v : TUnit} {last : Bool} {es : List Event} (h : Event.tx v last ∈ es) : v ∈ txUnits es := by
  obtain ⟨before, after, rfl⟩ := List.append_of_mem h
  simp [txUnits]

/-- LOOPBACK of a trace is LOOPBACK of its first events (R76). -/
theorem loopbackFrom_of_append {last : Option TUnit} {es fs : List Event} (h : loopbackFrom last (es ++ fs) = true) :
    loopbackFrom last es = true := by
  induction es generalizing last with
  | nil => rfl
  | cons e es ih =>
    cases e with
    | rx v =>
      simp only [List.cons_append, loopbackFrom, Bool.and_eq_true] at h ⊢
      exact ⟨h.1, ih h.2⟩
    | _ => exact ih h

/-- LOOPBACK makes a received unit the last one sent (R76). -/
theorem last_of_loopbackFrom {last : Option TUnit} {es : List Event} {v : TUnit}
    (h : loopbackFrom last (es ++ [.rx v]) = true) : (txUnits es).getLast?.or last = some v := by
  induction es generalizing last with
  | nil => simpa [txUnits, loopbackFrom] using h
  | cons e es ih =>
    cases e with
    | tx u m => simpa [txUnits, List.getLast?_cons, Option.or_some] using ih h
    | rx u =>
      simp only [List.cons_append, loopbackFrom, Bool.and_eq_true] at h
      exact ih h.2
    | _ => exact ih h

theorem loopback_of_append {es fs : List Event} (h : loopback (es ++ fs) = true) : loopback es = true :=
  loopbackFrom_of_append h

theorem getLast?_txUnits_of_loopback {es : List Event} {v : TUnit} (h : loopback (es ++ [.rx v]) = true) :
    (txUnits es).getLast? = some v := by
  simpa using last_of_loopbackFrom h

/-! ### What a transfer leaves alone -/

/-- The command, the settings and the schedule, which no micro-step of a started transfer changes (R195). -/
structure SameCommand (s t : State) : Prop where
  params : t.params = s.params
  opw : t.opw = s.opw
  opa0 : t.opa0 = s.opa0
  opa1 : t.opa1 = s.opa1
  opa2 : t.opa2 = s.opa2
  refusedMark : t.refusedMark = s.refusedMark
  turns : t.turns = s.turns
  ctrl : t.ctrl = s.ctrl
  div : t.div = s.div
  cslines : t.cslines = s.cslines

theorem SameCommand.refl (s : State) : SameCommand s s := by constructor <;> rfl

theorem SameCommand.trans {s t u : State} (h : SameCommand s t) (h' : SameCommand t u) : SameCommand s u where
  params := h'.params.trans h.params
  opw := h'.opw.trans h.opw
  opa0 := h'.opa0.trans h.opa0
  opa1 := h'.opa1.trans h.opa1
  opa2 := h'.opa2.trans h.opa2
  refusedMark := h'.refusedMark.trans h.refusedMark
  turns := h'.turns.trans h.turns
  ctrl := h'.ctrl.trans h.ctrl
  div := h'.div.trans h.div
  cslines := h'.cslines.trans h.cslines

theorem XferMove.sameCommand {wide txv rxv : Bool} {s t : State} (h : XferMove wide txv rxv s t) : SameCommand s t := by
  cases h <;> constructor <;> simp [xferTimeout]

/-- Memory, the counts and the units to come, which a poll leaves alone (R190). -/
structure SameUnits (s t : State) : Prop where
  mem : t.mem = s.mem
  i : t.i = s.i
  done : t.done = s.done
  units : t.units = s.units

/-! ### The history -/

/-- The unit that a transfer started in `s` sends at index `j`, if its buffer still holds it (R191, R195). -/
def sourceUnit (wide txv : Bool) (s : State) (j : Nat) : TUnit :=
  if txv then readUnit wide s.mem (addrOf wide s.opa0 j) else filler wide

@[simp] theorem sourceUnit_given (wide : Bool) (s : State) (j : Nat) :
    sourceUnit wide true s j = readUnit wide s.mem (addrOf wide s.opa0 j) := if_pos rfl

@[simp] theorem sourceUnit_filler (wide : Bool) (s : State) (j : Nat) : sourceUnit wide false s j = filler wide :=
  if_neg Bool.false_ne_true

/-- No received unit is stored into the transmit buffer (R199, R200). -/
def SourceKept (wide txv rxv : Bool) (s : State) : Prop :=
  txv = true → rxv = true →
    addrOf wide s.opa0 s.opa2.toNat ≤ s.opa1.toNat ∨ addrOf wide s.opa1 s.opa2.toNat ≤ s.opa0.toNat

/-- What a transfer started in `s` has done in `t`: its events `es`, with `k` units sent, and memory (R195). -/
structure History (wide txv rxv : Bool) (s t : State) (es : List Event) (k : Nat) : Prop where
  command : SameCommand s t
  trace : t.trace = s.trace ++ es
  mem : Memory.wf t.mem = true
  count : t.done = t.i
  /-- Exactly the final unit carries the marker (R197). -/
  marks : txMarks es = (List.range k).map fun j => decide (j + 1 = s.opa2.toNat)
  sent : SourceKept wide txv rxv s → txUnits es = (List.range k).map (sourceUnit wide txv s)
  /-- The draws listed first are the units received, and the draws listed after them are to come (R69). -/
  drawn : ∀ us rest, s.units = us ++ rest → us.length = (rxUnits es).length →
    rxUnits es = us.map (cutUnit wide) ∧ t.units = rest
  stored : rxv = true → ∀ j < t.i.toNat, (rxUnits es)[j]? = some (readUnit wide t.mem (addrOf wide s.opa1 j))
  frame : ∀ x, (rxv = false ∨ x < s.opa1.toNat ∨ addrOf wide s.opa1 t.i.toNat ≤ x) →
    Memory.read t.mem x = Memory.read s.mem x
  /-- LOOPBACK gives back what was sent (R76). -/
  looped : loopback es = true → rxUnits es <+: txUnits es

theorem history_of_started {wide txv rxv : Bool} {s : State} (h : Started wide txv rxv s) :
    History wide txv rxv s s [] 0 where
  command := .refl s
  trace := (List.append_nil _).symm
  mem := h.mem
  count := h.count.trans h.index.symm
  marks := rfl
  sent _ := rfl
  drawn us rest hs hlen := by
    obtain rfl := List.length_eq_zero_iff.1 hlen
    exact ⟨rfl, hs⟩
  stored _ j hj := by simp [h.index] at hj
  frame _ _ := rfl
  looped _ := List.nil_prefix

section
variable {wide txv rxv : Bool} {s t u : State} {es : List Event} {k : Nat}

/-- A micro-step that sends and receives nothing leaves the history, whatever polls it records. -/
theorem History.quiet (h : History wide txv rxv s t es k) (hc : SameCommand t u) (hu : SameUnits t u) {ps : List Event}
    (ht : u.trace = t.trace ++ ps) (htx : txMarks ps = []) (hrx : rxUnits ps = []) :
    History wide txv rxv s u (es ++ ps) k := by
  obtain ⟨hm, hi, hd, hunits⟩ := hu
  have htu : txUnits ps = [] := List.length_eq_zero_iff.1 (by rw [length_txUnits, htx]; rfl)
  exact {
    command := h.command.trans hc
    trace := by rw [ht, h.trace, List.append_assoc]
    mem := by rw [hm]; exact h.mem
    count := by rw [hd, hi]; exact h.count
    marks := by simpa [htx] using h.marks
    sent := by simpa [htu] using h.sent
    drawn := by simpa [hrx, hunits] using h.drawn
    stored := by simpa [hrx, hm, hi] using h.stored
    frame := by simpa [hm, hi] using h.frame
    looped := fun hl => by simpa [hrx, htu] using h.looped (loopback_of_append hl) }

/-- Later units of a buffer lie at higher addresses (R195). -/
theorem addrOf_mono {a : Word} {i j : Nat} (h : i ≤ j) : addrOf wide a i ≤ addrOf wide a j := by
  cases wide <;> simp [addrOf] <;> omega

theorem addrOf_succ (wide : Bool) (a : Word) (i : Nat) : addrOf wide a (i + 1) = addrOf wide a i + unitSize wide := by
  cases wide <;> simp [addrOf, unitSize] <;> omega

theorem le_addrOf (wide : Bool) (a : Word) (i : Nat) : a.toNat ≤ addrOf wide a i := Nat.le_add_right _ _

/-- Two memories that read alike hold the same units (R62). -/
theorem readUnit_congr {m m' : List Host.Cell} {a : Nat}
    (h : ∀ x, a ≤ x → x < a + unitSize wide → Memory.read m x = Memory.read m' x) :
    readUnit wide m a = readUnit wide m' a := by
  cases wide with
  | false => simp [readUnit, h a le_rfl (by simp [unitSize])]
  | true =>
    simp [readUnit, Memory.read2, h a le_rfl (by simp [unitSize]), h (a + 1) (by omega) (by simp [unitSize])]

/-- The transmit buffer still holds the unit at the index (R199). -/
theorem History.readUnit_source (h : History wide true rxv s t es k) (hi : t.i.toNat < s.opa2.toNat)
    (hk : SourceKept wide true rxv s) :
    readUnit wide t.mem (addrOf wide s.opa0 t.i.toNat) = readUnit wide s.mem (addrOf wide s.opa0 t.i.toNat) := by
  refine readUnit_congr fun x hlo hhi => h.frame x ?_
  cases rxv with
  | false => exact .inl rfl
  | true =>
    have hend : x < addrOf wide s.opa0 s.opa2.toNat := by
      have := addrOf_mono (wide := wide) (a := s.opa0) (Nat.succ_le_of_lt hi)
      rw [Nat.succ_eq_add_one, addrOf_succ] at this
      omega
    have hrx := addrOf_mono (wide := wide) (a := s.opa1) hi.le
    have hstart := le_addrOf wide s.opa0 t.i.toNat
    obtain hbelow | habove := hk rfl rfl <;> omega

/-- EMIT adds the sent unit (R195, R197). -/
theorem History.emitUnit (h : History wide txv rxv s t es k) (hk : k = t.i.toNat) {v : TUnit}
    (hv : SourceKept wide txv rxv s → v = sourceUnit wide txv s k) :
    History wide txv rxv s (emitUnit v t) (es ++ [.tx v (decide (t.i.toNat + 1 = t.opa2.toNat))]) (k + 1) where
  command := h.command.trans (by constructor <;> rfl)
  trace := by simp [Machine.emitUnit, h.trace]
  mem := h.mem
  count := h.count
  marks := by simp [List.range_succ, h.marks, txMarks, hk, h.command.opa2]
  sent hs := by simp [List.range_succ, h.sent hs, txUnits, hv hs]
  drawn := by simpa [rxUnits] using h.drawn
  stored := by simpa [rxUnits] using h.stored
  frame := h.frame
  looped hl := by
    simpa [rxUnits, txUnits] using (h.looped (loopback_of_append hl)).trans (List.prefix_append _ _)

/-- RECV adds the received unit before it is stored or discarded (R69, R195). -/
theorem History.phyRead (h : History wide txv rxv s t es k) (hr : (rxUnits es).length = t.i.toNat)
    (hk : k = t.i.toNat + 1) :
    History wide txv rxv s (phyRead wide t) (es ++ [.rx (cutUnit wide (nextUnit t))]) k where
  command := h.command.trans (by constructor <;> simp)
  trace := by simp [h.trace]
  mem := by simpa using h.mem
  count := by simpa using h.count
  marks := by simpa [txMarks] using h.marks
  sent := by simpa [txUnits] using h.sent
  drawn us rest hs hlen := by
    obtain rfl | ⟨us, v, rfl⟩ := us.eq_nil_or_concat'
    · simp [rxUnits] at hlen
    · obtain ⟨hrx, hunits⟩ := h.drawn us (v :: rest) (by simpa using hs) (by simpa [rxUnits] using hlen)
      simp [rxUnits, hrx, hunits, (unit_of_listed hunits).1]
  stored hrx j hj := by
    rw [phyRead_i] at hj
    rw [rxUnits_append, List.getElem?_append_left (by omega), phyRead_mem]
    exact h.stored hrx j hj
  frame := by simpa using h.frame
  looped hl := by
    have hlast := getLast?_txUnits_of_loopback hl
    obtain ⟨later, hsent⟩ := h.looped (loopback_of_append hl)
    have hlen : later.length = 1 := by
      have hcount : (txUnits es).length = k := by rw [length_txUnits, h.marks]; simp
      have := congrArg List.length hsent
      rw [List.length_append] at this
      omega
    obtain ⟨v, rfl⟩ := List.length_eq_one_iff.1 hlen
    rw [← hsent] at hlast
    have hv : v = cutUnit wide (nextUnit t) := by simpa using hlast
    simp [txUnits, rxUnits, ← hsent, hv]

/-- A refused store leaves the history with the unit read (R247; log 15). -/
theorem History.raise (h : History wide txv rxv s t es k) (f : Fault) : History wide txv rxv s (raise f t) es k :=
  { h with command := h.command.trans (by constructor <;> rfl) }

/-- A received unit that is discarded is counted (R195). -/
theorem History.nextUnitIndex (h : History wide txv false s t es k) : History wide txv false s (nextUnitIndex t) es k :=
  { h with
    command := h.command.trans (by constructor <;> rfl)
    count := rfl
    stored := nofun
    frame := fun x _ => h.frame x (.inl rfl) }

/-- Counting a unit adds 1, with no wrap below the length (R9, R195). -/
theorem toNat_add_one_of_lt {i n : Word} (h : i.toNat < n.toNat) : (i + 1#32).toNat = i.toNat + 1 := by
  bv_omega

/-- A received unit that is stored is in the buffer, next to those before it, and is counted (R195). -/
theorem History.nextUnitIndex_writeUnit (h : History wide txv true s t es k) (hi : t.i.toNat < s.opa2.toNat) {w : BitVec 16}
    (hw : (rxUnits es)[t.i.toNat]? = some (cutUnit wide w)) :
    History wide txv true s
      (Machine.nextUnitIndex (putMem (writeUnit t.mem (addrOf wide s.opa1 t.i.toNat) (cutUnit wide w)) t)) es k :=
  { h with
    command := h.command.trans (by constructor <;> rfl)
    count := rfl
    mem := writeUnit_wf h.mem _ _
    stored := fun hr j hj => by
      rw [nextUnitIndex_i, putMem_i, toNat_add_one_of_lt hi] at hj
      rw [nextUnitIndex_mem, putMem_mem]
      obtain rfl | hlt := Nat.eq_or_lt_of_le (Nat.le_of_lt_succ hj)
      · rw [readUnit_writeUnit h.mem, hw]
      · rw [h.stored hr j hlt]
        refine congrArg some (readUnit_congr fun x _ hx => ?_)
        have := addrOf_mono (wide := wide) (a := s.opa1) (Nat.succ_le_of_lt hlt)
        rw [Nat.succ_eq_add_one, addrOf_succ] at this
        exact (writeUnit_other _ _ _ (.inl (by omega))).symm
    frame := fun x hx => by
      rw [nextUnitIndex_i, putMem_i, toNat_add_one_of_lt hi, addrOf_succ] at hx
      have hstart := le_addrOf wide s.opa1 t.i.toNat
      rw [nextUnitIndex_mem, putMem_mem, writeUnit_other _ _ _ (by rw [cutUnit_bytes]; simp at hx; omega)]
      exact h.frame x (by simp at hx ⊢; omega) }

end

/-! ### Where a transfer has come to -/

/-- How a transfer of OPA2 units has ended with `k` units sent (R195). -/
def Ended (t : State) (k : Nat) : Prop :=
  (t.result = 0x00000000#32 ∧ k = t.i.toNat ∧ t.i = t.opa2) ∨
  (t.result = 0x00000011#32 ∧ k = t.i.toNat ∧ t.i.toNat < t.opa2.toNat) ∨
  (t.result = 0x00000021#32 ∧ k = t.i.toNat + 1 ∧ t.i.toNat < t.opa2.toNat)

/-- What PHASE says of a transfer with `k` units sent: the unit at the index is sent between EMIT and RECV (R40, R195). -/
def Stage (t : State) (k : Nat) : Prop :=
  match t.phase with
  | .idle => t.busy = false ∧ Ended t k
  | .pollTx => t.busy = true ∧ k = t.i.toNat ∧ t.i.toNat ≤ t.opa2.toNat
  | .emit => t.busy = true ∧ k = t.i.toNat ∧ t.i.toNat < t.opa2.toNat
  | .pollRx => t.busy = true ∧ k = t.i.toNat + 1 ∧ t.i.toNat < t.opa2.toNat
  | .recv => t.busy = true ∧ k = t.i.toNat + 1 ∧ t.i.toNat < t.opa2.toNat
  | .pollDrain => False
  | .finishDeselect => False

section
variable {t : State} {k : Nat}

theorem Ended.of_ok (h : Ended t k) (hr : t.result = 0x00000000#32) : k = t.i.toNat ∧ t.i = t.opa2 := by
  simpa [Ended, hr] using h

theorem Ended.of_txTimeout (h : Ended t k) (hr : t.result = 0x00000011#32) :
    k = t.i.toNat ∧ t.i.toNat < t.opa2.toNat := by
  simpa [Ended, hr] using h

theorem Ended.of_rxTimeout (h : Ended t k) (hr : t.result = 0x00000021#32) :
    k = t.i.toNat + 1 ∧ t.i.toNat < t.opa2.toNat := by
  simpa [Ended, hr] using h

theorem stage_idle (hp : t.phase = .idle) : Stage t k ↔ t.busy = false ∧ Ended t k := by simp [Stage, hp]

theorem stage_pollTx (hp : t.phase = .pollTx) :
    Stage t k ↔ t.busy = true ∧ k = t.i.toNat ∧ t.i.toNat ≤ t.opa2.toNat := by simp [Stage, hp]

theorem stage_emit (hp : t.phase = .emit) :
    Stage t k ↔ t.busy = true ∧ k = t.i.toNat ∧ t.i.toNat < t.opa2.toNat := by simp [Stage, hp]

theorem stage_pollRx (hp : t.phase = .pollRx) :
    Stage t k ↔ t.busy = true ∧ k = t.i.toNat + 1 ∧ t.i.toNat < t.opa2.toNat := by simp [Stage, hp]

theorem stage_recv (hp : t.phase = .recv) :
    Stage t k ↔ t.busy = true ∧ k = t.i.toNat + 1 ∧ t.i.toNat < t.opa2.toNat := by simp [Stage, hp]

end

/-- A state that a transfer started in `s` comes to, with its events and the count of units sent. What PHASE says, and that the
index counts the units received, is claimed where no fault is marked: a refused store follows its read (log 15). -/
structure Reached (wide txv rxv : Bool) (s t : State) (es : List Event) (k : Nat) : Prop where
  history : History wide txv rxv s t es k
  received : t.faultMark = none → (rxUnits es).length = t.i.toNat
  stage : t.faultMark = none → Stage t k

theorem reached_of_started {wide txv rxv : Bool} {s : State} (h : Started wide txv rxv s) :
    Reached wide txv rxv s s [] 0 where
  history := history_of_started h
  received _ := by simp [rxUnits, h.index]
  stage _ := (stage_pollTx h.phase).2 ⟨h.busy, by simp [h.index]⟩

section
variable {wide txv rxv : Bool} {s t u : State} {es : List Event} {k : Nat}

/-- A micro-step that sends and receives nothing goes on to its next stage, or raises. -/
theorem Reached.quiet (h : Reached wide txv rxv s t es k) (hf : t.faultMark = none) (hc : SameCommand t u)
    (hu : SameUnits t u) {ps : List Event} (ht : u.trace = t.trace ++ ps) (htx : txMarks ps = []) (hrx : rxUnits ps = [])
    (hs : u.faultMark = none → Stage u k) : ∃ es k, Reached wide txv rxv s u es k :=
  ⟨es ++ ps, k, h.history.quiet hc hu ht htx hrx, fun _ => by simpa [hrx, hu.i] using h.received hf, hs⟩

/-- A poll goes on to where its answer leads (R190). -/
theorem Reached.poll (h : Reached wide txv rxv s t es k) (hf : t.faultMark = none) (hc : SameCommand t u)
    (hu : SameUnits t u) {c : Cond} {b : Bool} (ht : u.trace = t.trace ++ [.poll c b])
    (hs : u.faultMark = none → Stage u k) : ∃ es k, Reached wide txv rxv s u es k :=
  h.quiet hf hc hu ht rfl rfl hs

/-- A sent unit is counted as sent, and its receive wait begins (R195). -/
theorem Reached.emitUnit (h : Reached wide txv rxv s t es k) (hf : t.faultMark = none) (hp : t.phase = .emit) {v : TUnit}
    (hv : SourceKept wide txv rxv s → v = sourceUnit wide txv s k) :
    ∃ es k, Reached wide txv rxv s (emitUnit v t) es k := by
  obtain ⟨hb, hk, hi⟩ := (stage_emit hp).1 (h.stage hf)
  exact ⟨_, _, h.history.emitUnit hk hv, fun _ => by simpa [rxUnits] using h.received hf,
    fun _ => (stage_pollRx rfl).2 ⟨hb, congrArg (· + 1) hk, hi⟩⟩

/-- A received unit that is counted leads to the loop head (R195). -/
theorem stage_nextUnitIndex (hb : t.busy = true) (hi : t.i.toNat < t.opa2.toNat) :
    Stage (nextUnitIndex t) (t.i.toNat + 1) := by
  refine (stage_pollTx rfl).2 ⟨hb, ?_, ?_⟩
  · rw [nextUnitIndex_i, toNat_add_one_of_lt hi]
  · rw [nextUnitIndex_i, toNat_add_one_of_lt hi]; exact hi

/-- A received unit that is stored is in the buffer and is counted (R195). -/
theorem Reached.stored (h : Reached wide txv true s t es k) (hf : t.faultMark = none) (hp : t.phase = .recv) :
    ∃ es k, Reached wide txv true s (nextUnitIndex (putMem
      (writeUnit t.mem (unitAddr wide t.opa1 t.i) (cutUnit wide (nextUnit t))) (phyRead wide t))) es k := by
  obtain ⟨hb, hk, hi⟩ := (stage_recv hp).1 (h.stage hf)
  have hlen := h.received hf
  have hread := h.history.phyRead hlen hk
  have hnew : (rxUnits (es ++ [.rx (cutUnit wide (nextUnit t))]))[(phyRead wide t).i.toNat]? =
      some (cutUnit wide (nextUnit t)) := by simp [rxUnits, ← hlen]
  have hnext := hread.nextUnitIndex_writeUnit (by simpa [← h.history.command.opa2] using hi) hnew
  rw [phyRead_mem, phyRead_i] at hnext
  rw [unitAddr_eq_addrOf, h.history.command.opa1]
  refine ⟨_, _, hnext, fun _ => ?_, fun _ => ?_⟩
  · simp [rxUnits, hlen, toNat_add_one_of_lt hi]
  · rw [hk]
    simpa using stage_nextUnitIndex (t := putMem _ (phyRead wide t)) (by simpa using hb) (by simpa using hi)

/-- A received unit that is discarded is counted (R195). -/
theorem Reached.discarded (h : Reached wide txv false s t es k) (hf : t.faultMark = none) (hp : t.phase = .recv) :
    ∃ es k, Reached wide txv false s (nextUnitIndex (phyRead wide t)) es k := by
  obtain ⟨hb, hk, hi⟩ := (stage_recv hp).1 (h.stage hf)
  have hlen := h.received hf
  refine ⟨_, _, (h.history.phyRead hlen hk).nextUnitIndex, fun _ => ?_, fun _ => ?_⟩
  · simp [rxUnits, hlen, toNat_add_one_of_lt hi]
  · rw [hk]
    simpa using stage_nextUnitIndex (t := phyRead wide t) (by simpa using hb) (by simpa using hi)

/-- Every micro-step of a started transfer goes on with its history (R195). -/
theorem XferMove.reached (hm : XferMove wide txv rxv t u) (h : Reached wide txv rxv s t es k) (hf : t.faultMark = none) :
    ∃ es k, Reached wide txv rxv s u es k := by
  have hstage := h.stage hf
  have hc := hm.sameCommand
  cases hm with
  | finished hp hi =>
    obtain ⟨-, hk, hle⟩ := (stage_pollTx hp).1 hstage
    have hend : t.i = t.opa2 := BitVec.eq_of_toNat_eq (le_antisymm hle hi)
    exact h.quiet hf hc ⟨rfl, rfl, rfl, rfl⟩ (List.append_nil _).symm rfl rfl
      fun _ => (stage_idle rfl).2 ⟨rfl, .inl ⟨rfl, hk, hend⟩⟩
  | txReady hp hi =>
    obtain ⟨hb, hk, -⟩ := (stage_pollTx hp).1 hstage
    exact h.poll hf hc (by constructor <;> simp) (pollEffect_trace .txRdy t)
      fun _ => (stage_emit rfl).2 (by simp [hb, hk, hi])
  | txTimeout hp hi =>
    obtain ⟨-, hk, -⟩ := (stage_pollTx hp).1 hstage
    exact h.poll hf hc (by constructor <;> simp [xferTimeout]) (pollEffect_trace .txRdy t)
      fun _ => (stage_idle rfl).2 ⟨rfl, .inr (.inl (by simp [xferTimeout, resultTimeout, hk, hi]))⟩
  | txAgain hp hi =>
    obtain ⟨hb, hk, hle⟩ := (stage_pollTx hp).1 hstage
    exact h.poll hf hc (by constructor <;> simp) (pollEffect_trace .txRdy t)
      fun _ => (stage_pollTx (by simpa using hp)).2 (by simp [hb, hk, hle])
  | sent hp ht =>
    subst ht
    obtain ⟨-, hk, hi⟩ := (stage_emit hp).1 hstage
    rw [h.history.command.opa2] at hi
    rw [unitAddr_eq_addrOf, h.history.command.opa0]
    exact h.emitUnit hf hp fun hs => by rw [h.history.readUnit_source hi hs, hk, sourceUnit_given]
  | readRefused => exact h.quiet hf hc ⟨rfl, rfl, rfl, rfl⟩ (List.append_nil _).symm rfl rfl nofun
  | filled hp ht => exact h.emitUnit hf hp fun _ => by rw [ht, sourceUnit_filler]
  | rxReady hp =>
    obtain ⟨hb, hk, hi⟩ := (stage_pollRx hp).1 hstage
    exact h.poll hf hc (by constructor <;> simp) (pollEffect_trace .rxRdy t)
      fun _ => (stage_recv rfl).2 (by simp [hb, hk, hi])
  | rxTimeout hp =>
    obtain ⟨-, hk, hi⟩ := (stage_pollRx hp).1 hstage
    exact h.poll hf hc (by constructor <;> simp [xferTimeout]) (pollEffect_trace .rxRdy t)
      fun _ => (stage_idle rfl).2 ⟨rfl, .inr (.inr (by simp [xferTimeout, resultTimeout, hk, hi]))⟩
  | rxAgain hp =>
    obtain ⟨hb, hk, hi⟩ := (stage_pollRx hp).1 hstage
    exact h.poll hf hc (by constructor <;> simp) (pollEffect_trace .rxRdy t)
      fun _ => (stage_pollRx (by simpa using hp)).2 (by simp [hb, hk, hi])
  | stored hp hr => subst hr; exact h.stored hf hp
  | storeRefused hp =>
    obtain ⟨-, hk, -⟩ := (stage_recv hp).1 hstage
    exact ⟨_, _, (h.history.phyRead (h.received hf) hk).raise _, nofun, nofun⟩
  | discarded hp hr => subst hr; exact h.discarded hf hp

end
end Sys2Proof.Machine

namespace Sys2Proof.Machine

open Sys2Proof.Claims

/-! ### Runs of a started transfer -/

/-- An idle block with nothing listed stays as it is (R283; log 7). -/
theorem step_of_idle {s : State} (hf : s.faultMark = none) (hb : s.busy = false) (ht : s.turns = []) :
    step s = .next s := by
  rw [step, fetch, hf, ht]
  simp [blockTurn, hb]

section
variable {wide txv rxv : Bool} {s t : State} {es : List Event} {k m : Nat}

/-- A step from a state of the run is a micro-step of the transfer, or the transfer has ended and nothing moves. -/
theorem Reached.step (hs : Started wide txv rxv s) (h : Reached wide txv rxv s t es k) {u : State}
    (hu : step t = .next u) : ∃ es k, Reached wide txv rxv s u es k := by
  have hf : t.faultMark = none := (stepTo_of_step hu).1
  have hstage := h.stage hf
  have hc := h.history.command
  have hturns : t.turns = [] := hc.turns.trans hs.turns
  have hd : decodeCommandFor t.params t.opw = .ok (xferInstr wide txv rxv) := by rw [hc.params, hc.opw, hs.word]
  have micro (hb : t.busy = true) (hp : t.phase = .pollTx ∨ t.phase = .emit ∨ t.phase = .pollRx ∨ t.phase = .recv) :
      ∃ es k, Reached wide txv rxv s u es k := by
    obtain ⟨v, he, hm⟩ := exists_xferMove wide txv rxv hp
    rw [step_of_busy hf hb hd hturns, he] at hu
    cases hu
    exact hm.reached h hf
  cases hp : t.phase with
  | idle =>
    rw [step_of_idle hf ((stage_idle hp).1 hstage).1 hturns] at hu
    cases hu
    exact ⟨es, k, h⟩
  | pollTx => exact micro ((stage_pollTx hp).1 hstage).1 (by simp [hp])
  | emit => exact micro ((stage_emit hp).1 hstage).1 (by simp [hp])
  | pollRx => exact micro ((stage_pollRx hp).1 hstage).1 (by simp [hp])
  | recv => exact micro ((stage_recv hp).1 hstage).1 (by simp [hp])
  | pollDrain => simp [Stage, hp] at hstage
  | finishDeselect => simp [Stage, hp] at hstage

/-- Every state of a started transfer's run has a history (R195). -/
theorem exists_reached_of_run (hs : Started wide txv rxv s) (hr : core.run m s = .next t) :
    ∃ es k, Reached wide txv rxv s t es k :=
  run_keeps (Q := fun t => ∃ es k, Reached wide txv rxv s t es k) (fun _ _ ⟨_, _, h⟩ hu => h.step hs hu)
    ⟨_, _, reached_of_started hs⟩ hr

/-- The events since the start are those of the history. -/
theorem reached_of_run (hs : Started wide txv rxv s) (hr : core.run m s = .next t) (ht : t.trace = s.trace ++ es) :
    ∃ k, Reached wide txv rxv s t es k := by
  obtain ⟨fs, k, h⟩ := exists_reached_of_run hs hr
  obtain rfl : es = fs := List.append_cancel_left (ht.symm.trans h.history.trace)
  exact ⟨k, h⟩

/-- In a final state the transfer has ended in one of its three ways (R195, R249). -/
theorem ended_of_final (hs : Started wide txv rxv s) (hr : core.run m s = .next t) (hend : final t = true)
    (ht : t.trace = s.trace ++ es) :
    ∃ k, History wide txv rxv s t es k ∧ (rxUnits es).length = t.i.toNat ∧ Ended t k := by
  obtain ⟨k, h⟩ := reached_of_run hs hr ht
  obtain ⟨hb, hf, -⟩ := final_iff.1 hend
  refine ⟨k, h.history, h.received hf, ?_⟩
  have hstage := h.stage hf
  cases hp : t.phase with
  | idle => exact ((stage_idle hp).1 hstage).2
  | _ => simp [Stage, hp, hb] at hstage

/-- After RESULT 0 every unit was sent and received (R195). -/
theorem complete_of_ok (hs : Started wide txv rxv s) (hr : core.run m s = .next t) (hend : final t = true)
    (hok : t.result = 0x00000000#32) (ht : t.trace = s.trace ++ es) :
    History wide txv rxv s t es s.opa2.toNat ∧ (rxUnits es).length = s.opa2.toNat ∧ t.i = s.opa2 := by
  obtain ⟨k, h, hlen, hended⟩ := ended_of_final hs hr hend ht
  obtain ⟨rfl, hi⟩ := hended.of_ok hok
  rw [h.command.opa2] at hi
  rw [hi] at h hlen
  exact ⟨h, hlen, hi⟩

/-- After RESULT 0 under LOOPBACK the receive buffer holds the units sent (R76, R199). -/
theorem received_eq_source (hs : Started wide txv true s) (hr : core.run m s = .next t) (hend : final t = true)
    (hok : t.result = 0x00000000#32) (ht : t.trace = s.trace ++ es) (hl : loopback es = true)
    (hkept : SourceKept wide txv true s) {j : Nat} (hj : j < s.opa2.toNat) :
    readUnit wide t.mem (addrOf wide s.opa1 j) = sourceUnit wide txv s j := by
  obtain ⟨h, hlen, hi⟩ := complete_of_ok hs hr hend hok ht
  have hsent := h.sent hkept
  have hall : rxUnits es = txUnits es := (h.looped hl).eq_of_length (by simp [hlen, hsent])
  have hstored := h.stored rfl j (by rwa [hi])
  rw [hall, hsent] at hstored
  simpa [hj] using hstored.symm

end

/-- The markers of `k` units: the last of `n` is marked, no earlier one (R197). -/
theorem marks_of_all {n : Nat} (hn : n ≠ 0) :
    (List.range n).map (fun j => decide (j + 1 = n)) = List.replicate (n - 1) false ++ [true] := by
  obtain ⟨m, rfl⟩ := Nat.exists_eq_succ_of_ne_zero hn
  simp only [Nat.succ_eq_add_one, List.range_succ, List.map_append, Nat.add_sub_cancel]
  congr 1
  · refine List.eq_replicate_iff.2 ⟨by simp, fun b hb => ?_⟩
    obtain ⟨j, hj, rfl⟩ := List.mem_map.1 hb
    have := List.mem_range.1 hj
    exact decide_eq_false (by omega)
  · simp

/-- A marked unit among the first `k` is the last of `n` (R197). -/
theorem true_mem_marks {n k : Nat} : true ∈ (List.range k).map (fun j => decide (j + 1 = n)) ↔ 1 ≤ n ∧ n ≤ k := by
  simp only [List.mem_map, List.mem_range, decide_eq_true_eq]
  exact ⟨fun ⟨j, hj, he⟩ => by omega, fun ⟨h1, h2⟩ => ⟨n - 1, by omega, by omega⟩⟩

end Sys2Proof.Machine

open Sys2Proof.Machine in
/-- Settles O55: the units received are those sent, and the transmit buffer keeps them to the end. -/
theorem loopbackRoundTrip : Obligations.LoopbackRoundTrip := by
  unfold Obligations.LoopbackRoundTrip
  intro s t wide es m hs hdisjoint hr hend hok ht hl j hj
  rw [received_eq_source hs hr hend hok ht hl (fun _ _ => hdisjoint) hj, sourceUnit_given]

open Sys2Proof.Machine Sys2Proof.Claims in
/-- Settles O56: with no transmit buffer every unit to send is the filler. -/
theorem fillerIsSentAndLoopedBack : Obligations.FillerIsSentAndLoopedBack := by
  unfold Obligations.FillerIsSentAndLoopedBack
  intro s t wide rxv es m ones hs hr ht
  have hkept : SourceKept wide false rxv s := nofun
  constructor
  · intro v last hv
    obtain ⟨k, h⟩ := reached_of_run hs hr ht
    have hmem := mem_txUnits_of_tx hv
    rw [h.history.sent hkept] at hmem
    obtain ⟨j, -, rfl⟩ := List.mem_map.1 hmem
    exact sourceUnit_filler wide s j
  · rintro rfl hend hok hl j hj
    rw [received_eq_source hs hr hend hok ht hl hkept hj]
    exact sourceUnit_filler wide s j

open Sys2Proof.Machine in
/-- Settles O57: each ending says how many units were sent, and the marked one is that at index `n - 1`. -/
theorem lastMarkerOnFinalUnit : Obligations.LastMarkerOnFinalUnit := by
  unfold Obligations.LastMarkerOnFinalUnit
  intro s t wide txv rxv es m hs hr hend ht
  obtain ⟨k, h, -, hended⟩ := ended_of_final hs hr hend ht
  rw [h.marks, true_mem_marks]
  refine ⟨fun hok hn => ?ok, fun htx => ?transmit, fun hrx hmark => ?receive⟩
  case ok =>
    obtain ⟨hk, hi⟩ := hended.of_ok hok
    rw [hk, hi, h.command.opa2]
    exact marks_of_all fun hz => hn (BitVec.eq_of_toNat_eq hz)
  case transmit =>
    obtain ⟨hk, hi⟩ := hended.of_txTimeout htx
    rw [h.command.opa2] at hi
    omega
  case receive =>
    obtain ⟨hk, hi⟩ := hended.of_rxTimeout hrx
    rw [h.command.opa2] at hi
    rw [h.count]
    omega

open Sys2Proof.Machine Sys2Proof.Claims in
/-- Settles O58: the index counts the units received, and each timeout says how many more were sent. -/
theorem partialResultsOnTimeout : Obligations.PartialResultsOnTimeout := by
  unfold Obligations.PartialResultsOnTimeout
  intro s t wide txv rxv es m hs hr hend ht _
  obtain ⟨k, h, hlen, hended⟩ := ended_of_final hs hr hend ht
  have hsent : (txMarks es).length = k := by simp [h.marks]
  rw [h.count, hsent]
  refine ⟨hlen, fun hrx j hj => ?stored, h.frame, fun htx => (hended.of_txTimeout htx).1,
    fun hrx => (hended.of_rxTimeout hrx).1⟩
  have hstored := h.stored hrx j (hlen ▸ hj)
  rw [List.getElem?_eq_getElem hj] at hstored
  exact (Option.some.inj hstored).symm

/-! ## A transfer whose polls all answer 1 (R195) -/

namespace Sys2Proof.Machine

open Sys2Proof.Claims

/-- A run of the transfer started in `s` is at `phase` of unit `k`, and the next `answers` polls answer 1. -/
structure OnTime (s t : State) (phase : Phase) (k answers : Nat) : Prop where
  unmarked : t.faultMark = none
  busy : t.busy = true
  command : SameCommand s t
  session : t.session = s.session
  phase : t.phase = phase
  index : t.i.toNat = k
  samples : ∃ rest, t.samples = List.replicate answers true ++ rest

section
variable {wide txv rxv : Bool} {s t : State} {k a : Nat}

theorem onTime_of_started (hs : Started wide txv rxv s) {rest : List Bool} (h : s.samples = List.replicate a true ++ rest) :
    OnTime s s .pollTx 0 a :=
  ⟨hs.fault, hs.busy, .refl s, rfl, hs.phase, by simp [hs.index], rest, h⟩

/-- With no other agent moving a step is the transfer's micro-step (R132). -/
theorem OnTime.step_eq {ph : Phase} (h : OnTime s t ph k a) (hs : Started wide txv rxv s) :
    step t = exec (xferInstr wide txv rxv) t :=
  step_of_busy h.unmarked h.busy (by rw [h.command.params, h.command.opw, hs.word]) (h.command.turns.trans hs.turns)

/-- The next poll answers 1 (R70). -/
theorem OnTime.nextSample_eq {ph : Phase} (h : OnTime s t ph k (a + 1)) : nextSample t = true := by
  obtain ⟨rest, hr⟩ := h.samples
  exact (sample_of_listed hr).1

/-- A poll uses one answer and leads to the next phase of the unit (R190). -/
theorem OnTime.poll {ph : Phase} (h : OnTime s t ph k (a + 1)) (c : Cond) (next : Phase) :
    OnTime s { pollEffect c t with phase := next } next k a where
  unmarked := by simpa using h.unmarked
  busy := by simpa using h.busy
  command := h.command.trans (by constructor <;> simp)
  session := by simpa using h.session
  phase := rfl
  index := by simpa using h.index
  samples := by
    obtain ⟨rest, hr⟩ := h.samples
    exact ⟨rest, by simp [hr, List.replicate_succ]⟩

variable (hs : Started wide txv rxv s)
include hs

theorem OnTime.pollTx (h : OnTime s t .pollTx k (a + 1)) (hk : k < s.opa2.toNat) :
    ∃ u, step t = .next u ∧ OnTime s u .emit k a := by
  have hi : t.i.toNat < t.opa2.toNat := by rwa [h.index, h.command.opa2]
  refine ⟨_, ?_, h.poll .txRdy .emit⟩
  rw [h.step_eq hs, exec_xfer_of_pollTx h.phase, xferPollTx, if_pos hi, pollResult_of_ready h.nextSample_eq]

theorem OnTime.emit (h : OnTime s t .emit k a) (hk : k < s.opa2.toNat) (ha : Admitted wide txv rxv s) :
    ∃ u, step t = .next u ∧ OnTime s u .pollRx k a := by
  have sent (v : TUnit) : OnTime s (emitUnit v t) .pollRx k a :=
    { h with command := h.command.trans (by constructor <;> rfl), phase := rfl }
  rw [h.step_eq hs, exec_xfer_of_emit h.phase, xferEmit, unitAddr_eq_addrOf, h.index, h.command.opa0, h.command.params]
  cases txv with
  | true => exact ⟨_, by rw [if_pos rfl, if_pos (ha.transmit rfl k hk)], sent _⟩
  | false => exact ⟨_, by rw [if_neg Bool.false_ne_true], sent _⟩

theorem OnTime.pollRx (h : OnTime s t .pollRx k (a + 1)) : ∃ u, step t = .next u ∧ OnTime s u .recv k a := by
  refine ⟨_, ?_, h.poll .rxRdy .recv⟩
  rw [h.step_eq hs, exec_xfer_of_pollRx h.phase, xferPollRx, pollResult_of_ready h.nextSample_eq]

theorem OnTime.recv (h : OnTime s t .recv k a) (hk : k < s.opa2.toNat) (ha : Admitted wide txv rxv s) :
    ∃ u, step t = .next u ∧ OnTime s u .pollTx (k + 1) a := by
  have hi : t.i.toNat < s.opa2.toNat := by rwa [h.index]
  have counted (m : List Host.Cell) : OnTime s (nextUnitIndex (putMem m (phyRead wide t))) .pollTx (k + 1) a := {
    unmarked := by simpa using h.unmarked
    busy := by simpa using h.busy
    command := h.command.trans (by constructor <;> simp)
    session := by simpa using h.session
    phase := rfl
    index := by simp [toNat_add_one_of_lt hi, h.index]
    samples := by simpa using h.samples }
  rw [h.step_eq hs, exec_xfer_of_recv h.phase, xferRecv_eq, unitAddr_eq_addrOf, h.index, h.command.opa1, h.command.params]
  cases rxv with
  | true => exact ⟨_, by rw [if_pos rfl, if_pos (ha.receive rfl k hk)], counted _⟩
  | false => exact ⟨nextUnitIndex (phyRead wide t), by rw [if_neg Bool.false_ne_true], counted (phyRead wide t).mem⟩

/-- One unit takes four micro-steps and two answers (R195). -/
theorem OnTime.unit (h : OnTime s t .pollTx k (a + 2)) (hk : k < s.opa2.toNat) (ha : Admitted wide txv rxv s) :
    ∃ u, core.run 4 t = .next u ∧ OnTime s u .pollTx (k + 1) a := by
  obtain ⟨t1, h1, hemit⟩ := h.pollTx hs hk
  obtain ⟨t2, h2, hpollRx⟩ := hemit.emit hs hk ha
  obtain ⟨t3, h3, hrecv⟩ := hpollRx.pollRx hs
  obtain ⟨t4, h4, hnext⟩ := hrecv.recv hs hk ha
  exact ⟨t4, by rw [run_succ h1, run_succ h2, run_succ h3, run_succ h4]; rfl, hnext⟩

/-- The first `j` units take `4 j` micro-steps (R195). -/
theorem run_units (ha : Admitted wide txv rxv s) {rest : List Bool}
    (hsamples : s.samples = List.replicate (2 * s.opa2.toNat) true ++ rest) {j : Nat} (hj : j ≤ s.opa2.toNat) :
    ∃ t, core.run (4 * j) s = .next t ∧ OnTime s t .pollTx j (2 * (s.opa2.toNat - j)) := by
  induction j with
  | zero => exact ⟨s, rfl, onTime_of_started hs hsamples⟩
  | succ j ih =>
    obtain ⟨t, ht, h⟩ := ih (by omega)
    rw [show 2 * (s.opa2.toNat - j) = 2 * (s.opa2.toNat - (j + 1)) + 2 by omega] at h
    obtain ⟨u, hu, h⟩ := h.unit hs hj ha
    exact ⟨u, by rw [Nat.mul_succ, run_add ht, hu], h⟩

/-- Every unit done, the final micro-step ends the command (R41, R195; log 13). -/
theorem run_transfer (ha : Admitted wide txv rxv s) {rest : List Bool}
    (hsamples : s.samples = List.replicate (2 * s.opa2.toNat) true ++ rest) :
    ∃ t, core.run (4 * s.opa2.toNat + 1) s = .next (finish resultOk t) ∧ OnTime s t .pollTx s.opa2.toNat 0 := by
  obtain ⟨t, ht, h⟩ := run_units hs ha hsamples le_rfl
  rw [Nat.sub_self] at h
  have hend : t.opa2.toNat ≤ t.i.toNat := by rw [h.index, h.command.opa2]
  have hlast : step t = .next (finish resultOk t) := by
    rw [h.step_eq hs, exec_xfer_of_pollTx h.phase, xferPollTx_of_done hend]
  exact ⟨t, by rw [run_add ht, run_succ hlast]; rfl, h⟩

/-- A transfer of length 0 ends in its first micro-step (R192). -/
theorem step_of_no_unit (hn : s.opa2 = 0#32) : step s = .next (finish resultOk s) := by
  rw [(onTime_of_started (a := 0) hs rfl).step_eq hs, exec_xfer_of_pollTx hs.phase, xferPollTx_of_done (by simp [hn])]

/-- A transfer of length 0 records no event (R192). -/
theorem trace_of_no_unit (hn : s.opa2 = 0#32) (h : core.run (4 * s.opa2.toNat + 1) s = .next t) : t.trace = s.trace := by
  rw [hn] at h
  obtain ⟨u, hu, hr⟩ := step_of_run h
  rw [step_of_no_unit hs hn] at hu
  cases hu
  cases hr
  rfl

end

end Sys2Proof.Machine

open Sys2Proof.Machine Sys2Proof.Claims in
/-- Settles O54: the run exists unit by unit, and its final state has the history of a complete transfer. -/
theorem transferCompletes : Obligations.TransferCompletes := by
  unfold Obligations.TransferCompletes
  intro s wide txv rxv us restU restS hs ha hus hunits hsamples
  obtain ⟨t, hr, h⟩ := run_transfer hs ha hsamples
  have hend : final (finish resultOk t) = true :=
    final_finish (claimable_iff.2 ⟨h.unmarked, h.command.refusedMark.trans hs.refused⟩)
  obtain ⟨es, _, hreached⟩ := exists_reached_of_run hs hr
  have htrace := hreached.history.trace
  obtain ⟨hist, hlen, hi⟩ := complete_of_ok hs hr hend rfl htrace
  obtain ⟨hrx, -⟩ := hist.drawn us restU hunits (hus.trans hlen.symm)
  have hdone := hist.count.trans hi
  refine ⟨finish resultOk t, es, hr, hend, rfl, rfl, hdone, h.session, hist.command.ctrl, hist.command.div,
    hist.command.cslines, fun hrxv k hk => ?received, fun x hx => hist.frame x (by rwa [hi]), htrace, fun hn => ?marks,
    fun hn => ?none⟩
  case received =>
    have hstored := hist.stored hrxv k (by rw [hi]; omega)
    simpa [hrx, hk] using hstored.symm
  case marks => rw [hist.marks, marks_of_all fun hz => hn (BitVec.eq_of_toNat_eq hz)]
  case none => exact List.append_right_eq_self.1 (htrace.symm.trans (trace_of_no_unit hs hn hr))

/-! ## DMA arming (R220 to R224) -/

namespace Sys2Proof.Machine

open Sys2Proof.Claims

/-! ### Dispatch of a present DMA command in session SELECTED (R223, R252) -/

section
variable {s : State} {given : Bool}

/-- The three conditions of R223 leave no operand check that raises. -/
theorem not_dmaRaises (hw : s.ctrl.getLsbD 4 = false) (hn : s.opa2 ≠ 0#32)
    (hbuf : given = true → fits s.params s.opa0.toNat s.opa2.toNat) (k : Fault) : ¬ dmaRaises given k s := by
  rintro (⟨-, hwide | hzero⟩ | ⟨-, -, -, hg, hunfit⟩)
  · exact Bool.false_ne_true (hw.symm.trans hwide)
  · exact hn hzero
  · exact hunfit (hbuf hg)

variable (hp : s.params.dmaPresent = true) (hch : s.opa1.toNat < s.params.ndma) (hs : s.session = .selected)
include hp hch hs

/-- Presence, channel and session pass: the operand checks alone decide. -/
theorem verdictDma_of_selected : verdictDma given s = verdictOf true true (dmaFault given s) := by
  simp only [verdictDma, hp, hch, hs, decide_true, Bool.and_self]

theorem verdictDma_of_dmaRaises {k : Fault} (h : dmaRaises given k s) : verdictDma given s = .fault k := by
  rw [verdictDma_of_selected hp hch hs, dmaFault_eq_some_iff.2 h]
  rfl

theorem verdictDma_of_legal (h : ∀ k, ¬ dmaRaises given k s) : verdictDma given s = .go := by
  have hnone : dmaFault given s = none :=
    Option.eq_none_iff_forall_ne_some.2 fun k e => h k (dmaFault_eq_some_iff.1 e)
  rw [verdictDma_of_selected hp hch hs, hnone]
  rfl

/-! ### The two commands (R221, R222) -/

/-- An operand check that fails is marked, and nothing performed (R223, R247). -/
theorem exec_dmatx_of_dmaRaises {k : Fault} (h : dmaRaises given k s) :
    exec (.dmatx given) s = .next (raise k s) := by
  rw [exec, execDmatx, verdictDma_of_dmaRaises hp hch hs h, guarded_fault]

/-- DMARX always has a buffer to check (R222, R223). -/
theorem exec_dmarx_of_dmaRaises {k : Fault} (h : dmaRaises true k s) : exec .dmarx s = .next (raise k s) := by
  rw [exec, execDmarx, verdictDma_of_dmaRaises hp hch hs h, guarded_fault]

/-- The source follows the given buffer, or stays at the FILL byte (R221). -/
theorem exec_dmatx_of_legal (h : ∀ k, ¬ dmaRaises given k s) :
    exec (.dmatx given) s = .next (dmaArmed (arm s.opa1 s.params.hsTx .memToPer
      (if given then s.opa0 else BitVec.ofNat 32 (s.params.base + Config.fillOffset)) given
      s.params.tdrAddr false s.opa2 s)) := by
  rw [exec, execDmatx, verdictDma_of_legal hp hch hs h, guarded_go]
  cases given with
  | false => rfl
  | true => rfl

/-- The destination is the given buffer, with incrementing addresses (R222). -/
theorem exec_dmarx_of_legal (h : ∀ k, ¬ dmaRaises true k s) :
    exec .dmarx s = .next (dmaArmed
      (arm s.opa1 s.params.hsRx .perToMem s.params.rdrAddr false s.opa0 true s.opa2 s)) := by
  rw [exec, execDmarx, verdictDma_of_legal hp hch hs h, guarded_go]

end

/-- An arming ends the command with the refusal mark set (R224). -/
theorem dmaArmed_eq_ended (s : State) :
    dmaArmed s = ended { s with refusedMark := some .extDma } 0x00000000#32 := rfl

end Sys2Proof.Machine

open Sys2Proof.Machine Sys2Proof.Claims in
/-- Settles O21: width and length are checked first, then the buffer, and each check leaves its mark. -/
theorem dmaOperandsRaise : Obligations.DmaOperandsRaise := by
  unfold Obligations.DmaOperandsRaise
  intro s txv hs hp hch
  constructor
  case left =>
    intro hwl
    exact ⟨exec_dmatx_of_dmaRaises hp hch hs (.inl ⟨rfl, hwl⟩), exec_dmarx_of_dmaRaises hp hch hs (.inl ⟨rfl, hwl⟩)⟩
  case right =>
    intro hw hn hbuf
    have hraises : dmaRaises true .misuseBuffer s := .inr ⟨rfl, hw, hn, rfl, hbuf⟩
    exact ⟨exec_dmatx_of_dmaRaises hp hch hs hraises, exec_dmarx_of_dmaRaises hp hch hs hraises⟩

open Sys2Proof.Machine in
/-- Settles O38: no check raises, and the four events of the arming are all it adds to the trace. -/
theorem dmatxArms : Obligations.DmatxArms := by
  unfold Obligations.DmatxArms
  intro s txv hp hch hs hw hn hbuf src
  rw [exec_dmatx_of_legal hp hch hs (not_dmaRaises hw hn hbuf), dmaArmed_eq_ended, arm_eq]
  rfl

open Sys2Proof.Machine in
/-- Settles O39: no check raises, and the four events of the arming are all it adds to the trace. -/
theorem dmarxArms : Obligations.DmarxArms := by
  unfold Obligations.DmarxArms
  intro s hp hch hs hw hn hbuf
  rw [exec_dmarx_of_legal hp hch hs (not_dmaRaises hw hn fun _ => hbuf), dmaArmed_eq_ended, arm_eq]

/-! ## The contract monitor (R35 to R39, R247 to R253) -/

namespace Sys2Proof.Machine

open Sys2Proof.Claims

/-! ### Marked and misused (R247, R252) -/

/-- A command that its session row does not allow is marked, and nothing performed (R252). -/
theorem exec_of_not_allowed {s : State} {i : Instr} (hp : s.phase = .idle) (hi : isCommand i = true)
    (hpres : i.present s.params = true) (hr : ¬ outOfRange i s) (h : ¬ allowed i s) :
    exec i s = .next (raise .misuseOrder s) := by
  obtain ⟨act, he⟩ := exec_of_idle hp hi
  rw [he, verdict_of_not_allowed hi hpres hr h, guarded_fault]

/-! ### What the hardware computes it computes from the hardware (R250)

An operation is blind to the monitor if the hardware part of its result is that of its result on the hardware part alone.
Then it takes states with the same hardware to states with the same hardware. -/

@[simp] theorem hardware_params (s : State) : (hardware s).params = s.params := rfl
@[simp] theorem hardware_lock (s : State) : (hardware s).lock = s.lock := rfl
@[simp] theorem hardware_turns (s : State) : (hardware s).turns = s.turns := rfl
@[simp] theorem hardware_samples (s : State) : (hardware s).samples = s.samples := rfl
@[simp] theorem hardware_units (s : State) : (hardware s).units = s.units := rfl
@[simp] theorem hardware_busy (s : State) : (hardware s).busy = s.busy := rfl
@[simp] theorem hardware_issuer (s : State) : (hardware s).issuer = s.issuer := rfl
@[simp] theorem hardware_opw (s : State) : (hardware s).opw = s.opw := rfl
@[simp] theorem hardware_faultMark (s : State) : (hardware s).faultMark = none := rfl

/-- The operation's effect on the hardware does not depend on the model-only registers. -/
def Blind (f : State → State) : Prop := ∀ s, hardware (f (hardware s)) = hardware (f s)

theorem Blind.congr {f : State → State} (hf : Blind f) {s u : State} (h : hardware s = hardware u) :
    hardware (f s) = hardware (f u) := by
  rw [← hf s, h, hf u]

theorem Blind.comp {g f : State → State} (hg : Blind g) (hf : Blind f) : Blind fun s => g (f s) := fun s =>
  hg.congr (hf s)

/-- A choice made on the hardware, between blind operations. -/
theorem Blind.ite {c : State → Prop} [DecidablePred c] (hc : ∀ s, c (hardware s) ↔ c s) {f g : State → State} (hf : Blind f)
    (hg : Blind g) : Blind fun s => if c s then f s else g s := fun s => by
  by_cases h : c s
  · simpa only [(hc s).2 h, h, if_true] using hf s
  · simpa only [mt (hc s).1 h, h, if_false] using hg s

theorem blind_dropSample : Blind dropSample := fun s => by
  unfold dropSample
  rw [hardware_samples]
  cases s.samples <;> rfl

theorem blind_dropUnit : Blind dropUnit := fun s => by
  unfold dropUnit
  rw [hardware_units]
  cases s.units <;> rfl

/-! ### The micro-steps (R41) -/

theorem blind_pollEffect (c : Cond) : Blind (pollEffect c) := fun s =>
  Blind.congr (f := fun t => { record (.poll c (nextSample s)) t with p := t.p + 1 }) (fun _ => rfl) (blind_dropSample s)

theorem blind_setPhase (ph : Phase) : Blind fun s => { s with phase := ph } := fun _ => rfl

theorem blind_setDrained (b : Bool) : Blind fun s => { s with drained := b, phase := .finishDeselect } := fun _ => rfl

theorem blind_finish (r : Word) : Blind (finish r) := fun _ => rfl

theorem blind_raise (k : Fault) : Blind (raise k) := fun _ => rfl

theorem blind_xferTimeout (tphase : BitVec 2) : Blind (xferTimeout tphase) := fun _ => rfl

theorem blind_emitUnit (v : TUnit) : Blind (emitUnit v) := fun _ => rfl

theorem blind_nextUnitIndex : Blind nextUnitIndex := fun _ => rfl

theorem blind_phyRead (wide : Bool) : Blind (phyRead wide) := fun s =>
  Blind.congr (f := record (.rx (cutUnit wide (nextUnit s)))) (fun _ => rfl) (blind_dropUnit s)

/-- What a poll decides, it decides by the PHY, `P` and `TLIMIT` (R190). -/
theorem pollResult_hardware (s : State) : pollResult (hardware s) = pollResult s := rfl

theorem blind_pollDrainStep : Blind pollDrainStep := fun s => by
  unfold pollDrainStep
  rw [pollResult_hardware]
  cases pollResult s with
  | ready => exact (blind_setDrained true).comp (blind_pollEffect .txEmpty) s
  | exhausted => exact (blind_setDrained false).comp (blind_pollEffect .txEmpty) s
  | again => exact blind_pollEffect .txEmpty s

theorem blind_xferPollRx : Blind xferPollRx := fun s => by
  unfold xferPollRx
  rw [pollResult_hardware]
  cases pollResult s with
  | ready => exact (blind_setPhase .recv).comp (blind_pollEffect .rxRdy) s
  | exhausted => exact (blind_xferTimeout 2#2).comp (blind_pollEffect .rxRdy) s
  | again => exact blind_pollEffect .rxRdy s

theorem blind_xferPollTx : Blind xferPollTx := by
  refine .ite (c := fun s => s.i.toNat < s.opa2.toNat) (fun _ => Iff.rfl) (fun s => ?_) (blind_finish resultOk)
  rw [pollResult_hardware]
  cases pollResult s with
  | ready => exact (blind_setPhase .emit).comp (blind_pollEffect .txRdy) s
  | exhausted => exact (blind_xferTimeout 1#2).comp (blind_pollEffect .txRdy) s
  | again => exact blind_pollEffect .txRdy s

theorem blind_xferEmit (wide txv : Bool) : Blind (xferEmit wide txv) := by
  cases txv with
  | false => exact blind_emitUnit _
  | true =>
    exact .ite (c := fun s => admits s.params (unitAddr wide s.opa0 s.i) (unitSize wide) .read = true) (fun _ => Iff.rfl)
      (fun s => blind_emitUnit (readUnit wide s.mem (unitAddr wide s.opa0 s.i)) s) (blind_raise .busErr)

theorem blind_xferRecv (wide rxv : Bool) : Blind (xferRecv wide rxv) := by
  rw [funext (xferRecv_eq wide rxv)]
  cases rxv with
  | false => exact blind_nextUnitIndex.comp (blind_phyRead wide)
  | true =>
    exact .ite (c := fun s => admits s.params (unitAddr wide s.opa1 s.i) (unitSize wide) .write = true) (fun _ => Iff.rfl)
      (fun s => blind_nextUnitIndex.congr (congrArg (putMem _) (blind_phyRead wide s)))
      ((blind_raise .busErr).comp (blind_phyRead wide))

theorem blind_releasePattern : Blind releasePattern :=
  .ite (c := fun s => s.params.csScheme = .decoder) (fun _ => Iff.rfl) (fun _ => rfl) (fun _ => rfl)

theorem blind_finishDeselect (id : Csid) : Blind (finishDeselect id) :=
  Blind.comp (g := fun s => finish (if (driveCS id.toNat true s).drained then resultOk else resultTimeout 3#2)
    { driveCS id.toNat true s with session := .deselected, selId := none }) (fun _ => rfl) blind_releasePattern

/-! ### What the hardware decides of a command (R136, R250) -/

/-- What starts a command writes the sequencer and DONE alone (R40, R195). -/
theorem blind_begin (i : Instr) : Blind (begin i) := fun s => by
  cases i <;> rfl

/-- Dispatch ends a command as illegal exactly if it is absent or out of range (R136, R137). -/
theorem verdict_eq_illegal_iff {i : Instr} (hi : isCommand i = true) (s : State) :
    verdict i s = .illegal ↔ ¬ (i.present s.params = true ∧ ¬ outOfRange i s) := by
  obtain ⟨r, o, f, hc⟩ := exists_checks hi s
  rw [hc.verdict, verdictOf_illegal, ← hc.range, Bool.not_eq_true]

/-- Presence and range are the parameters' and the latched operands', not the monitor's (R136 step 2). -/
theorem verdict_hardware_eq_illegal {i : Instr} (hi : isCommand i = true) (s : State) :
    verdict i (hardware s) = .illegal ↔ verdict i s = .illegal := by
  rw [verdict_eq_illegal_iff hi, verdict_eq_illegal_iff hi]
  exact Iff.rfl

/-- An answer with the hardware part of its state. -/
def onHardware : Out → Out
  | .next s => .next (hardware s)
  | .fault k => .fault k
  | .refused r => .refused r

/-- Where neither answer is a fault or leaves its mark, they are the same to the hardware. -/
def AgreeFaultFree (x y : Out) : Prop :=
  ∀ t v, x = .next t → y = .next v → t.faultMark = none → v.faultMark = none → hardware t = hardware v

theorem agreeFaultFree_next {t v : State} (h : hardware t = hardware v) : AgreeFaultFree (.next t) (.next v) := by
  rintro _ _ ⟨⟩ ⟨⟩ - -
  exact h

theorem agreeFaultFree_raise_left (k : Fault) (s : State) (y : Out) : AgreeFaultFree (.next (raise k s)) y := by
  rintro _ _ ⟨⟩ - ⟨⟩

theorem agreeFaultFree_raise_right (x : Out) (k : Fault) (s : State) : AgreeFaultFree x (.next (raise k s)) := by
  rintro _ _ - ⟨⟩ - ⟨⟩

theorem agreeFaultFree_fault (k : Fault) (y : Out) : AgreeFaultFree (.fault k) y := by
  rintro _ _ ⟨⟩

/-- The monitor is invisible in what an operation answers: from states with the same hardware its answers agree, unless one of
them is a fault. -/
def MonitorInvisible (act : State → Out) : Prop :=
  ∀ ⦃s u : State⦄, hardware s = hardware u → AgreeFaultFree (act s) (act u)

/-- The hardware alone decides the answer. -/
theorem monitorInvisible_of_onHardware {act : State → Out} (hact : ∀ s, onHardware (act (hardware s)) = onHardware (act s)) :
    MonitorInvisible act := by
  intro s u h t v ht hv _ _
  have heq : onHardware (act s) = onHardware (act u) := by rw [← hact s, h, hact u]
  rw [ht, hv] at heq
  exact Host.Outcome.next.inj heq

theorem Blind.monitorInvisible {f : State → State} (hf : Blind f) : MonitorInvisible fun s => .next (f s) :=
  monitorInvisible_of_onHardware fun s => congrArg Host.Outcome.next (hf s)

/-- The lock check raises or lets the write through (R251). -/
theorem MonitorInvisible.owned {act : State → Out} (hact : MonitorInvisible act) : MonitorInvisible fun s => owned s act := by
  intro s u h
  by_cases hs : s.owner = some s.caller
  · by_cases hu : u.owner = some u.caller
    · simp only [owned_of_owner hs, owned_of_owner hu]
      exact hact h
    · simp only [owned_of_not_owner hu]
      exact agreeFaultFree_raise_right _ _ u
  · simp only [owned_of_not_owner hs]
    exact agreeFaultFree_raise_left _ s _

/-- Two dispatches of a command end it as illegal together, or one raises, or they perform it together (R136). -/
theorem verdicts_of_hardware {i : Instr} (hi : isCommand i = true) {s u : State} (h : hardware s = hardware u) :
    (verdict i s = .illegal ∧ verdict i u = .illegal) ∨ (∃ k, verdict i s = .fault k) ∨ (∃ k, verdict i u = .fault k) ∨
      (verdict i s = .go ∧ verdict i u = .go) := by
  have hv : verdict i s = .illegal ↔ verdict i u = .illegal := by
    rw [← verdict_hardware_eq_illegal hi, h, verdict_hardware_eq_illegal hi]
  cases hs : verdict i s with
  | illegal => exact .inl ⟨rfl, hv.1 hs⟩
  | fault k => exact .inr (.inl ⟨k, rfl⟩)
  | go =>
    cases hu : verdict i u with
    | illegal => cases hs.symm.trans (hv.2 hu)
    | fault k => exact .inr (.inr (.inl ⟨k, rfl⟩))
    | go => exact .inr (.inr (.inr ⟨rfl, rfl⟩))

/-- The monitor's check of a command is invisible if what the command does once its checks pass is (R136). -/
theorem MonitorInvisible.guarded {i : Instr} (hi : isCommand i = true) {act : State → Out} (hact : MonitorInvisible act) :
    MonitorInvisible fun s => guarded (verdict i s) s act := by
  intro s u h
  obtain ⟨hs, hu⟩ | ⟨k, hs⟩ | ⟨k, hu⟩ | ⟨hs, hu⟩ := verdicts_of_hardware hi h
  · simp only [hs, hu]; exact agreeFaultFree_next ((blind_finish resultIllegal).congr h)
  · simp only [hs]; exact agreeFaultFree_raise_left k s _
  · simp only [hu]; exact agreeFaultFree_raise_right _ k u
  · simp only [hs, hu]; exact hact h

/-! ### Instructions -/

theorem blind_initSettings : Blind fun s => if s.inited then s else firstInit s :=
  .ite (c := fun s => s.inited = true) (fun _ => Iff.rfl) (fun _ => rfl) (fun _ => rfl)

theorem monitorInvisible_init (b : BitVec 8) : MonitorInvisible (execInit b) :=
  .guarded (i := .init b) rfl ((blind_finish _).comp blind_initSettings).monitorInvisible

theorem monitorInvisible_configure (id : Csid) (m : BitVec 2) (x : Bool) : MonitorInvisible (execConfigure id m x) :=
  .guarded (i := .configure id m x) rfl (monitorInvisible_of_onHardware fun _ => rfl)

theorem blind_assertSelect (id : Csid) : Blind (assertSelect id) :=
  .ite (c := fun s => usesPattern s.params id = true) (fun _ => Iff.rfl) (fun _ => rfl) (fun _ => rfl)

theorem monitorInvisible_select (id : Csid) : MonitorInvisible (execSelect id) :=
  .guarded (i := .select id) rfl <| Blind.monitorInvisible <|
    .comp (g := fun s => finish resultOk { s with session := .selected, selId := some id }) (fun _ => rfl)
      (blind_assertSelect id)

theorem monitorInvisible_deselect (id : Csid) : MonitorInvisible (execDeselect id) := by
  intro s u h
  have hp : s.phase = u.phase := (congrArg State.phase h :)
  unfold execDeselect
  rw [← hp]
  cases s.phase with
  | idle => exact MonitorInvisible.guarded (i := .deselect id) rfl (monitorInvisible_of_onHardware fun _ => rfl) h
  | pollDrain => exact blind_pollDrainStep.monitorInvisible h
  | finishDeselect => exact (blind_finishDeselect id).monitorInvisible h
  | _ => exact agreeFaultFree_fault _ _

theorem monitorInvisible_beginXfer : MonitorInvisible fun s => .next (beginXfer s) :=
  Blind.monitorInvisible fun _ => rfl

theorem monitorInvisible_xfer (wide txv rxv : Bool) : MonitorInvisible (xferStep wide txv rxv) := by
  intro s u h
  have hp : s.phase = u.phase := (congrArg State.phase h :)
  unfold xferStep
  rw [← hp]
  cases s.phase with
  | idle =>
    cases wide with
    | false => exact monitorInvisible_beginXfer.guarded (i := .xfer8 txv rxv) rfl h
    | true => exact monitorInvisible_beginXfer.guarded (i := .xfer16 txv rxv) rfl h
  | pollTx => exact blind_xferPollTx.monitorInvisible h
  | emit => exact (blind_xferEmit wide txv).monitorInvisible h
  | pollRx => exact blind_xferPollRx.monitorInvisible h
  | recv => exact (blind_xferRecv wide rxv).monitorInvisible h
  | _ => exact agreeFaultFree_fault _ _

theorem monitorInvisible_dmatx (txv : Bool) : MonitorInvisible (execDmatx txv) := by
  refine .guarded (i := .dmatx txv) rfl (monitorInvisible_of_onHardware fun s => ?_)
  rw [hardware_params]
  cases txv <;> rfl

theorem monitorInvisible_dmarx : MonitorInvisible execDmarx :=
  .guarded (i := .dmarx) rfl (monitorInvisible_of_onHardware fun _ => rfl)

/-- OWNER follows LOCK and does not decide it (R120). -/
theorem monitorInvisible_acquire : MonitorInvisible execAcquire :=
  monitorInvisible_of_onHardware fun s => by
    unfold execAcquire
    rw [hardware_lock]
    cases s.lock <;> rfl

theorem monitorInvisible_wrCmd (w : Word) : MonitorInvisible (execWrCmd w) := by
  refine .owned fun s u h => ?_
  have hp : s.params = u.params := (congrArg State.params h :)
  have hacc : hardware (acceptCommand w s) = hardware (acceptCommand w u) :=
    Blind.congr (f := acceptCommand w) (fun _ => rfl) h
  simp only [acceptCommand_params, acceptCommand_opw, ← hp]
  cases hd : decodeCommandFor s.params w with
  | reject r => exact agreeFaultFree_next hacc
  | ok i =>
    obtain ⟨hs, hu⟩ | ⟨k, hs⟩ | ⟨k, hu⟩ | ⟨hs, hu⟩ := verdicts_of_hardware (isCommand_of_decodeCommandFor hd) hacc
    · simp only [hs, hu]; exact agreeFaultFree_next hacc
    · simp only [hs]; exact agreeFaultFree_raise_left k s _
    · simp only [hu]; exact agreeFaultFree_raise_right _ k u
    · simp only [hs, hu]; exact agreeFaultFree_next ((blind_begin i).congr hacc)

/-- No instruction shows the monitor to the hardware, other than by a fault (R250). -/
theorem monitorInvisible_exec (i : Instr) : MonitorInvisible (exec i) := by
  cases i with
  | init b => exact monitorInvisible_init b
  | configure c m x => exact monitorInvisible_configure c m x
  | select c => exact monitorInvisible_select c
  | deselect c => exact monitorInvisible_deselect c
  | xfer8 t r => exact monitorInvisible_xfer false t r
  | xfer16 t r => exact monitorInvisible_xfer true t r
  | dmatx t => exact monitorInvisible_dmatx t
  | dmarx => exact monitorInvisible_dmarx
  | acquire => exact monitorInvisible_acquire
  | wrCmd w => exact monitorInvisible_wrCmd w
  | wrArg0 | wrArg1 | wrArg2 => exact .owned (monitorInvisible_of_onHardware fun _ => rfl)
  | _ => exact monitorInvisible_of_onHardware fun _ => rfl

/-! ### Moves of the schedule -/

/-- What a move does, with the hardware part of its state. -/
def Fetched.onHardware : Fetched → Fetched
  | .run i s => .run i (hardware s)
  | .moved s => .moved (hardware s)
  | .stop k => .stop k
  | .refuse r => .refuse r

theorem blockMove_onHardware (s : State) : (blockMove (hardware s)).onHardware = (blockMove s).onHardware := by
  unfold blockMove
  rw [hardware_params, hardware_opw]
  cases decodeCommandFor s.params s.opw <;> rfl

theorem blockTurn_onHardware (s : State) : (blockTurn (hardware s)).onHardware = (blockTurn s).onHardware := by
  unfold blockTurn
  rw [hardware_busy]
  cases s.busy with
  | false => rfl
  | true => exact blockMove_onHardware s

theorem callerMemory_onHardware (a : BusAccess) (s : State) :
    (callerMemory a (hardware s)).onHardware = (callerMemory a s).onHardware := by
  unfold callerMemory
  rw [hardware_params]
  split
  case isTrue => rfl
  case isFalse =>
    cases hw : a.write with
    | false => simp only [Bool.false_eq_true, if_false]; split <;> rfl
    | true => simp only [if_true]; split <;> rfl

theorem busTurn_onHardware (a : BusAccess) (rest : List Turn) (s : State) :
    (busTurn a rest (hardware s)).onHardware = (busTurn a rest s).onHardware := by
  unfold busTurn
  rw [hardware_params, hardware_busy, hardware_issuer]
  split
  · rfl
  · split
    · exact blockMove_onHardware s
    · split
      · cases accessInstr s.params a with
        | none => rfl
        | some i =>
          cases s.busy with
          | false => rfl
          | true => exact blockMove_onHardware s
      · exact callerMemory_onHardware a (arrive rest a.caller s)

/-- With no fault mark the schedule, the window and the sequencer decide the move (R77, R132). -/
theorem fetch_onHardware {s : State} (hf : s.faultMark = none) : (fetch (hardware s)).onHardware = (fetch s).onHardware := by
  unfold fetch
  rw [hf, hardware_faultMark, hardware_turns]
  cases s.turns with
  | nil => exact blockTurn_onHardware s
  | cons turn rest =>
    cases turn with
    | block => exact blockTurn_onHardware (advance rest s)
    | bus a => exact busTurn_onHardware a rest s

/-- States with the same hardware make the same move, and its instruction shows the monitor only by a fault (R250). -/
theorem monitorInvisible_step : MonitorInvisible step := by
  intro s u h t v ht hv htf hvf
  have hmove : (fetch s).onHardware = (fetch u).onHardware := by
    rw [← fetch_onHardware (stepTo_of_step ht).1, h, fetch_onHardware (stepTo_of_step hv).1]
  unfold step at ht hv
  generalize fetch s = m, fetch u = m' at hmove ht hv
  cases m with
  | run i s' =>
    cases m' with
    | run j u' =>
      obtain ⟨rfl, h'⟩ := Fetched.run.inj hmove
      exact monitorInvisible_exec i h' t v ht hv htf hvf
    | _ => cases hmove
  | moved s' =>
    cases m' with
    | moved u' =>
      cases ht
      cases hv
      exact Fetched.moved.inj hmove
    | _ => cases hmove
  | _ => cases ht

end Sys2Proof.Machine

open Sys2Proof.Machine in
/-- Settles O53: the move is the hardware's, and an instruction shows the monitor only by a fault. -/
theorem monitorIsInvisible : Obligations.MonitorIsInvisible := by
  unfold Obligations.MonitorIsInvisible
  exact fun s u t v h => monitorInvisible_step h t v

open Sys2Proof.Machine in
/-- Settles O17: at IDLE dispatch decides first, and the session row before the operands. -/
theorem wrongSessionRaises : Obligations.WrongSessionRaises := by
  unfold Obligations.WrongSessionRaises
  exact fun _ _ => exec_of_not_allowed

open Sys2Proof.Machine in
/-- Settles O45: the fault mark is the first thing a step reads, and the block's turn without a command moves nothing. -/
theorem markedStopsAndIdleStays : Obligations.MarkedStopsAndIdleStays := by
  unfold Obligations.MarkedStopsAndIdleStays
  exact fun _ => ⟨fun _ => step_of_marked, step_of_idle⟩

/-! ## CONFIGURE after another device (R156, R297) -/

namespace Sys2Proof.Machine

open Sys2Proof.Claims

/-- The divisor check reads the parameters and the baud operand only (R155, R156). -/
theorem divisorRaises_congr {s u : State} (hp : s.params = u.params) (hb : s.opa0 = u.opa0) :
    divisorRaises s ↔ divisorRaises u := by
  rw [divisorRaises, divisorRaises, hp, hb]

/-- CONFIGURE's CTRL depends only on the bits of CTRL it does not write (R27, R156). -/
theorem ctrlConfigure_congr {c d : Word} (h : c &&& 0xFFFFFF8C#32 = d &&& 0xFFFFFF8C#32) (m : BitVec 2) (x : Bool) :
    ctrlConfigure c m x = ctrlConfigure d m x := by
  rw [ctrlConfigure_eq, ctrlConfigure_eq, h]

/-- What a CONFIGURE that raises nothing leaves in CTRL and DIV (R156). -/
theorem configure_ctrl_div {s t : State} {id : Csid} {m : BitVec 2} {x : Bool} (hid : id.toNat < s.params.ncs)
    (ho : allowed (.configure id m x) s) (hd : ¬ divisorRaises s) (h : exec (.configure id m x) s = .next t) :
    t.ctrl = ctrlConfigure s.ctrl m x ∧ t.div = BitVec.ofNat 32 (divisor s.params s.opa0) := by
  rw [exec_configure_of_legal hid ho hd] at h
  cases h
  exact ⟨rfl, rfl⟩

end Sys2Proof.Machine

open Sys2Proof.Machine in
/-- Settles O26: both values are functions of the parameters, the baud operand and the bits of CTRL that CONFIGURE keeps. -/
theorem noStaleSettings : Obligations.NoStaleSettings := by
  unfold Obligations.NoStaleSettings
  intro s u t v id m x hp hb hc hid hs hu hd ht hv
  obtain ⟨htc, htd⟩ := configure_ctrl_div hid hs hd ht
  obtain ⟨hvc, hvd⟩ := configure_ctrl_div (hp ▸ hid) hu (mt (divisorRaises_congr hp hb).2 hd) hv
  exact ⟨by rw [htc, hvc, ctrlConfigure_congr hc], by rw [htd, hvd, hp, hb]⟩

/-! ## Reset (R280, R281) -/

namespace Sys2Proof

theorem Params.callers_ne_nil_of_wf {p : Params} (h : p.wf = true) : p.callers ≠ [] := by
  simp only [Params.wf, Bool.and_eq_true, decide_eq_true_eq] at h
  exact h.2.1

end Sys2Proof

namespace Sys2Proof.Machine

/-- The first caller, which ISSUER and the step's caller have at reset, is a caller (R6; log 8). -/
theorem resetCaller_mem {p : Params} (h : p.wf = true) : p.callers.headD 0 ∈ p.callers := by
  rw [List.headD_eq_head?_getD, List.head?_eq_some_head (Params.callers_ne_nil_of_wf h)]
  exact List.head_mem _

/-- At reset the chip-select lines of the first NCS identifiers are high, and no other bit is set (R30, R280). -/
theorem getLsbD_resetLines {ncs : Nat} (h : ncs ≤ 32) (n : Nat) :
    (BitVec.ofNat 32 (2 ^ ncs - 1)).getLsbD n = decide (n < ncs) := by
  have hin : n < ncs → n < 32 := fun hn => hn.trans_le h
  simpa [BitVec.getLsbD_ofNat, Nat.testBit_two_pow_sub_one] using hin

/-- Every register at its reset value, with no device configured or selected and no command running, meets the invariant
(R280). -/
theorem invariant_resetWith {p : Params} {m : List Host.Cell} (hp : p.wf = true) (hm : Memory.wf m = true)
    (hb : ∀ c ∈ m, c.1 < Config.addressSpace) : Invariant (State.resetWith p m) where
  params := hp
  mem := hm
  memBound := hb
  owner := iff_of_true rfl rfl
  ownerCaller := nofun
  callerCaller := resetCaller_mem hp
  issuerCaller := nofun
  ctrlReserved := (by decide : 0x0000FF00#32 &&& 0xFFFF0088#32 = 0#32)
  pcs := (by decide : ctrlPcs 0x0000FF00#32 = Config.pcsNone)
  lines := fun n => (getLsbD_resetLines (Params.ncs_le_of_wf hp) n).trans (Bool.and_true _).symm
  div := Nat.zero_le _
  result := List.mem_cons_self
  unconfigured := iff_of_true rfl rfl
  configured := fun h => absurd rfl h
  cfgRange := nofun
  selected := iff_of_false (fun h => h rfl) (by rintro (h | h) <;> cases h)
  selCfg := fun h => absurd rfl h
  polls := Nat.zero_le _
  idle := fun _ => rfl
  phase := trivial

end Sys2Proof.Machine

open Sys2Proof.Machine in
/-- Settles O47: STATUS is read off INITED and LOCK, and each other register is a field of the reset state. -/
theorem resetValues : Obligations.ResetValues := by
  unfold Obligations.ResetValues
  intro p m s
  have hstatus : statusView s = 0#32 := statusView_eq s
  iterate 28 refine ⟨rfl, ?_⟩
  exact ⟨hstatus, rfl⟩

open Sys2Proof.Machine in
/-- Settles O48: State.reset is the case of the example parameters and no listed byte. -/
theorem resetMeetsInvariant : Obligations.ResetMeetsInvariant := by
  unfold Obligations.ResetMeetsInvariant
  exact ⟨fun _ _ hp hm hb => invariant_resetWith hp hm hb, invariant_resetWith (by decide) rfl nofun⟩
